-- ==== Sys2Proof/Word.lean ====
section
/-! DEFINITION. The word of the command and response streams (00_scope.md R9, 20_memory.md R62) and the numbers
that samples and coefficients are (00_scope.md R11). A binary32 value is the word of its IEEE 754 encoding. -/

namespace Sys2Proof

/-- The unit of every transfer (20_memory.md R62). It also holds a u32, an s32 in two's complement, or a binary32
value (00_scope.md R8). -/
abbrev Word := BitVec 32

/-- One byte of a transport narrower than a word (20_memory.md R63), and the width of OPC, SUB, STATUS and DETAIL. -/
abbrev Byte := BitVec 8

/-- The numeric type of samples or of coefficients: SAMPLE_KIND and COEF_KIND of 00_scope.md R6. -/
inductive NumKind where
  | real
  | complex
deriving DecidableEq, Repr, Inhabited

/-- A sample or a coefficient: one binary32 value or a pair of them (00_scope.md R11). -/
inductive Num where
  | real (v : Word)
  | complex (re im : Word)
deriving DecidableEq, Repr, Inhabited

/-- Which of the two shapes a number has. -/
def Num.kind : Num → NumKind
  | .real _ => .real
  | .complex _ _ => .complex

/-- The real part; a real number is its own real part. -/
def Num.re : Num → Word
  | .real v => v
  | .complex re _ => re

/-- The imaginary part; that of a real number is +0.0 (log 10: no reachable state mixes the kinds). -/
def Num.im : Num → Word
  | .real _ => 0
  | .complex _ im => im

/-- How many words a number of a kind takes: `sw` and `cw` of 30_encoding.md R81. -/
def NumKind.words : NumKind → Nat
  | .real => 1
  | .complex => 2

end Sys2Proof
end

