-- ==== Sys2Proof/Config.lean ====
section
/-! DEFINITION. The parameters of one instance of the hardware (00_scope.md R6), the collaborators the spec leaves
outside the block (R7, 40_construction.md R121), and the free values: constants with no body, of which nothing can be
proved. A statement that mentions one holds whatever it is. -/

namespace Sys2Proof

/-- What a locked decimation boundary skips (00_scope.md R6, 41_step.md R149). -/
inductive LockSkip where
  /-- Only the derivative evaluation and the error update. -/
  | errorOnly
  /-- Also the counter increment and the phase advance of that iteration. -/
  | restOfIteration
deriving DecidableEq, Repr, Inhabited

/-- The loop-filter strategy: FIRST_ORDER is its only value (42_error_loop.md R168). -/
inductive LoopFilter where
  | firstOrder
deriving DecidableEq, Repr, Inhabited

/-- The filter-bank collaborator FB (00_scope.md R7). -/
inductive FilterBank where
  /-- The default arrangement of 41_step.md R148. -/
  | polyphase
  /-- Any other arrangement: its push and execute are the unconstrained functions below, one pair for each number
  (log 7). -/
  | external (id : Nat)
deriving DecidableEq, Repr, Inhabited

/-- One call of the design routine and what it answers (40_construction.md R121). -/
structure DesignRow where
  ftype : Word
  samplesPerSymbolTimesBranches : Nat
  symbolDelay : Nat
  excessBandwidth : Word
  coefficients : List Num
deriving DecidableEq, Repr, Inhabited

/-- The external pulse-shape design routine DESIGN with its accepted tags FTYPES (40_construction.md R121, log 8). -/
inductive DesignRoutine where
  /-- A routine nothing is known of: the unconstrained functions below, one pair for each number. -/
  | external (id : Nat)
  /-- A routine given by its accepted tags and the finitely many calls on which it succeeds. -/
  | table (ftypes : List Word) (rows : List DesignRow)
deriving DecidableEq, Repr, Inhabited

/-- The parameters of 00_scope.md R6, fixed for one instance of the hardware. -/
structure Config where
  sampleKind : NumKind
  coefKind : NumKind
  lockSkip : LockSkip
  kMax : Nat
  kOutMax : Nat
  npfbMax : Nat
  lMax : Nat
  maxBurst : Nat
  fb : FilterBank
  design : DesignRoutine
  loopFilter : LoopFilter
deriving DecidableEq, Repr, Inhabited

/-- The legal values of the parameters (00_scope.md R6): complex coefficients only with complex samples, and the
range of each limit. -/
def Config.legal (c : Config) : Bool :=
  (c.coefKind == .real || c.sampleKind == .complex) &&
  (decide (2 ≤ c.kMax) && decide (c.kMax ≤ 2 ^ 24)) &&
  (decide (1 ≤ c.kOutMax) && decide (c.kOutMax ≤ 2 ^ 24)) &&
  (decide (1 ≤ c.npfbMax) && decide (c.npfbMax ≤ 2 ^ 24)) &&
  (decide (1 ≤ c.lMax) && decide (c.lMax ≤ 2 ^ 31 - 1)) &&
  (decide (1 ≤ c.maxBurst) && decide (c.maxBurst ≤ 2 ^ 31 - 1))

/-- The "suggested" column of 00_scope.md R6, with the default FB of 41_step.md R148. DESIGN has no suggested value:
it is a routine nothing is known of (DESIGN CHOICE, unsafe, log 1). -/
def Config.suggested : Config where
  sampleKind := .complex
  coefKind := .real
  lockSkip := .errorOnly
  kMax := 1024
  kOutMax := 1024
  npfbMax := 1024
  lMax := 65536
  maxBurst := 1024
  fb := .polyphase
  design := .external 0
  loopFilter := .firstOrder

/-- Words per sample, `sw` (30_encoding.md R81). -/
def Config.sampleWords (c : Config) : Nat := c.sampleKind.words

/-- Words per coefficient, `cw` (30_encoding.md R81). -/
def Config.coefWords (c : Config) : Nat := c.coefKind.words

/-- Free value: the n-th unspecified word that fault entries leave in the loop registers (60_exceptions.md R226,
log 5). -/
opaque Config.freeWord : Nat → Word

/-- Free value: what an entry of a coefficient memory or history that the model does not hold would read as
(10_state.md R36, R37; log 9). No reachable state reads one (20_memory.md R61). -/
opaque Config.unheldEntry : Nat → Num

/-- Parameter: entry j of the history after an external bank `id` pushes x into a history (00_scope.md R7, log 7). -/
opaque Config.externalPush : (id : Nat) → (history : List Num) → (x : Num) → (j : Nat) → Num

/-- Parameter: the output of branch b of an external bank `id`, from its coefficients, branch count, branch length
and history alone (00_scope.md R7, log 7). -/
opaque Config.externalExecute : (id : Nat) → (coef : List Num) → (npfb hLen : Nat) → (history : List Num) → (b : Nat) → Num

/-- Parameter: whether an external design routine `id` accepts a filter family tag, i.e. FTYPES (40_construction.md
R121, log 8). -/
opaque Config.externalFtypes : (id : Nat) → (ftype : Word) → Bool

/-- Parameter: what an external design routine `id` answers, `none` when it fails (40_construction.md R121, log 8). -/
opaque Config.externalDesign :
  (id : Nat) → (ftype : Word) → (samplesPerSymbolTimesBranches symbolDelay : Nat) → (excessBandwidth fractionalDelay : Word) →
    Option (List Num)

end Sys2Proof
end

