-- ==== Sys2Proof/Syntax.lean ====
section
/-! DEFINITION. The twelve commands of the command set SSC (30_encoding.md R84), one constructor per row of the opcode
table, with the operands of 30_encoding.md R81. -/

namespace Sys2Proof

/-- The opcodes that encode a command (30_encoding.md R84). -/
inductive Opcode where
  | construct
  | constructDesign
  | step
  | execute
  | setBandwidth
  | setOutputRate
  | setRate
  | lock
  | unlock
  | getTau
  | readReg
  | reset
deriving DecidableEq, Repr

/-- One command. A command whose header has a nonzero RSV, or a nonzero SUB outside READ_REG, is no command
(30_encoding.md R85), so those fields are no operands here. -/
inductive Instr where
  /-- CONSTRUCT (40_construction.md R110); no coefficients are sent when `l` exceeds L_MAX. -/
  | construct (k npfb l : Word) (coefs : List Num)
  /-- CONSTRUCT_DESIGN (40_construction.md R120). -/
  | constructDesign (ftype k m ebw npfb : Word)
  /-- STEP (41_step.md R130). -/
  | step (x : Num)
  /-- EXECUTE (41_step.md R150); its count word is the number of samples. -/
  | execute (xs : List Num)
  /-- SET_BANDWIDTH (43_configuration.md R180). -/
  | setBandwidth (bt : Word)
  /-- SET_OUTPUT_RATE (43_configuration.md R186). -/
  | setOutputRate (ko : Word)
  /-- SET_RATE (43_configuration.md R193). -/
  | setRate (rate : Word)
  /-- LOCK (43_configuration.md R198). -/
  | lock
  /-- UNLOCK (43_configuration.md R201). -/
  | unlock
  /-- GET_TAU (43_configuration.md R204). -/
  | getTau
  /-- READ_REG (43_configuration.md R207); the index is the header's SUB field. -/
  | readReg (idx : Byte)
  /-- RESET (43_configuration.md R212). -/
  | reset
deriving DecidableEq, Repr

/-- The opcode of a command. -/
def Instr.opcode : Instr → Opcode
  | .construct _ _ _ _ => .construct
  | .constructDesign _ _ _ _ _ => .constructDesign
  | .step _ => .step
  | .execute _ => .execute
  | .setBandwidth _ => .setBandwidth
  | .setOutputRate _ => .setOutputRate
  | .setRate _ => .setRate
  | .lock => .lock
  | .unlock => .unlock
  | .getTau => .getTau
  | .readReg _ => .readReg
  | .reset => .reset

end Sys2Proof
end

