-- ==== Sys2Proof/WellFormed.lean ====
section
/-! DEFINITION. Which commands a word sequence of 30_encoding.md R81 can carry on an instance: the shape of every
sample and coefficient, and the counts of the two commands of variable length. -/

namespace Sys2Proof

/-- Every number of a list has the given kind. -/
def numsOfKind (kd : NumKind) (xs : List Num) : Bool := xs.all fun x => x.kind == kd

/-- How many coefficients follow the count word of a CONSTRUCT: none when it exceeds L_MAX (30_encoding.md R83). -/
def Config.coefCount (c : Config) (l : Word) : Nat := if l.toNat ≤ c.lMax then l.toNat else 0

/-- The operands have the shape and number that the encoding gives them (30_encoding.md R81, R83). Operand values
are not checked here: an out-of-range operand is well formed and its command rejects it. -/
def Instr.wellFormed (c : Config) : Instr → Bool
  | .construct _ _ l coefs => numsOfKind c.coefKind coefs && coefs.length == c.coefCount l
  | .step x => x.kind == c.sampleKind
  | .execute xs => numsOfKind c.sampleKind xs && decide (xs.length < 2 ^ 32)
  | .constructDesign _ _ _ _ _ => true
  | .setBandwidth _ => true
  | .setOutputRate _ => true
  | .setRate _ => true
  | .lock => true
  | .unlock => true
  | .getTau => true
  | .readReg _ => true
  | .reset => true

end Sys2Proof
end

