-- ==== Sys2Proof/Decode.lean ====
section
/-! DEFINITION. The encoding of commands: opcode map, header fields, lengths, the decoder (total on every word
sequence, rejecting by name), the encoder, and the byte order of a narrow transport (30_encoding.md R80 to R86,
20_memory.md R62 to R64). -/

namespace Sys2Proof

/-- The opcode byte of each command (30_encoding.md R84). -/
def Opcode.code : Opcode → Byte
  | .construct => 0x01
  | .constructDesign => 0x02
  | .step => 0x10
  | .execute => 0x11
  | .setBandwidth => 0x20
  | .setOutputRate => 0x21
  | .setRate => 0x22
  | .lock => 0x30
  | .unlock => 0x31
  | .getTau => 0x40
  | .readReg => 0x41
  | .reset => 0x50

/-- The command an opcode byte names; every other byte is reserved (30_encoding.md R84). -/
def Opcode.ofCode (b : Byte) : Option Opcode :=
  match b.toNat with
  | 0x01 => some .construct
  | 0x02 => some .constructDesign
  | 0x10 => some .step
  | 0x11 => some .execute
  | 0x20 => some .setBandwidth
  | 0x21 => some .setOutputRate
  | 0x22 => some .setRate
  | 0x30 => some .lock
  | 0x31 => some .unlock
  | 0x40 => some .getTau
  | 0x41 => some .readReg
  | 0x50 => some .reset
  | _ => none

/-- OPC, bits 31:24 of a header (30_encoding.md R80). -/
def headerOpc (h : Word) : Byte := BitVec.ofNat 8 (h.toNat / 2 ^ 24)

/-- SUB, bits 23:16 of a header (30_encoding.md R80). -/
def headerSub (h : Word) : Byte := BitVec.ofNat 8 (h.toNat / 2 ^ 16)

/-- RSV, bits 15:0 of a header (30_encoding.md R80). -/
def headerRsv (h : Word) : BitVec 16 := BitVec.ofNat 16 h.toNat

/-- A header word with RSV = 0 (30_encoding.md R80). -/
def header (opc : Opcode) (sub : Byte) : Word := BitVec.ofNat 32 (opc.code.toNat * 2 ^ 24 + sub.toNat * 2 ^ 16)

/-- Why a word sequence is no command (30_encoding.md R85); a READ_REG with a reserved index is a command, which its
own rule rejects (43_configuration.md R207). -/
inductive Illegal where
  /-- The OPC is not one of the twelve, 0x00 included. -/
  | unknownOpcode
  /-- RSV is not zero. -/
  | nonzeroReserved
  /-- SUB is not zero on an opcode other than READ_REG. -/
  | nonzeroSub
deriving DecidableEq, Repr

/-- What the front of the command stream holds (30_encoding.md R86). -/
inductive Decoded where
  /-- A whole command and its length in words. -/
  | command (i : Instr) (length : Nat)
  /-- An illegal encoding, why, the OPC as received and its length in words. -/
  | illegal (why : Illegal) (opc : Byte) (length : Nat)
  /-- Some words of the command have not arrived: the block waits (20_memory.md R64). -/
  | incomplete
deriving DecidableEq, Repr

/-- The length in words of the command with header `h`, from the words after it; `none` while the count word it
depends on has not arrived (30_encoding.md R83). -/
def commandLength (c : Config) (h : Word) (ops : List Word) : Option Nat :=
  match Opcode.ofCode (headerOpc h) with
  | none => some 1
  | some .construct => (ops[2]?).map fun l => 4 + c.coefCount l * c.coefWords
  | some .constructDesign => some 6
  | some .step => some (1 + c.sampleWords)
  | some .execute => (ops[0]?).map fun n => 2 + n.toNat * c.sampleWords
  | some .setBandwidth => some 2
  | some .setOutputRate => some 2
  | some .setRate => some 2
  | some .lock => some 1
  | some .unlock => some 1
  | some .getTau => some 1
  | some .readReg => some 1
  | some .reset => some 1

/-- The words of a number, real part first (20_memory.md R62). -/
def Num.words : Num → List Word
  | .real v => [v]
  | .complex re im => [re, im]

/-- `next_sample()` and `next_coef()` (00_scope.md R13): one number off the front of the words. -/
def takeNum : NumKind → List Word → Option (Num × List Word)
  | .real, v :: ws => some (.real v, ws)
  | .complex, re :: im :: ws => some (.complex re im, ws)
  | _, _ => none

/-- The first n numbers of the words, in order. -/
def takeNums (kd : NumKind) : Nat → List Word → Option (List Num)
  | 0, _ => some []
  | n + 1, ws =>
    match takeNum kd ws with
    | none => none
    | some (x, rest) => (takeNums kd n rest).map (x :: ·)

/-- The command an opcode, a SUB field and the words after the header make (30_encoding.md R81, R82). -/
def decodeOperands (c : Config) (opc : Opcode) (sub : Byte) (ops : List Word) : Option Instr :=
  match opc, ops with
  | .construct, k :: npfb :: l :: rest => (takeNums c.coefKind (c.coefCount l) rest).map fun coefs => .construct k npfb l coefs
  | .constructDesign, ftype :: k :: m :: ebw :: npfb :: _ => some (.constructDesign ftype k m ebw npfb)
  | .step, ops => (takeNum c.sampleKind ops).map fun p => .step p.1
  | .execute, n :: rest => (takeNums c.sampleKind n.toNat rest).map .execute
  | .setBandwidth, bt :: _ => some (.setBandwidth bt)
  | .setOutputRate, ko :: _ => some (.setOutputRate ko)
  | .setRate, rate :: _ => some (.setRate rate)
  | .lock, _ => some .lock
  | .unlock, _ => some .unlock
  | .getTau, _ => some .getTau
  | .readReg, _ => some (.readReg sub)
  | .reset, _ => some .reset
  | _, _ => none

/-- The command that a whole frame of `n` words with header `h` is, or why it is none (30_encoding.md R85): an unknown
opcode, then a nonzero RSV or SUB, whose payload is discarded unread. -/
def decodeFrame (c : Config) (h : Word) (ops : List Word) (n : Nat) : Decoded :=
  match Opcode.ofCode (headerOpc h) with
  | none => .illegal .unknownOpcode (headerOpc h) n
  | some opc =>
    if headerRsv h ≠ 0 then .illegal .nonzeroReserved (headerOpc h) n
    else if headerSub h ≠ 0 ∧ opc ≠ .readReg then .illegal .nonzeroSub (headerOpc h) n
    else
      match decodeOperands c opc (headerSub h) ops with
      | some i => .command i n
      | none => .incomplete

/-- The decoder (30_encoding.md R86): total on every word sequence. A command is decoded only when all its words are
there (20_memory.md R64). -/
def decode (c : Config) (ws : List Word) : Decoded :=
  match ws with
  | [] => .incomplete
  | h :: ops =>
    match commandLength c h ops with
    | none => .incomplete
    | some n => if ops.length + 1 < n then .incomplete else decodeFrame c h ops n

/-- The words of a command (30_encoding.md R80, R81), with RSV = 0, and SUB = 0 outside READ_REG (R96). -/
def encode : Instr → List Word
  | .construct k npfb l coefs => header .construct 0 :: k :: npfb :: l :: coefs.flatMap Num.words
  | .constructDesign ftype k m ebw npfb => [header .constructDesign 0, ftype, k, m, ebw, npfb]
  | .step x => header .step 0 :: x.words
  | .execute xs => header .execute 0 :: BitVec.ofNat 32 xs.length :: xs.flatMap Num.words
  | .setBandwidth bt => [header .setBandwidth 0, bt]
  | .setOutputRate ko => [header .setOutputRate 0, ko]
  | .setRate rate => [header .setRate 0, rate]
  | .lock => [header .lock 0]
  | .unlock => [header .unlock 0]
  | .getTau => [header .getTau 0]
  | .readReg idx => [header .readReg idx]
  | .reset => [header .reset 0]

/-- The bytes of a word on a narrow transport, least significant first (20_memory.md R63). -/
def bytesOfWord (w : Word) : List Byte :=
  [BitVec.ofNat 8 w.toNat, BitVec.ofNat 8 (w.toNat / 2 ^ 8), BitVec.ofNat 8 (w.toNat / 2 ^ 16),
    BitVec.ofNat 8 (w.toNat / 2 ^ 24)]

/-- The word that four bytes of a narrow transport carry, the first least significant (20_memory.md R63). -/
def wordOfBytes (b0 b1 b2 b3 : Byte) : Word :=
  BitVec.ofNat 32 (b0.toNat + b1.toNat * 2 ^ 8 + b2.toNat * 2 ^ 16 + b3.toNat * 2 ^ 24)

/-- The whole words that bytes of a narrow transport carry, and the bytes of a partial word, which is never consumed
(20_memory.md R64). -/
def wordsOfBytes : List Byte → List Word × List Byte
  | b0 :: b1 :: b2 :: b3 :: rest => (wordOfBytes b0 b1 b2 b3 :: (wordsOfBytes rest).1, (wordsOfBytes rest).2)
  | partialWord => ([], partialWord)

/-- Word i of an instruction whose bits are `w`, numbered from the least significant bit of its first word, with every
bit from `nbits` on zero. -/
def tableWord (nbits w i : Nat) : Word := BitVec.ofNat 32 (w % 2 ^ nbits / 2 ^ (32 * i))

/-- The words of that instruction: as many as its own length asks for (30_encoding.md R83). -/
def tableWords (c : Config) (nbits w : Nat) : List Word :=
  match commandLength c (tableWord nbits w 0) [tableWord nbits w 1, tableWord nbits w 2, tableWord nbits w 3] with
  | some n => (List.range n).map (tableWord nbits w)
  | none => []

/-- The instruction the decoder reads from an instruction whose bits are `w`, on an instance with the suggested
parameters. -/
def decodeTableWord (nbits w : Nat) : Option Instr :=
  match decode Config.suggested (tableWords Config.suggested nbits w) with
  | .command i _ => some i
  | .illegal _ _ _ => none
  | .incomplete => none

end Sys2Proof
end

