-- ==== Sys2Proof/Machine/State.lean ====
section
/-! DEFINITION. The state of the block: the registers, memories and histories of 10_state.md R18, the command position
(R17) and the two word streams (20_memory.md R60), as plain data, and the power-on state (70_reset_and_hazards.md
R240). -/

namespace Sys2Proof.Machine

/-- The status codes of a response (60_exceptions.md R215). -/
inductive Status where
  | ok
  | configError
  | illegalCommand
  | notConfigured
  | faulted
  | inputNonfinite
  | burstOverflow
  | branchRange
  | numeric
deriving DecidableEq, Repr

/-- The detail codes of a CONFIG_ERROR response (60_exceptions.md R216). -/
inductive Detail where
  | kRange
  | npfbRange
  | lRange
  | kOutRange
  | btRange
  | rateRange
  | mRange
  | ebwRange
  | ftypeUnknown
  | coefNonfinite
  | designFailed
deriving DecidableEq, Repr

/-- The three runtime faults (60_exceptions.md R225). They stop the command, not the machine: fault entry (R226) is a
next state. -/
inductive FaultCause where
  | burstOverflow
  | branchRange
  | numeric
deriving DecidableEq, Repr

/-- A filter bank: the tuple of 10_state.md R38. -/
structure Bank where
  coef : List Num
  npfb : Nat
  hLen : Nat
  hist : List Num
deriving DecidableEq, Repr

/-- The state of the block. -/
structure State where
  /-- The instance's parameters (00_scope.md R6). No step changes them (log 1). -/
  cfg : Config
  /-- How many free values fault entries have used: the model's own field (log 5, log 6). -/
  freeIndex : Nat
  /-- The command stream: the words that have arrived and are not consumed yet (20_memory.md R60, log 3). -/
  input : List Word
  /-- The command position, in words (10_state.md R17). -/
  pos : Nat
  /-- The response stream: every word sent since power-on, oldest first (20_memory.md R60, log 3). -/
  output : List Word
  /-- K, u32 (10_state.md R19). -/
  k : Word
  /-- K_OUT, u32 (10_state.md R20). -/
  kOut : Word
  /-- NPFB, u32 (10_state.md R21). -/
  npfb : Word
  /-- L, u32 (10_state.md R22). -/
  l : Word
  /-- H_LEN, u32 (10_state.md R23). -/
  hLen : Word
  /-- R, binary32 (10_state.md R24). -/
  r : Word
  /-- DEL_NOM, binary32 (10_state.md R25). -/
  delNom : Word
  /-- DEL, binary32 (10_state.md R25). -/
  del : Word
  /-- TAU, binary32 (10_state.md R26). -/
  tau : Word
  /-- BF, binary32 (10_state.md R27). -/
  bf : Word
  /-- B, s32 in two's complement (10_state.md R28). -/
  b : Word
  /-- DECIM_COUNTER, u32 (10_state.md R29). -/
  decim : Word
  /-- Q, binary32 (10_state.md R30). -/
  q : Word
  /-- Q_HAT, binary32 (10_state.md R30). -/
  qHat : Word
  /-- Q_PRIME, binary32 (10_state.md R30). -/
  qPrime : Word
  /-- BT, binary32 (10_state.md R31). -/
  bt : Word
  /-- ALPHA, binary32 (10_state.md R31). -/
  alpha : Word
  /-- BETA, binary32 (10_state.md R31). -/
  beta : Word
  /-- IS_LOCKED (10_state.md R32). -/
  isLocked : Bool
  /-- CONFIGURED (10_state.md R33). -/
  configured : Bool
  /-- FAULTED (10_state.md R34). -/
  faulted : Bool
  /-- FAULT_CAUSE, u8 (10_state.md R34). -/
  faultCause : Byte
  /-- The prototype coefficient memory H, entries 0 to L-1 (10_state.md R36, log 9). -/
  h : List Num
  /-- The derivative coefficient memory DH, entries 0 to L-1 (10_state.md R37, log 9). -/
  dh : List Num
  /-- The matched-filter history W_MF, entries 0 to H_LEN-1 (10_state.md R38). -/
  wMf : List Num
  /-- The derivative-filter history W_DMF, entries 0 to H_LEN-1 (10_state.md R38, R39). -/
  wDmf : List Num
deriving DecidableEq, Repr

/-- The reasons a step could stop the machine with a fault. There are none: the source's rule is that "Runtime
behavior is total", and the three runtime faults the spec adds (60_exceptions.md R225) enter the faulted state and
answer the host, which is a next state (R226). Nobody raises a fault; safe (log 12). -/
inductive Fault where
deriving DecidableEq, Repr

/-- The reasons a step gives no meaning. -/
inductive Refusal where
  /-- Raised by an arm of `exec` for an instruction that has no meaning yet; no arm raises it now. Safe. -/
  | notModelled (mnemonic : String)
  /-- Raised by `step` when the instance's parameters are outside the legal values of 00_scope.md R6: the spec admits
  no such instance (93_implementation_defined.md U7). Safe (log 1). -/
  | parametersNotAdmitted
deriving DecidableEq, Repr

/-- What a command ends in. -/
abbrev Result := Host.Outcome State Fault Refusal

/-- The power-on state (70_reset_and_hazards.md R240): unconfigured, not faulted, at the first word of an empty command
stream. The spec leaves every other register, the memories and the histories unspecified; they are zero and empty
here (DESIGN CHOICE, unsafe, log 2), and no command reads them before a construction writes them. -/
def State.reset : State where
  cfg := Config.suggested
  freeIndex := 0
  input := []
  pos := 0
  output := []
  k := 0
  kOut := 0
  npfb := 0
  l := 0
  hLen := 0
  r := 0
  delNom := 0
  del := 0
  tau := 0
  bf := 0
  b := 0
  decim := 0
  q := 0
  qHat := 0
  qPrime := 0
  bt := 0
  alpha := 0
  beta := 0
  isLocked := false
  configured := false
  faulted := false
  faultCause := 0
  h := []
  dh := []
  wMf := []
  wDmf := []

end Sys2Proof.Machine
end

