-- ==== Sys2Proof/Machine/Flags.lean ====
section
/-! DEFINITION. The numeric codes of statuses, details and faults (60_exceptions.md R215, R216) and the STATUS and
PARAMS words (10_state.md R35). -/

namespace Sys2Proof.Machine

/-- The STATUS field of a response (60_exceptions.md R215). -/
def statusCode : Status → Byte
  | .ok => 0x00
  | .configError => 0x01
  | .illegalCommand => 0x02
  | .notConfigured => 0x03
  | .faulted => 0x04
  | .inputNonfinite => 0x05
  | .burstOverflow => 0x10
  | .branchRange => 0x11
  | .numeric => 0x12

/-- The DETAIL field of a CONFIG_ERROR response (60_exceptions.md R216). -/
def detailCode : Detail → Byte
  | .kRange => 0x10
  | .npfbRange => 0x11
  | .lRange => 0x12
  | .kOutRange => 0x13
  | .btRange => 0x14
  | .rateRange => 0x15
  | .mRange => 0x16
  | .ebwRange => 0x17
  | .ftypeUnknown => 0x18
  | .coefNonfinite => 0x19
  | .designFailed => 0x1A

/-- The status that reports a runtime fault (60_exceptions.md R225). -/
def faultStatus : FaultCause → Status
  | .burstOverflow => .burstOverflow
  | .branchRange => .branchRange
  | .numeric => .numeric

/-- What FAULT_CAUSE records: the fault's status code (10_state.md R34). -/
def faultCode (c : FaultCause) : Byte := statusCode (faultStatus c)

/-- One bit as a number. -/
def bit (b : Bool) : Nat := if b then 1 else 0

/-- The STATUS word: FAULT_CAUSE in bits 15:8, FAULTED, IS_LOCKED (masked while unconfigured) and CONFIGURED in bits 2
to 0 (10_state.md R35). -/
def statusWord (s : State) : Word :=
  BitVec.ofNat 32 (s.faultCause.toNat * 2 ^ 8 + bit s.faulted * 4 + bit (s.configured && s.isLocked) * 2 + bit s.configured)

/-- The PARAMS word (10_state.md R35). -/
def paramsWord (c : Config) : Word :=
  BitVec.ofNat 32
    (bit (c.lockSkip == .restOfIteration) * 4 + bit (c.coefKind == .complex) * 2 + bit (c.sampleKind == .complex))

end Sys2Proof.Machine
end

