-- ==== Sys2Proof/Machine/Float32.lean ====
section
/-! DEFINITION. IEEE 754 binary32 as 00_scope.md R9 and R10 use it: correctly rounded to nearest, ties to even,
subnormals kept, no fusion, every NaN result the canonical quiet NaN. The definition of the operations is the IEEE
standard's, which the spec itself takes from general knowledge (PRESUMED, log 11).

A finite value is an integer multiple of 2^-149, the smallest subnormal. Operations compute the exact result as an
integer or a quotient of integers in that unit and round once, in `roundMag`. -/

namespace Sys2Proof.Machine

/-- The canonical quiet NaN, the only NaN an operation returns (00_scope.md R10). -/
def qnan : Word := 0x7FC00000

/-- +0.0. -/
def posZero : Word := 0x00000000

/-- 1.0. -/
def fone : Word := 0x3F800000

/-- -1.0. -/
def fnegOne : Word := 0xBF800000

/-- 16.0, the divisor of the derivative scale (40_construction.md R116). -/
def fsixteen : Word := 0x41800000

/-- C_022, the binary32 value of 0.22 (10_state.md R31). -/
def c022 : Word := 0x3E6147AE

/-- f32(0.01), the loop bandwidth that construction sets (10_state.md R31). -/
def f001 : Word := 0x3C23D70A

/-- The sign bit, bit 31 (00_scope.md R9). -/
def fsign (v : Word) : Bool := decide (2 ^ 31 ≤ v.toNat)

/-- The biased exponent, bits 30:23 (00_scope.md R9). -/
def fexp (v : Word) : Nat := v.toNat / 2 ^ 23 % 2 ^ 8

/-- The fraction, bits 22:0 (00_scope.md R9). -/
def ffrac (v : Word) : Nat := v.toNat % 2 ^ 23

/-- `isnan(v)` of 00_scope.md R10. -/
def isnan (v : Word) : Bool := decide (fexp v = 255) && !decide (ffrac v = 0)

/-- An infinity of either sign. -/
def isinf (v : Word) : Bool := decide (fexp v = 255) && decide (ffrac v = 0)

/-- `isfinite(v)` of 00_scope.md R10. -/
def isfinite (v : Word) : Bool := !decide (fexp v = 255)

/-- The magnitude in units of 2^-149. For an infinity it is 2^277, above every finite magnitude, so that comparisons
may use it. -/
def fmag (v : Word) : Nat := if fexp v = 0 then ffrac v else (2 ^ 23 + ffrac v) * 2 ^ (fexp v - 1)

/-- The value in units of 2^-149; both zeros are 0. -/
def fscaled (v : Word) : Int := if fsign v then -(fmag v : Int) else (fmag v : Int)

/-- The bits of the magnitude nearest to num/den units of 2^-149, ties to even; a magnitude that rounds beyond the
largest finite value is an infinity. `t` is how many binary places the last kept bit stands above 2^-149, so the
encoding is t·2^23 plus the rounded significand, carry included. -/
def roundMag (num den : Nat) : Nat :=
  let t := Nat.log2 (num / den) - 23
  let unit := den * 2 ^ t
  let q := num / unit
  let rem := num % unit
  let q' := if unit < 2 * rem ∨ (2 * rem = unit ∧ q % 2 = 1) then q + 1 else q
  min (t * 2 ^ 23 + q') 0x7F800000

/-- The word with the given sign and magnitude bits. -/
def fpack (neg : Bool) (mag : Nat) : Word := BitVec.ofNat 32 (if neg then mag + 2 ^ 31 else mag)

/-- The infinity of the given sign. -/
def finf (neg : Bool) : Word := fpack neg 0x7F800000

/-- The value with its sign inverted. -/
def fneg (v : Word) : Word := fpack (!fsign v) (v.toNat % 2 ^ 31)

/-- `fadd` of 00_scope.md R10. An exact zero sum is -0.0 only when both operands are negative zeros. -/
def fadd (a b : Word) : Word :=
  if isnan a || isnan b then qnan
  else if isinf a then (if isinf b && (fsign a != fsign b) then qnan else a)
  else if isinf b then b
  else
    let s := fscaled a + fscaled b
    if s = 0 then fpack (fsign a && fsign b) 0
    else fpack (decide (s < 0)) (roundMag s.natAbs 1)

/-- `fsub` of 00_scope.md R10: IEEE subtraction is addition of the negated operand. -/
def fsub (a b : Word) : Word := fadd a (fneg b)

/-- `fmul` of 00_scope.md R10. -/
def fmul (a b : Word) : Word :=
  if isnan a || isnan b then qnan
  else if isinf a || isinf b then
    (if decide (fmag a = 0) || decide (fmag b = 0) then qnan else finf (fsign a != fsign b))
  else fpack (fsign a != fsign b) (roundMag (fmag a * fmag b) (2 ^ 149))

/-- `fdiv` of 00_scope.md R10. -/
def fdiv (a b : Word) : Word :=
  if isnan a || isnan b then qnan
  else if isinf a then (if isinf b then qnan else finf (fsign a != fsign b))
  else if isinf b then fpack (fsign a != fsign b) 0
  else if fmag b = 0 then (if fmag a = 0 then qnan else finf (fsign a != fsign b))
  else fpack (fsign a != fsign b) (roundMag (fmag a * 2 ^ 149) (fmag b))

/-- `f32(n)` of 00_scope.md R10 for a natural number. -/
def f32 (n : Nat) : Word := if n = 0 then posZero else fpack false (roundMag (n * 2 ^ 149) 1)

/-- The order of the values of two words that are not NaN, by sign and magnitude; the two zeros are equal. -/
def fbelow (a b : Word) : Bool :=
  if fsign a then
    (if fsign b then decide (fmag b < fmag a) else !(decide (fmag a = 0) && decide (fmag b = 0)))
  else !fsign b && decide (fmag a < fmag b)

/-- a < b; false when either is NaN. -/
def flt (a b : Word) : Bool := !isnan a && !isnan b && fbelow a b

/-- a ≤ b; false when either is NaN. -/
def fle (a b : Word) : Bool := !isnan a && !isnan b && !fbelow b a

/-- `roundHA(v)` of 00_scope.md R10, the nearest integer with halves away from zero; used on finite values only. -/
def roundHA (v : Word) : Int :=
  let m : Nat := (2 * fmag v + 2 ^ 149) / 2 ^ 150
  if fsign v then -(m : Int) else (m : Int)

end Sys2Proof.Machine
end

