-- ==== Sys2Proof/Machine/Operands.lean ====
section
/-! DEFINITION. Samples and coefficients as operands: their arithmetic (00_scope.md R11, 41_step.md R148), their
finiteness, and the range checks the commands make on their operands. -/

namespace Sys2Proof.Machine

/-- The zero sample or coefficient `0s` of a kind (00_scope.md R11). -/
def zeroNum : NumKind → Num
  | .real => .real posZero
  | .complex => .complex posZero posZero

/-- A number read as one of the given kind: what an external collaborator returns is taken so (log 7, log 8). -/
def asKind : NumKind → Num → Num
  | .real, x => .real x.re
  | .complex, x => .complex x.re x.im

/-- Every component is finite (00_scope.md R11). -/
def numFinite : Num → Bool
  | .real v => isfinite v
  | .complex re im => isfinite re && isfinite im

/-- `sadd` of 41_step.md R148. Numbers of two kinds never meet in a reachable state; there the real one counts as
(v, +0.0) (DESIGN CHOICE, safe, log 10). -/
def sadd : Num → Num → Num
  | .real a, .real b => .real (fadd a b)
  | x, y => .complex (fadd x.re y.re) (fadd x.im y.im)

/-- Componentwise subtraction (40_construction.md R116). -/
def ssub : Num → Num → Num
  | .real a, .real b => .real (fsub a b)
  | x, y => .complex (fsub x.re y.re) (fsub x.im y.im)

/-- `smul(c, x)` of 41_step.md R148: a coefficient times a sample. -/
def smul : Num → Num → Num
  | .real c, .real x => .real (fmul c x)
  | .real c, .complex re im => .complex (fmul c re) (fmul c im)
  | .complex cre cim, .complex re im => .complex (fsub (fmul cre re) (fmul cim im)) (fadd (fmul cre im) (fmul cim re))
  | .complex cre cim, .real x => .complex (fmul cre x) (fmul cim x)

/-- Each component times a binary32 factor (40_construction.md R116). -/
def sscale : Num → Word → Num
  | .real v, f => .real (fmul v f)
  | .complex re im, f => .complex (fmul re f) (fmul im f)

/-- `sdiv(x, d)` of 00_scope.md R11. -/
def sdiv : Num → Word → Num
  | .real v, d => .real (fdiv v d)
  | .complex re im, d => .complex (fdiv re d) (fdiv im d)

/-- Entry i of a coefficient memory or history. The model holds every entry a rule reads; one it does not hold is
unspecified, a free value (10_state.md R36, log 9). -/
def entry (mem : List Num) (i : Nat) : Num := mem[i]?.getD (Config.unheldEntry i)

/-- `k` passes the K_RANGE check (60_exceptions.md R216). -/
def kInRange (c : Config) (k : Word) : Bool := decide (2 ≤ k.toNat) && decide (k.toNat ≤ c.kMax)

/-- `npfb` passes the NPFB_RANGE check (60_exceptions.md R216). -/
def npfbInRange (c : Config) (npfb : Word) : Bool := decide (1 ≤ npfb.toNat) && decide (npfb.toNat ≤ c.npfbMax)

/-- `k_out` passes the K_OUT_RANGE check (60_exceptions.md R216). -/
def kOutInRange (c : Config) (ko : Word) : Bool := decide (1 ≤ ko.toNat) && decide (ko.toNat ≤ c.kOutMax)

/-- 0 ≤ v ≤ 1, which NaN fails and -0.0 passes: the BT_RANGE and EBW_RANGE checks (60_exceptions.md R216). -/
def inUnitInterval (v : Word) : Bool := fle posZero v && fle v fone

/-- `rate` passes the RATE_RANGE check (43_configuration.md R193). -/
def rateInRange (rate : Word) : Bool := isfinite rate && flt posZero rate && isfinite (fdiv fone rate)

end Sys2Proof.Machine
end

