-- ==== Sys2Proof/Machine/Ops.lean ====
section
/-! DEFINITION. The named operations every command is built from: the two word streams, responses and rejections
(30_encoding.md R95, 60_exceptions.md R223), the common checks (43_configuration.md R179), the filter banks
(00_scope.md R7, 41_step.md R148), and taking and leaving a runtime fault (60_exceptions.md R226, R228). -/

namespace Sys2Proof.Machine

/-- The host sends words: they join the end of the command stream (20_memory.md R60). -/
def State.deliver (s : State) (ws : List Word) : State := { s with input := s.input ++ ws }

/-- A command consumes its `n` words: the command position advances by exactly its length (10_state.md R17). -/
def State.consume (s : State) (n : Nat) : State := { s with input := s.input.drop n, pos := s.pos + n }

/-- Words join the end of the response stream (20_memory.md R60). -/
def State.send (s : State) (ws : List Word) : State := { s with output := s.output ++ ws }

/-- The response header: echoed OPC, STATUS, DETAIL, and zero in bits 7:0 (30_encoding.md R95). -/
def responseHeader (opc : Byte) (status : Status) (detail : Byte) : Word :=
  BitVec.ofNat 32 (opc.toNat * 2 ^ 24 + (statusCode status).toNat * 2 ^ 16 + detail.toNat * 2 ^ 8)

/-- `respond` (00_scope.md R13): one response, with DETAIL = 0. -/
def State.respond (s : State) (opc : Byte) (status : Status) (payload : List Word) : State :=
  s.send (responseHeader opc status 0 :: payload)

/-- The payload of a rejected command: a count of 0 when the echoed OPC is STEP or EXECUTE, nothing otherwise
(30_encoding.md R95, 60_exceptions.md R223). -/
def rejectPayload (opc : Byte) : List Word :=
  if opc = Opcode.step.code ∨ opc = Opcode.execute.code then [0] else []

/-- `reject(status, 0)`: one response and no other change (60_exceptions.md R223). -/
def State.reject (s : State) (opc : Byte) (status : Status) : State := s.respond opc status (rejectPayload opc)

/-- `reject(CONFIG_ERROR, detail)`: one response and no other change (60_exceptions.md R222, R223). -/
def State.configError (s : State) (opc : Opcode) (detail : Detail) : State :=
  s.send [responseHeader opc.code .configError (detailCode detail)]

/-- The payload of STEP and EXECUTE: the count word, then the samples in order (30_encoding.md R95). -/
def burstPayload (ys : List Num) : List Word := BitVec.ofNat 32 ys.length :: ys.flatMap Num.words

/-- The common checks of 43_configuration.md R179 after the encoding checks, and the same two of 41_step.md R130 and
R150: NOT_CONFIGURED, then FAULTED, then the command itself. -/
def whenReady (opc : Opcode) (s : State) (command : State → State) : State :=
  if s.configured = false then s.reject opc.code .notConfigured
  else if s.faulted = true then s.reject opc.code .faulted
  else command s

/-- The matched-filter bank (10_state.md R38). -/
def State.mf (s : State) : Bank := ⟨s.h, s.npfb.toNat, s.hLen.toNat, s.wMf⟩

/-- The derivative-filter bank (10_state.md R38). -/
def State.dmf (s : State) : Bank := ⟨s.dh, s.npfb.toNat, s.hLen.toNat, s.wDmf⟩

/-- FB_CLEAR: the history becomes H_LEN zero samples, whatever FB is (00_scope.md R7, 10_state.md R18). -/
def fbClear (c : Config) (bank : Bank) : Bank := { bank with hist := List.replicate bank.hLen (zeroNum c.sampleKind) }

/-- FB_PUSH (00_scope.md R7): under the default, x becomes the newest entry, first, and the oldest drops out (41_step.md
R148); an external bank rearranges the history as it will (log 7). -/
def fbPush (c : Config) (bank : Bank) (x : Num) : Bank :=
  match c.fb with
  | .polyphase => { bank with hist := (x :: bank.hist).take bank.hLen }
  | .external id =>
    { bank with
      hist := (List.range bank.hLen).map fun j => asKind c.sampleKind (Config.externalPush id bank.hist x j) }

/-- FB_EXECUTE (00_scope.md R7): under the default, taps b, b + NPFB, b + 2·NPFB, … on the history from its newest
sample, summed in that order from the zero sample (41_step.md R148). With H_LEN = 0 (10_state.md R23) that is the zero
sample; an external bank's output is left free there as elsewhere, though 92_eei_decisions.md D26 gives the zero sample
without naming an FB, because 93_implementation_defined.md K3 ties that zero to the default (DESIGN CHOICE, safe,
log 7). -/
def fbExecute (c : Config) (bank : Bank) (b : Nat) : Num :=
  match c.fb with
  | .polyphase =>
    (List.range bank.hLen).foldl
      (fun acc j => sadd acc (smul (entry bank.coef (j * bank.npfb + b)) (entry bank.hist j))) (zeroNum c.sampleKind)
  | .external id => asKind c.sampleKind (Config.externalExecute id bank.coef bank.npfb bank.hLen bank.hist b)

/-- Both histories cleared (40_construction.md R115, 43_configuration.md R212). -/
def State.clearHistories (s : State) : State :=
  { s with wMf := (fbClear s.cfg s.mf).hist, wDmf := (fbClear s.cfg s.dmf).hist }

/-- Both banks take the sample (41_step.md R140). -/
def State.push (s : State) (x : Num) : State :=
  { s with wMf := (fbPush s.cfg s.mf x).hist, wDmf := (fbPush s.cfg s.dmf x).hist }

/-- TAKING A RUNTIME FAULT, the state part of FAULT_ENTRY (60_exceptions.md R226): FAULTED and FAULT_CAUSE record it,
the loop registers become unspecified (free values, log 5), everything else stays. -/
def State.enterFault (s : State) (cause : FaultCause) : State :=
  { s with
    faulted := true
    faultCause := faultCode cause
    tau := Config.freeWord s.freeIndex
    bf := Config.freeWord (s.freeIndex + 1)
    b := Config.freeWord (s.freeIndex + 2)
    del := Config.freeWord (s.freeIndex + 3)
    decim := Config.freeWord (s.freeIndex + 4)
    q := Config.freeWord (s.freeIndex + 5)
    qHat := Config.freeWord (s.freeIndex + 6)
    qPrime := Config.freeWord (s.freeIndex + 7)
    freeIndex := s.freeIndex + 8 }

/-- LEAVING THE FAULTED STATE, as RESET and a construction do (60_exceptions.md R228). -/
def State.clearFault (s : State) : State := { s with faulted := false, faultCause := 0 }

/-- The timing, phase, error and decimation registers at the values construction and RESET give them (10_state.md R18,
columns CON and RST). -/
def State.clearLoop (s : State) : State :=
  { s with tau := posZero, bf := posZero, b := 0, decim := 0, q := posZero, qHat := posZero, qPrime := posZero }

/-- BT with the loop-filter coefficients computed from it (10_state.md R31, 43_configuration.md R180). -/
def State.writeBandwidth (s : State) (bt : Word) : State :=
  { s with bt := bt, alpha := fsub fone bt, beta := fmul c022 bt }

/-- K_OUT with R, DEL_NOM and DEL computed from it (43_configuration.md R186, R187; 40_construction.md R115). -/
def State.writeOutputRate (s : State) (ko : Word) : State :=
  { s with
    kOut := ko
    r := fdiv (f32 ko.toNat) (f32 s.k.toNat)
    delNom := fdiv (f32 s.k.toNat) (f32 ko.toNat)
    del := fdiv (f32 s.k.toNat) (f32 ko.toNat) }

/-- R, DEL_NOM and DEL from a directly given rate (43_configuration.md R193). -/
def State.writeRate (s : State) (rate : Word) : State :=
  { s with r := rate, delNom := fdiv fone rate, del := fdiv fone rate }

end Sys2Proof.Machine
end

