-- ==== Sys2Proof/Machine/Configuration.lean ====
section
/-! DEFINITION. SET_BANDWIDTH, SET_OUTPUT_RATE, SET_RATE, LOCK, UNLOCK and RESET (43_configuration.md). -/

namespace Sys2Proof.Machine

/-- SET_BANDWIDTH (43_configuration.md R180). -/
def execSetBandwidth (bt : Word) (s : State) : Result :=
  .next <| whenReady .setBandwidth s fun s =>
    if inUnitInterval bt = false then s.configError .setBandwidth .btRange
    else (s.writeBandwidth bt).respond Opcode.setBandwidth.code .ok []

/-- The counter clamp: DECIM_COUNTER is lowered to a smaller K_OUT (43_configuration.md R191). -/
def State.clampDecim (s : State) (ko : Word) : State :=
  { s with decim := if ko.toNat < s.decim.toNat then ko else s.decim }

/-- SET_OUTPUT_RATE (43_configuration.md R186). -/
def execSetOutputRate (ko : Word) (s : State) : Result :=
  .next <| whenReady .setOutputRate s fun s =>
    if kOutInRange s.cfg ko = false then s.configError .setOutputRate .kOutRange
    else ((s.writeOutputRate ko).clampDecim ko).respond Opcode.setOutputRate.code .ok []

/-- SET_RATE (43_configuration.md R193). -/
def execSetRate (rate : Word) (s : State) : Result :=
  .next <| whenReady .setRate s fun s =>
    if rateInRange rate = false then s.configError .setRate .rateRange
    else (s.writeRate rate).respond Opcode.setRate.code .ok []

/-- IS_LOCKED written (10_state.md R32). -/
def State.writeLock (s : State) (locked : Bool) : State := { s with isLocked := locked }

/-- LOCK always sets the flag (43_configuration.md R198, R199). -/
def execLock (s : State) : Result :=
  .next <| whenReady .lock s fun s => (s.writeLock true).respond Opcode.lock.code .ok []

/-- UNLOCK always clears the flag (43_configuration.md R199, R201). -/
def execUnlock (s : State) : Result :=
  .next <| whenReady .unlock s fun s => (s.writeLock false).respond Opcode.unlock.code .ok []

/-- DEL back at DEL_NOM (43_configuration.md R212). -/
def State.restoreStep (s : State) : State := { s with del := s.delNom }

/-- The state part of RESET: the RST column of 10_state.md R18. -/
def State.resetLoop (s : State) : State := ((s.clearLoop.restoreStep).clearHistories).clearFault

/-- RESET (43_configuration.md R212): rejected while unconfigured, accepted while FAULTED. -/
def execReset (s : State) : Result :=
  .next <|
    if s.configured = false then s.reject Opcode.reset.code .notConfigured
    else s.resetLoop.respond Opcode.reset.code .ok []

end Sys2Proof.Machine
end

