-- ==== Sys2Proof/Machine/Construction.lean ====
section
/-! DEFINITION. CONSTRUCT and CONSTRUCT_DESIGN and the installation both end in (40_construction.md). -/

namespace Sys2Proof.Machine

/-- The derivative scale npfb/16, a real quotient (40_construction.md R116). -/
def derivScale (npfb : Word) : Word := fdiv (f32 npfb.toNat) fsixteen

/-- DERIV(c, L, npfb, i), indices modulo L (40_construction.md R116). -/
def deriv (c : List Num) (l : Nat) (npfb : Word) (i : Nat) : Num :=
  sscale (ssub (entry c ((i + 1) % l)) (entry c ((i + l - 1) % l))) (derivScale npfb)

/-- The derivative coefficients of a prototype (40_construction.md R115, R116). -/
def derivatives (c : List Num) (l : Nat) (npfb : Word) : List Num := (List.range l).map (deriv c l npfb)

/-- H_LEN (40_construction.md R117). -/
def branchLength (l npfb : Word) : Word := BitVec.ofNat 32 ((l.toNat - 1) / npfb.toNat)

/-- The configuration registers and coefficient memories of a new instance (40_construction.md R115). -/
def State.writeInstance (s : State) (k npfb l : Word) (c : List Num) : State :=
  { s with
    k := k
    npfb := npfb
    l := l
    hLen := branchLength l npfb
    h := c
    dh := derivatives c l.toNat npfb
    isLocked := false
    configured := true }

/-- INSTALL(k, npfb, L, c) (40_construction.md R115): the whole CON column of 10_state.md R18. -/
def State.install (s : State) (k npfb l : Word) (c : List Num) : State :=
  ((((((s.writeInstance k npfb l c).clearHistories).writeOutputRate 1).writeBandwidth f001).clearLoop).clearFault)

/-- CONSTRUCT (40_construction.md R110), its operand checks in the order of 60_exceptions.md R221. It is accepted in
every state. -/
def execConstruct (k npfb l : Word) (coefs : List Num) (s : State) : Result :=
  .next <|
    if s.cfg.lMax < l.toNat then s.configError .construct .lRange
    else if kInRange s.cfg k = false then s.configError .construct .kRange
    else if l = 0 then s.configError .construct .lRange
    else if npfbInRange s.cfg npfb = false then s.configError .construct .npfbRange
    else if coefs.all numFinite = false then s.configError .construct .coefNonfinite
    else (s.install k npfb l coefs).respond Opcode.construct.code .ok []

/-- The tag is in FTYPES (40_construction.md R121). -/
def ftypeAccepted (c : Config) (ftype : Word) : Bool :=
  match c.design with
  | .external id => Config.externalFtypes id ftype
  | .table ftypes _ => ftypes.contains ftype

/-- DESIGN(ftype, n, m, ebw, 0), `none` when it fails, with the coefficients taken as COEF_KIND (40_construction.md R121,
log 8). -/
def designCoefs (c : Config) (ftype : Word) (n m : Nat) (ebw : Word) : Option (List Num) :=
  match c.design with
  | .external id => (Config.externalDesign id ftype n m ebw posZero).map fun cs => cs.map (asKind c.coefKind)
  | .table _ rows =>
    (rows.find? fun row =>
        row.ftype == ftype && row.samplesPerSymbolTimesBranches == n && row.symbolDelay == m &&
          row.excessBandwidth == ebw).map
      fun row => row.coefficients.map (asKind c.coefKind)

/-- The prototype length 2·npfb·k·m + 1, over the integers (40_construction.md R120). -/
def designLength (k m npfb : Word) : Nat := 2 * npfb.toNat * k.toNat * m.toNat + 1

/-- CONSTRUCT_DESIGN (40_construction.md R120), its operand checks in that rule's order. It is accepted in every
state. -/
def execConstructDesign (ftype k m ebw npfb : Word) (s : State) : Result :=
  .next <|
    if kInRange s.cfg k = false then s.configError .constructDesign .kRange
    else if m = 0 then s.configError .constructDesign .mRange
    else if inUnitInterval ebw = false then s.configError .constructDesign .ebwRange
    else if npfbInRange s.cfg npfb = false then s.configError .constructDesign .npfbRange
    else if ftypeAccepted s.cfg ftype = false then s.configError .constructDesign .ftypeUnknown
    else if s.cfg.lMax < designLength k m npfb then s.configError .constructDesign .lRange
    else
      match designCoefs s.cfg ftype (k.toNat * npfb.toNat) m.toNat ebw with
      | none => s.configError .constructDesign .designFailed
      | some c =>
        if c.length ≠ designLength k m npfb then s.configError .constructDesign .designFailed
        else if c.all numFinite = false then s.configError .constructDesign .coefNonfinite
        else
          (s.install k npfb (BitVec.ofNat 32 (designLength k m npfb)) c).respond Opcode.constructDesign.code .ok []

end Sys2Proof.Machine
end

