-- ==== Sys2Proof/Machine/Readback.lean ====
section
/-! DEFINITION. GET_TAU and READ_REG (43_configuration.md R204 to R210). Neither changes any state. -/

namespace Sys2Proof.Machine

/-- GET_TAU (43_configuration.md R204). -/
def execGetTau (s : State) : Result :=
  .next <| whenReady .getTau s fun s => s.respond Opcode.getTau.code .ok [s.tau]

/-- REGWORD(idx), the register index map; `none` is a reserved index (43_configuration.md R210). -/
def regWord (s : State) (idx : Byte) : Option Word :=
  match idx.toNat with
  | 0x00 => some s.tau
  | 0x01 => some s.bf
  | 0x02 => some s.b
  | 0x03 => some s.del
  | 0x04 => some s.r
  | 0x05 => some s.q
  | 0x06 => some s.qHat
  | 0x07 => some s.qPrime
  | 0x08 => some s.alpha
  | 0x09 => some s.beta
  | 0x0A => some s.bt
  | 0x0B => some s.decim
  | 0x0C => some s.k
  | 0x0D => some s.kOut
  | 0x0E => some s.npfb
  | 0x0F => some s.hLen
  | 0x10 => some s.l
  | 0x11 => some (statusWord s)
  | 0x12 => some (paramsWord s.cfg)
  | 0x13 => some s.delNom
  | _ => none

/-- STATUS and PARAMS, the two indices readable before a construction (60_exceptions.md R218). -/
def readableUnconfigured (idx : Byte) : Bool := idx == 0x11 || idx == 0x12

/-- READ_REG (43_configuration.md R207): a reserved index is ILLEGAL_COMMAND, then NOT_CONFIGURED; it is accepted while
FAULTED. -/
def execReadReg (idx : Byte) (s : State) : Result :=
  .next <|
    match regWord s idx with
    | none => s.reject Opcode.readReg.code .illegalCommand
    | some w =>
      if s.configured = false ∧ readableUnconfigured idx = false then s.reject Opcode.readReg.code .notConfigured
      else s.respond Opcode.readReg.code .ok [w]

end Sys2Proof.Machine
end

