-- ==== Sys2Proof/Machine/ErrorLoop.lean ====
section
/-! DEFINITION. ERROR_UPDATE: the timing-error detector and the first-order loop filter (42_error_loop.md R160 to
R166). -/

namespace Sys2Proof.Machine

/-- The detector TED (42_error_loop.md R161): Re(conj(mf)·dmf). -/
def ted : Num → Num → Word
  | .real mf, .real dmf => fmul mf dmf
  | mf, dmf => fadd (fmul mf.re dmf.re) (fmul mf.im dmf.im)

/-- CLIP (42_error_loop.md R163). -/
def clip (t : Word) : Word := if flt fone t then fone else if flt t fnegOne then fnegOne else t

/-- The smoothed error that the loop filter computes from a clipped error (42_error_loop.md R164). -/
def smoothed (s : State) (q : Word) : Word := fadd (fmul q s.beta) (fmul s.qPrime s.alpha)

/-- The interpolation step that goes with a smoothed error (42_error_loop.md R166). -/
def stepFor (s : State) (qHat : Word) : Word := fadd (fdiv (f32 s.k.toNat) (f32 s.kOut.toNat)) qHat

/-- The loop filter's writes, in their order Q, Q_HAT, Q_PRIME, DEL (42_error_loop.md R160). -/
def State.updateLoop (s : State) (t : Word) : State :=
  { s with
    q := clip t
    qHat := smoothed s (clip t)
    qPrime := smoothed s (clip t)
    del := stepFor s (smoothed s (clip t)) }

/-- ERROR_UPDATE(mf, dmf); `none` is the fault NUMERIC, raised before any register is written (42_error_loop.md R160,
R162). -/
def errorUpdate (s : State) (mf dmf : Num) : Option State :=
  if isnan (ted mf dmf) then none else some (s.updateLoop (ted mf dmf))

end Sys2Proof.Machine
end

