-- ==== Sys2Proof/Machine/Stepping.lean ====
section
/-! DEFINITION. STEP and EXECUTE (41_step.md): the output loop STEP_CORE (R131) with its guard, output gating, rate
controller, phase accumulator and symbol-boundary correction, and the two commands that run it. -/

namespace Sys2Proof.Machine

/-- What STEP_CORE ends in: the state and the burst when it completes, or the cause, the state at the raise and the
samples emitted before it. -/
inductive Burst where
  | completed (s : State) (ys : List Num)
  | raised (cause : FaultCause) (s : State) (ys : List Num)
deriving DecidableEq, Repr

/-- The burst with one sample emitted before it. -/
def Burst.emit (y : Num) : Burst → Burst
  | .completed s ys => .completed s (y :: ys)
  | .raised c s ys => .raised c s (y :: ys)

/-- The loop test's three answers (41_step.md R141). -/
inductive LoopTest where
  | leave
  | outOfRange
  | body
deriving DecidableEq, Repr

/-- The loop guard without the burst limit (41_step.md R141): a signed comparison of B with NPFB, then of B with 0. -/
def loopTest (s : State) : LoopTest :=
  if ¬ s.b.toInt < (s.npfb.toNat : Int) then .leave else if s.b.toInt < 0 then .outOfRange else .body

/-- The branch index as an index into a bank, once the loop test has passed (10_state.md R28). -/
def State.branch (s : State) : Nat := s.b.toNat

/-- The matched-filter output at the present branch, unscaled (41_step.md R142). -/
def State.matched (s : State) : Num := fbExecute s.cfg s.mf s.branch

/-- The derivative-filter output at the present branch (41_step.md R143). -/
def State.derivative (s : State) : Num := fbExecute s.cfg s.dmf s.branch

/-- Step 2a, the emitted sample: the matched-filter output divided by K (41_step.md R142). -/
def State.outputSample (s : State) : Num := sdiv s.matched (f32 s.k.toNat)

/-- What is left of an iteration after its decimation boundary test. -/
inductive Decimation where
  /-- Go on with steps 2c and 2d. -/
  | goOn (s : State)
  /-- Go back to the loop test without them (LOCK_SKIP = REST_OF_ITERATION, 41_step.md R149). -/
  | skipRest (s : State)
  /-- The error update raised NUMERIC. -/
  | raised (s : State)
deriving DecidableEq, Repr

/-- DECIM_COUNTER cleared (41_step.md R143, step 2b). -/
def State.clearDecim (s : State) : State := { s with decim := 0 }

/-- Step 2b, the rate controller (41_step.md R143, R149). -/
def decimate (s : State) : Decimation :=
  if s.decim = s.kOut then
    if s.isLocked = false then
      match errorUpdate s.clearDecim s.matched s.derivative with
      | some s' => .goOn s'
      | none => .raised s.clearDecim
    else
      match s.cfg.lockSkip with
      | .errorOnly => .goOn s.clearDecim
      | .restOfIteration => .skipRest s.clearDecim
  else .goOn s

/-- Step 2c (41_step.md R143). -/
def State.countOutput (s : State) : State := { s with decim := s.decim + 1 }

/-- The first half of step 2d: TAU and BF advance (41_step.md R144). -/
def State.advancePhase (s : State) : State :=
  { s with tau := fadd s.tau s.del, bf := fmul (fadd s.tau s.del) (f32 s.npfb.toNat) }

/-- BF is finite and rounds into s32 (41_step.md R144). -/
def branchFits (bf : Word) : Bool :=
  isfinite bf && decide (-(2 ^ 31) ≤ roundHA bf) && decide (roundHA bf ≤ 2 ^ 31 - 1)

/-- The second half of step 2d: B follows BF (41_step.md R144). -/
def State.roundBranch (s : State) : State := { s with b := BitVec.ofInt 32 (roundHA s.bf) }

/-- One pass of the loop body after its output: back to the loop test, or a fault. -/
inductive Pass where
  | again (s : State)
  | raised (cause : FaultCause) (s : State)
deriving DecidableEq, Repr

/-- Steps 2c and 2d (41_step.md R131): count, advance, and BRANCH_RANGE before B is written. -/
def advance (s : State) : Pass :=
  if branchFits s.countOutput.advancePhase.bf then .again s.countOutput.advancePhase.roundBranch
  else .raised .branchRange s.countOutput.advancePhase

/-- Steps 2b to 2d of one iteration (41_step.md R131). -/
def iterate (s : State) : Pass :=
  match decimate s with
  | .goOn s' => advance s'
  | .skipRest s' => .again s'
  | .raised s' => .raised .numeric s'

/-- Step 3, the symbol-boundary correction (41_step.md R145). -/
def State.correct (s : State) : State :=
  { s with tau := fsub s.tau fone, bf := fsub s.bf (f32 s.npfb.toNat), b := s.b - s.npfb }

/-- Steps 2 and 3 with room for `room` more samples; with none left, a sample due is BURST_OVERFLOW (41_step.md R131,
R141). Every STEP therefore ends within MAX_BURST iterations (70_reset_and_hazards.md R248). -/
def outputLoop : Nat → State → Burst
  | 0, s =>
    match loopTest s with
    | .leave => .completed s.correct []
    | .outOfRange => .raised .branchRange s []
    | .body => .raised .burstOverflow s []
  | room + 1, s =>
    match loopTest s with
    | .leave => .completed s.correct []
    | .outOfRange => .raised .branchRange s []
    | .body =>
      match iterate s with
      | .again s' => (outputLoop room s').emit s.outputSample
      | .raised c s' => .raised c s' [s.outputSample]

/-- STEP_CORE(x) with room for `room` samples (41_step.md R131). -/
def stepCore (room : Nat) (s : State) (x : Num) : Burst := outputLoop room (s.push x)

/-- How a STEP answers for its burst (41_step.md R130, 60_exceptions.md R226). -/
def finishStep : Burst → State
  | .completed s ys => s.respond Opcode.step.code .ok (burstPayload ys)
  | .raised c s ys => (s.enterFault c).respond Opcode.step.code (faultStatus c) (burstPayload ys)

/-- STEP (41_step.md R130): INPUT_NONFINITE after the common checks (R139), then STEP_CORE. -/
def execStep (x : Num) (s : State) : Result :=
  .next <| whenReady .step s fun s =>
    if numFinite x = false then s.reject Opcode.step.code .inputNonfinite
    else finishStep (stepCore s.cfg.maxBurst s x)

/-- What the sample loop of an EXECUTE ends in, with every sample emitted (41_step.md R150). -/
inductive Batch where
  | completed (s : State) (ys : List Num)
  | nonfinite (s : State) (ys : List Num)
  | raised (cause : FaultCause) (s : State) (ys : List Num)
deriving DecidableEq, Repr

/-- The batch with samples emitted before it. -/
def Batch.prepend (front : List Num) : Batch → Batch
  | .completed s ys => .completed s (front ++ ys)
  | .nonfinite s ys => .nonfinite s (front ++ ys)
  | .raised c s ys => .raised c s (front ++ ys)

/-- How many samples a STEP_CORE may emit within an EXECUTE that has emitted `total`: MAX_BURST, and never so many that
the total would reach 2^32 (41_step.md R150, log 14). -/
def roomFor (c : Config) (total : Nat) : Nat := min c.maxBurst (2 ^ 32 - 1 - total)

/-- The sample loop of EXECUTE (41_step.md R150): it stops at the first non-finite sample or the first fault. -/
def runBatch : List Num → Nat → State → Batch
  | [], _, s => .completed s []
  | x :: xs, total, s =>
    if numFinite x = false then .nonfinite s []
    else
      match stepCore (roomFor s.cfg total) s x with
      | .completed s' ys => (runBatch xs (total + ys.length) s').prepend ys
      | .raised c s' ys => .raised c s' ys

/-- How an EXECUTE answers for its batch (41_step.md R150, 60_exceptions.md R224, R226). -/
def finishBatch : Batch → State
  | .completed s ys => s.respond Opcode.execute.code .ok (burstPayload ys)
  | .nonfinite s ys => s.respond Opcode.execute.code .inputNonfinite (burstPayload ys)
  | .raised c s ys => (s.enterFault c).respond Opcode.execute.code (faultStatus c) (burstPayload ys)

/-- EXECUTE (41_step.md R150). -/
def execExecute (xs : List Num) (s : State) : Result :=
  .next <| whenReady .execute s fun s => finishBatch (runBatch xs 0 s)

end Sys2Proof.Machine
end

