-- ==== Sys2Proof/Machine/Dispatch.lean ====
section
/-! DEFINITION. One arm per command: the meaning of each row of the opcode table (30_encoding.md R84). -/

namespace Sys2Proof.Machine

def exec (i : Instr) (s : State) : Host.Outcome State Fault Refusal :=
  match i with
  | .construct k npfb l coefs => Sys2Proof.Machine.execConstruct k npfb l coefs s
  | .constructDesign ftype k m ebw npfb => Sys2Proof.Machine.execConstructDesign ftype k m ebw npfb s
  | .step x => Sys2Proof.Machine.execStep x s
  | .execute xs => Sys2Proof.Machine.execExecute xs s
  | .setBandwidth bt => Sys2Proof.Machine.execSetBandwidth bt s
  | .setOutputRate ko => Sys2Proof.Machine.execSetOutputRate ko s
  | .setRate rate => Sys2Proof.Machine.execSetRate rate s
  | .lock => Sys2Proof.Machine.execLock s
  | .unlock => Sys2Proof.Machine.execUnlock s
  | .getTau => Sys2Proof.Machine.execGetTau s
  | .readReg idx => Sys2Proof.Machine.execReadReg idx s
  | .reset => Sys2Proof.Machine.execReset s

end Sys2Proof.Machine
end

