-- ==== Sys2Proof/Machine/Step.lean ====
section
/-! DEFINITION. One step of the block: the next command of the command stream (20_memory.md R69). -/

namespace Sys2Proof.Machine

/-- One step. A whole command at the front of the command stream is consumed and executed; an illegal encoding is
consumed at its length and rejected with ILLEGAL_COMMAND (30_encoding.md R85); while words of the command are missing
the block waits and nothing changes (20_memory.md R64). An instance whose parameters the spec does not admit is
refused (00_scope.md R6, log 1). -/
def step (s : State) : Host.Outcome State Fault Refusal :=
  if s.cfg.legal = false then .refused .parametersNotAdmitted
  else
    match decode s.cfg s.input with
    | .command i n => exec i (s.consume n)
    | .illegal _ opc n => .next ((s.consume n).reject opc .illegalCommand)
    | .incomplete => .next s

/-- `s` with one instruction waiting in its command stream, its bits numbered from the least significant bit of its
first word: the host has sent exactly that instruction (20_memory.md R60, log 4). -/
def State.withFetchWord (s : State) (nbits w : Nat) : State := { s with input := tableWords s.cfg nbits w }

end Sys2Proof.Machine
end

