-- ==== Sys2Proof/Safety.lean ====
section
/-! DEFINITION. What the spec promises of every state between two commands (10_state.md R18, R41; 20_memory.md R61),
as decidable predicates, and the views of a state that statements compare. -/

namespace Sys2Proof.Machine

/-- The canonical form of a coefficient memory or history: exactly `n` entries, each of the given kind (log 9). Two
memories in this form that read the same at every index are equal lists. -/
def Memory.wf (kd : NumKind) (n : Nat) (mem : List Num) : Bool := mem.length == n && numsOfKind kd mem

/-- All four memories are in canonical form: H and DH have L entries, the histories H_LEN (10_state.md R36 to R38). -/
def State.memoriesWf (s : State) : Bool :=
  Memory.wf s.cfg.coefKind s.l.toNat s.h && Memory.wf s.cfg.coefKind s.l.toNat s.dh &&
    Memory.wf s.cfg.sampleKind s.hLen.toNat s.wMf && Memory.wf s.cfg.sampleKind s.hLen.toNat s.wDmf

/-- The prototype is finite and DH is the derivative of it (10_state.md R18, R37; 40_construction.md R110, R116). -/
def State.coefficientsWf (s : State) : Bool := s.h.all numFinite && s.dh == derivatives s.h s.l.toNat s.npfb

/-- R and DEL_NOM are what SET_OUTPUT_RATE computes from K and K_OUT, or what SET_RATE computes from an accepted rate
(10_state.md R24, R25). -/
def State.rateWf (s : State) : Bool :=
  (s.r == fdiv (f32 s.kOut.toNat) (f32 s.k.toNat) && s.delNom == fdiv (f32 s.k.toNat) (f32 s.kOut.toNat)) ||
    (rateInRange s.r && s.delNom == fdiv fone s.r)

/-- The configuration registers have legal values (10_state.md R18, R23). -/
def State.configWf (s : State) : Bool :=
  kInRange s.cfg s.k && npfbInRange s.cfg s.npfb && kOutInRange s.cfg s.kOut && decide (1 ≤ s.l.toNat) &&
    decide (s.l.toNat ≤ s.cfg.lMax) && s.hLen == branchLength s.l s.npfb

/-- The bandwidth registers have legal values, and ALPHA and BETA are what SET_BANDWIDTH computes from BT (10_state.md
R31). -/
def State.bandwidthWf (s : State) : Bool :=
  inUnitInterval s.bt && s.alpha == fsub fone s.bt && s.beta == fmul c022 s.bt

/-- A value of Q's legal range [-1, 1], which excludes NaN (10_state.md R18, R41 item 3). -/
def inErrorRange (v : Word) : Bool := fle fnegOne v && fle v fone

/-- The invariants of 10_state.md R41 that concern the loop registers: items 1, 3, 6 and 7. -/
def State.loopWf (s : State) : Bool :=
  decide (0 ≤ s.b.toInt) && inErrorRange s.q && decide (s.decim.toNat ≤ s.kOut.toNat) && s.qPrime == s.qHat

/-- FAULT_CAUSE holds a fault code while FAULTED and 0x00 otherwise (10_state.md R18, R34). -/
def State.faultWf (s : State) : Bool :=
  if s.faulted then s.faultCause == 0x10 || s.faultCause == 0x11 || s.faultCause == 0x12 else s.faultCause == 0

/-- The machine's invariant: legal parameters; the fault record consistent; and, once configured, legal configuration
and bandwidth registers, canonical memories with equal histories (10_state.md R39), and, while not faulted, the loop
invariants of R41. A block that is not configured is not faulted (R240). -/
def State.wf (s : State) : Bool :=
  s.cfg.legal && s.faultWf &&
    if s.configured then
      s.configWf && s.rateWf && s.bandwidthWf && s.memoriesWf && s.coefficientsWf && s.wMf == s.wDmf &&
        (s.faulted || s.loopWf)
    else !s.faulted

/-- A configured block that is not faulted: it accepts every command (43_configuration.md R179). -/
def State.ready (s : State) : Bool := s.configured && !s.faulted

/-- The state without the two word streams and the command position: what 10_state.md R18 lists. -/
def State.arch (s : State) : State := { s with input := [], pos := 0, output := [] }

/-- The same, without the model's own counter of free values too. -/
def State.registers (s : State) : State := { s with input := [], pos := 0, output := [], freeIndex := 0 }

/-- Nothing but the response stream differs, and that by words at its end. -/
def State.answered (s : State) (response : List Word) : State := { s with output := s.output ++ response }

/-- The two states have the same configuration: every register and memory that RESET keeps (43_configuration.md
R212). -/
def State.sameConfiguration (s t : State) : Prop :=
  s.cfg = t.cfg ∧ s.configured = t.configured ∧ s.k = t.k ∧ s.kOut = t.kOut ∧ s.npfb = t.npfb ∧ s.l = t.l ∧ s.hLen = t.hLen ∧ s.r = t.r ∧
    s.delNom = t.delNom ∧ s.bt = t.bt ∧ s.alpha = t.alpha ∧ s.beta = t.beta ∧ s.isLocked = t.isLocked ∧
    s.h = t.h ∧ s.dh = t.dh

/-- Commands executed one after another from the states they leave (20_memory.md R69). -/
def execAll : List Instr → State → Result
  | [], s => .next s
  | i :: is, s =>
    match exec i s with
    | .next s' => execAll is s'
    | .fault r => .fault r
    | .refused r => .refused r

/-- The payload that 30_encoding.md R95 gives a response with this OPC and STATUS, on an instance with this many words
per sample. -/
def payloadFramed (c : Config) (opc : Opcode) (status : Byte) (payload : List Word) : Prop :=
  if opc = .step ∨ opc = .execute then
    ∃ count samples, payload = count :: samples ∧ samples.length = count.toNat * c.sampleWords
  else if (opc = .getTau ∨ opc = .readReg) ∧ status = 0x00 then payload.length = 1
  else payload = []

/-- One response of 30_encoding.md R95 to a command with this opcode: header OPC, a status code of 60_exceptions.md
R215, a DETAIL that is zero outside CONFIG_ERROR and a code of R216 in it, and the payload. -/
def responseFramed (c : Config) (opc : Opcode) (ws : List Word) : Prop :=
  ∃ (status detail : Byte) (payload : List Word),
    ws = (opc.code ++ status ++ detail ++ (0 : Byte)) :: payload ∧
      status.toNat ∈ [0x00, 0x01, 0x02, 0x03, 0x04, 0x05, 0x10, 0x11, 0x12] ∧
      (if status = 0x01 then 0x10 ≤ detail.toNat ∧ detail.toNat ≤ 0x1A else detail = 0) ∧
      payloadFramed c opc status payload

/-- The word `r` is the binary32 value nearest to num/den units of 2^-149, a tie going to the even fraction; from half
a unit in the last place beyond the largest finite value on, it is an infinity (00_scope.md R10). The sign of `r` is
said apart. -/
def RoundsTo (num : Int) (den : Nat) (r : Word) : Prop :=
  if (2 ^ 25 - 1) * 2 ^ 253 * den ≤ 2 * num.natAbs then isinf r = true
  else
    isfinite r = true ∧
      ∀ v : Word, isfinite v = true →
        (fscaled r * den - num).natAbs ≤ (fscaled v * den - num).natAbs ∧
          ((fscaled r * den - num).natAbs = (fscaled v * den - num).natAbs → fscaled v ≠ fscaled r → ffrac r % 2 = 0)

/-- Everything a STEP or EXECUTE that ends in a runtime fault may change: the fault record, the eight unspecified loop
registers, the histories, the response stream, and the model's own counter (60_exceptions.md R226). -/
def State.faultFrame (s t : State) : Prop :=
  t = { s with
    faulted := t.faulted, faultCause := t.faultCause, tau := t.tau, bf := t.bf, b := t.b, del := t.del, decim := t.decim,
    q := t.q, qHat := t.qHat, qPrime := t.qPrime, wMf := t.wMf, wDmf := t.wDmf, output := t.output,
    freeIndex := t.freeIndex }

/-- `t` is what the detector TED computes from the two bank outputs (42_error_loop.md R161). -/
def detectorOutput (mf dmf : Num) (t : Word) : Prop :=
  (∃ u v, mf = .real u ∧ dmf = .real v ∧ t = fmul u v) ∨
    (∃ u u' v v', mf = .complex u u' ∧ dmf = .complex v v' ∧ t = fadd (fmul u v) (fmul u' v'))

/-- `s₁` is the state that step 2b leaves for step 2c, at any iteration that goes on with it (41_step.md R131, R143,
R149): no decimation boundary, a locked one under ERROR_ONLY, or an unlocked one with its error update
(42_error_loop.md R160 to R166). -/
def State.afterBoundary (s s₁ : State) : Prop :=
  (s.decim ≠ s.kOut ∧ s₁ = s) ∨
    (s.decim = s.kOut ∧ s.isLocked = true ∧ s.cfg.lockSkip = .errorOnly ∧ s₁ = { s with decim := 0 }) ∨
    (s.decim = s.kOut ∧ s.isLocked = false ∧
      ∃ t qHat : Word,
        detectorOutput (fbExecute s.cfg s.mf s.b.toNat) (fbExecute s.cfg s.dmf s.b.toNat) t ∧ isnan t = false ∧
          qHat = fadd (fmul (clip t) s.beta) (fmul s.qPrime s.alpha) ∧
          s₁ =
            { s with
              decim := 0
              q := clip t
              qHat := qHat
              qPrime := qHat
              del := fadd (fdiv (f32 s.k.toNat) (f32 s.kOut.toNat)) qHat })

/-- Everything a STEP or EXECUTE that completes or is rejected may change: the loop registers, the histories and the
response stream (41_step.md R130, R131, R150). -/
def State.streamFrame (s t : State) : Prop :=
  t = { s with
    tau := t.tau, bf := t.bf, b := t.b, del := t.del, decim := t.decim, q := t.q, qHat := t.qHat, qPrime := t.qPrime,
    wMf := t.wMf, wDmf := t.wDmf, output := t.output }

end Sys2Proof.Machine
end

