-- ==== Sys2Proof/Certificates/Slice0/Obligations.lean ====
section
/-! DEFINITION. The statements for the provers. Each docstring names the rules of spec/ it formalises; where a statement
rests on a choice of the model, the docstring names the log entry. -/

open Sys2Proof Sys2Proof.Machine

/-! ## Encoding -/

/-- 30_encoding.md R80, R81, R83: decoding what the encoder writes gives the command back, whatever follows it. -/
def Obligations.DecodeEncodeWellFormed : Prop :=
  ∀ (c : Config) (i : Instr) (rest : List Word), i.wellFormed c = true →
    decode c (encode i ++ rest) = .command i (encode i).length

/-- 30_encoding.md R80, R81, R82: a decoded command is well formed, and the words it was decoded from are its encoding. -/
def Obligations.DecodedCommandIsItsEncoding : Prop :=
  ∀ (c : Config) (ws : List Word) (i : Instr) (n : Nat), decode c ws = .command i n →
    i.wellFormed c = true ∧ (encode i).length = n ∧ ws = encode i ++ ws.drop n

/-- 30_encoding.md R85, R220: an OPC that is none of the twelve takes its header alone; a listed OPC with a nonzero RSV,
or a nonzero SUB outside READ_REG, is consumed at its own length; READ_REG of a reserved index is consumed. Each answers
ILLEGAL_COMMAND with the OPC echoed and changes nothing else, whatever the state. Every other whole frame is one of the
twelve commands. -/
def Obligations.IllegalEncodingsRejected : Prop :=
  ∀ (s : State) (h : Word) (ops : List Word), s.cfg.legal = true → s.input = h :: ops →
    (h.toNat / 2 ^ 24 ∉ [0x01, 0x02, 0x10, 0x11, 0x20, 0x21, 0x22, 0x30, 0x31, 0x40, 0x41, 0x50] →
      step s =
        .next { s with
          input := ops, pos := s.pos + 1, output := s.output ++ [(h &&& 0xFF000000#32) ||| 0x00020000#32] }) ∧
    (∀ (opc : Opcode) (n : Nat), opc.code.toNat = h.toNat / 2 ^ 24 → commandLength s.cfg h ops = some n → n ≤ ops.length + 1 →
      (if h.toNat % 2 ^ 16 ≠ 0 ∨ (h.toNat / 2 ^ 16 % 2 ^ 8 ≠ 0 ∧ opc ≠ .readReg) then
        step s =
          .next { s with
            input := s.input.drop n
            pos := s.pos + n
            output :=
              s.output ++ ((h &&& 0xFF000000#32) ||| 0x00020000#32) :: (if opc = .step ∨ opc = .execute then [0] else []) }
      else
        (∃ i, decode s.cfg s.input = .command i n ∧ i.opcode = opc) ∧
          (opc = .readReg → 0x14 ≤ h.toNat / 2 ^ 16 % 2 ^ 8 →
            step s = .next { s with input := ops, pos := s.pos + 1, output := s.output ++ [0x41020000] })))

/-- 30_encoding.md R83: the length of a command from its OPC and its count word, and from nothing else of its header. -/
def Obligations.CommandLengths : Prop :=
  ∀ (c : Config) (h : Word) (ops : List Word),
    (h.toNat / 2 ^ 24 = 0x01 → ∀ k npfb l rest, ops = k :: npfb :: l :: rest →
      commandLength c h ops = some (if l.toNat ≤ c.lMax then 4 + l.toNat * c.coefKind.words else 4)) ∧
    (h.toNat / 2 ^ 24 = 0x02 → commandLength c h ops = some 6) ∧
    (h.toNat / 2 ^ 24 = 0x10 → commandLength c h ops = some (1 + c.sampleKind.words)) ∧
    (h.toNat / 2 ^ 24 = 0x11 → ∀ n rest, ops = n :: rest →
      commandLength c h ops = some (2 + n.toNat * c.sampleKind.words)) ∧
    (h.toNat / 2 ^ 24 ∈ [0x20, 0x21, 0x22] → commandLength c h ops = some 2) ∧
    (h.toNat / 2 ^ 24 ∈ [0x30, 0x31, 0x40, 0x41, 0x50] → commandLength c h ops = some 1) ∧
    (h.toNat / 2 ^ 24 ∉ [0x01, 0x02, 0x10, 0x11, 0x20, 0x21, 0x22, 0x30, 0x31, 0x40, 0x41, 0x50] →
      commandLength c h ops = some 1)

/-- 30_encoding.md R98: a few words of the spec's examples decode to the commands they stand for. -/
def Obligations.SampleWordsDecode : Prop :=
  decode Config.suggested [0x10000000, 0x3F800000, 0xBF000000] = .command (.step (.complex 0x3F800000 0xBF000000)) 3 ∧
    decode Config.suggested [0x20000000, 0x3CA3D70A] = .command (.setBandwidth 0x3CA3D70A) 2 ∧
    decode Config.suggested [0x41030000] = .command (.readReg 0x03) 1 ∧
    decode Config.suggested [0x02000000, 1, 2, 3, 0x3EB33333, 0x20] = .command (.constructDesign 1 2 3 0x3EB33333 0x20) 6

/-- 20_memory.md R63, R64: on a byte transport each word travels least significant byte first, and the bytes of a word
that has not arrived whole are left. The transport stands beside the machine (log 17). -/
def Obligations.ByteTransportCarriesWords : Prop :=
  (∀ w : Word,
    bytesOfWord w = [w.extractLsb' 0 8, w.extractLsb' 8 8, w.extractLsb' 16 8, w.extractLsb' 24 8]) ∧
  (∀ (ws : List Word) (left : List Byte), left.length < 4 →
    wordsOfBytes (ws.flatMap bytesOfWord ++ left) = (ws, left))

/-! ## Steps, responses and rejections -/

/-- 10_state.md R17, 20_memory.md R69: a step consumes the words of the command at the front of the stream and executes
it; while that command is not whole nothing changes (20_memory.md R64, log 3). -/
def Obligations.StepRunsDecodedCommand : Prop :=
  ∀ s : State, s.cfg.legal = true →
    (∀ i n, decode s.cfg s.input = .command i n →
      step s = exec i { s with input := s.input.drop n, pos := s.pos + n }) ∧
    (decode s.cfg s.input = .incomplete → step s = .next s)

/-- The same for a command the host has sent encoded: the next word after it becomes the front of the stream (30_encoding.md
R83, 10_state.md R17). -/
def Obligations.StepRunsEncodedCommand : Prop :=
  ∀ (s : State) (i : Instr) (rest : List Word), s.cfg.legal = true → i.wellFormed s.cfg = true → s.input = encode i ++ rest →
    step s = exec i { s with input := rest, pos := s.pos + (encode i).length }

/-- 20_memory.md R64, 70_reset_and_hazards.md R251: a truncated command leaves the block waiting, and the words sent next
are taken as the rest of it. That the waiting step leaves words and position as they are is the model's choice (log 3: R65
lets a command be performed piecewise). -/
def Obligations.TruncatedCommandWaits : Prop :=
  ∀ (s : State) (i : Instr) (m : Nat), s.cfg.legal = true → i.wellFormed s.cfg = true → m < (encode i).length →
    s.input = (encode i).take m →
      step s = .next s ∧
        step (s.deliver ((encode i).drop m)) = exec i { s with input := [], pos := s.pos + (encode i).length }

/-- 60_exceptions.md R223, R226: a rejection and a runtime fault end the command and not the machine, so on an instance
with legal parameters every step goes on (an inference, log 12). An instance whose parameters 00_scope.md R6 does not
admit is refused (the model's choice, log 1). -/
def Obligations.LegalInstanceNeverStops : Prop :=
  ∀ s : State,
    (s.cfg.legal = true → ∃ t, step s = .next t) ∧ (s.cfg.legal = false → step s = .refused .parametersNotAdmitted)

/-- 20_memory.md R70, 30_encoding.md R95, 60_exceptions.md R215: every command sends exactly one response, framed by its
header alone, and consumes no words of the next command. -/
def Obligations.EveryCommandAnswersOnce : Prop :=
  ∀ (i : Instr) (s : State), s.wf = true → i.wellFormed s.cfg = true →
    ∃ (t : State) (ws : List Word), exec i s = .next t ∧ t.output = s.output ++ ws ∧ responseFramed s.cfg i.opcode ws ∧ t.input = s.input ∧
      t.pos = s.pos

/-- 60_exceptions.md R223: a command that answers with a rejecting status (INPUT_NONFINITE rejects a STEP only), an
illegal one included, has consumed its words and sent that one response, with a count of 0 after the OPC of STEP or
EXECUTE and no payload otherwise, and has changed nothing else. -/
def Obligations.RejectionChangesNothing : Prop :=
  ∀ (s t : State) (opc : Byte) (n : Nat) (h : Word) (payload : List Word), s.cfg.legal = true →
    ((∃ i, decode s.cfg s.input = .command i n ∧ i.opcode.code = opc) ∨ (∃ why, decode s.cfg s.input = .illegal why opc n)) →
    step s = .next t → t.output = s.output ++ h :: payload →
    (h.toNat / 2 ^ 16 % 2 ^ 8 ∈ [0x01, 0x02, 0x03, 0x04] ∨ (h.toNat / 2 ^ 16 % 2 ^ 8 = 0x05 ∧ opc = 0x10)) →
      t = { s with input := s.input.drop n, pos := s.pos + n, output := s.output ++ h :: payload } ∧
        payload = (if opc = 0x10 ∨ opc = 0x11 then [0] else [])

/-- 70_reset_and_hazards.md R240: at power-on the block is unconfigured and not faulted, at the first word of the command
stream. -/
def Obligations.PowerOnIsUnconfigured : Prop :=
  State.reset.configured = false ∧ State.reset.faulted = false ∧ State.reset.faultCause = 0x00 ∧ State.reset.pos = 0 ∧
    State.reset.output = [] ∧
    ∀ (i : Instr) (rest : List Word), decode State.reset.cfg (encode i ++ rest) = .command i (encode i).length →
      step (State.reset.deliver (encode i ++ rest)) =
        exec i { State.reset with input := (encode i ++ rest).drop (encode i).length, pos := (encode i).length }

/-- 60_exceptions.md R218: while unconfigured, every command but the constructions and READ_REG of STATUS and PARAMS is
rejected with NOT_CONFIGURED. -/
def Obligations.UnconfiguredRejects : Prop :=
  ∀ s : State, s.configured = false →
    (∀ x, exec (.step x) s = .next { s with output := s.output ++ [0x10030000, 0] }) ∧
    (∀ xs, exec (.execute xs) s = .next { s with output := s.output ++ [0x11030000, 0] }) ∧
    (∀ bt, exec (.setBandwidth bt) s = .next { s with output := s.output ++ [0x20030000] }) ∧
    (∀ ko, exec (.setOutputRate ko) s = .next { s with output := s.output ++ [0x21030000] }) ∧
    (∀ rate, exec (.setRate rate) s = .next { s with output := s.output ++ [0x22030000] }) ∧
    exec .lock s = .next { s with output := s.output ++ [0x30030000] } ∧
    exec .unlock s = .next { s with output := s.output ++ [0x31030000] } ∧
    exec .getTau s = .next { s with output := s.output ++ [0x40030000] } ∧
    exec .reset s = .next { s with output := s.output ++ [0x50030000] } ∧
    (∀ idx : Byte, idx.toNat < 0x14 → idx ≠ 0x11 → idx ≠ 0x12 →
      exec (.readReg idx) s = .next { s with output := s.output ++ [0x41030000] }) ∧
    exec (.readReg 0x11) s = .next { s with output := s.output ++ [0x41000000, statusWord s] } ∧
    exec (.readReg 0x12) s = .next { s with output := s.output ++ [0x41000000, paramsWord s.cfg] }

/-- 60_exceptions.md R219: while faulted, eight commands are rejected with FAULTED; READ_REG and RESET are accepted. -/
def Obligations.FaultedRejects : Prop :=
  ∀ s : State, s.configured = true → s.faulted = true →
    (∀ x, exec (.step x) s = .next { s with output := s.output ++ [0x10040000, 0] }) ∧
    (∀ xs, exec (.execute xs) s = .next { s with output := s.output ++ [0x11040000, 0] }) ∧
    (∀ bt, exec (.setBandwidth bt) s = .next { s with output := s.output ++ [0x20040000] }) ∧
    (∀ ko, exec (.setOutputRate ko) s = .next { s with output := s.output ++ [0x21040000] }) ∧
    (∀ rate, exec (.setRate rate) s = .next { s with output := s.output ++ [0x22040000] }) ∧
    exec .lock s = .next { s with output := s.output ++ [0x30040000] } ∧
    exec .unlock s = .next { s with output := s.output ++ [0x31040000] } ∧
    exec .getTau s = .next { s with output := s.output ++ [0x40040000] } ∧
    (∀ idx w, regWord s idx = some w →
      exec (.readReg idx) s = .next { s with output := s.output ++ [0x41000000, w] }) ∧
    (∃ t, exec .reset s = .next t ∧ t.faulted = false ∧ t.faultCause = 0x00 ∧ t.output = s.output ++ [0x50000000])

/-- 70_reset_and_hazards.md R240: nothing that is unspecified at power-on reaches a response or an installed instance:
two unconfigured states that may differ in everything unspecified answer the same, and a construction leaves the same
registers in both. -/
def Obligations.PowerOnValuesAreNeverRead : Prop :=
  ∀ (i : Instr) (s s' : State), s.configured = false → s'.configured = false → s.cfg = s'.cfg → s.faulted = s'.faulted →
    s.faultCause = s'.faultCause →
      ∃ (t t' : State) (ws : List Word), exec i s = .next t ∧ exec i s' = .next t' ∧ t.output = s.output ++ ws ∧ t'.output = s'.output ++ ws ∧
        t.configured = t'.configured ∧ (t.configured = true → t.registers = t'.registers)

/-- 41_step.md R150: an EXECUTE of no samples on a ready block succeeds with count 0 and changes nothing; an EXECUTE of
one sample is the STEP of that sample but for the OPC of its response, in every state. -/
def Obligations.SmallBatches : Prop :=
  ∀ s : State,
    (s.configured = true → s.faulted = false →
      exec (.execute []) s = .next { s with output := s.output ++ [0x11000000, 0] }) ∧
    (∀ x, s.cfg.maxBurst < 2 ^ 32 →
      ∃ (t : State) (h : Word) (payload : List Word), exec (.step x) s = .next t ∧ t.output = s.output ++ (h :: payload) ∧
        exec (.execute [x]) s = .next { t with output := s.output ++ (h + 0x01000000) :: payload })

/-! ## Construction -/

/-- 40_construction.md R110, R115, R117: an accepted CONSTRUCT writes the whole CON column of 10_state.md R18 and nothing
else, in any state. That it succeeds also where DH overflows, although R18 lists DH as finite, is an inference (log
15). -/
def Obligations.ConstructInstalls : Prop :=
  ∀ (k npfb l : Word) (coefs : List Sys2Proof.Num) (s : State), s.cfg.legal = true → 2 ≤ k.toNat → k.toNat ≤ s.cfg.kMax →
    1 ≤ npfb.toNat → npfb.toNat ≤ s.cfg.npfbMax → 1 ≤ l.toNat → l.toNat ≤ s.cfg.lMax → (∀ c ∈ coefs, numFinite c = true) →
      exec (.construct k npfb l coefs) s =
        .next { s with
          k := k, kOut := 1, npfb := npfb, l := l
          hLen := BitVec.ofNat 32 ((l.toNat - 1) / npfb.toNat)
          r := fdiv 0x3F800000 (f32 k.toNat), delNom := f32 k.toNat, del := f32 k.toNat
          tau := 0, bf := 0, b := 0, decim := 0, q := 0, qHat := 0, qPrime := 0
          bt := 0x3C23D70A, alpha := 0x3F7D70A4, beta := 0x3B102DE0
          isLocked := false, configured := true, faulted := false, faultCause := 0x00
          h := coefs
          dh := derivatives coefs l.toNat npfb
          wMf := List.replicate ((l.toNat - 1) / npfb.toNat) (zeroNum s.cfg.sampleKind)
          wDmf := List.replicate ((l.toNat - 1) / npfb.toNat) (zeroNum s.cfg.sampleKind)
          output := s.output ++ [0x01000000] }

/-- 40_construction.md R110, 60_exceptions.md R221: a CONSTRUCT that fails a check reports the first one in the rule's
order and changes nothing, in any state. -/
def Obligations.ConstructRejectsInOrder : Prop :=
  ∀ (k npfb l : Word) (coefs : List Sys2Proof.Num) (s : State),
    (s.cfg.lMax < l.toNat ∨ k.toNat < 2 ∨ s.cfg.kMax < k.toNat ∨ l.toNat = 0 ∨ npfb.toNat = 0 ∨ s.cfg.npfbMax < npfb.toNat ∨
      ∃ c ∈ coefs, numFinite c = false) →
      exec (.construct k npfb l coefs) s =
        .next { s with
          output :=
            s.output ++
              [if s.cfg.lMax < l.toNat then 0x01011200
                else if k.toNat < 2 ∨ s.cfg.kMax < k.toNat then 0x01011000
                else if l.toNat = 0 then 0x01011200
                else if npfb.toNat = 0 ∨ s.cfg.npfbMax < npfb.toNat then 0x01011100
                else 0x01011900] }

/-- 40_construction.md R120: an accepted CONSTRUCT_DESIGN is the CONSTRUCT of the designed prototype, of length
2·npfb·k·m + 1 and branch length 2·k·m. What DESIGN answers is a parameter (R121, log 8); that every finite answer of
that length is accepted, also where DH overflows, is an inference (log 15). -/
def Obligations.ConstructDesignDelegates : Prop :=
  ∀ (ftype k m ebw npfb : Word) (coefs : List Sys2Proof.Num) (s : State), s.cfg.legal = true → 2 ≤ k.toNat → k.toNat ≤ s.cfg.kMax →
    1 ≤ m.toNat → isnan ebw = false → 0 ≤ fscaled ebw → fscaled ebw ≤ 2 ^ 149 → 1 ≤ npfb.toNat → npfb.toNat ≤ s.cfg.npfbMax →
    ftypeAccepted s.cfg ftype = true → 2 * npfb.toNat * k.toNat * m.toNat + 1 ≤ s.cfg.lMax →
    designCoefs s.cfg ftype (k.toNat * npfb.toNat) m.toNat ebw = some coefs →
    coefs.length = 2 * npfb.toNat * k.toNat * m.toNat + 1 → (∀ c ∈ coefs, numFinite c = true) →
      ∃ t, exec (.construct k npfb (BitVec.ofNat 32 (2 * npfb.toNat * k.toNat * m.toNat + 1)) coefs) s = .next t ∧
        t.output = s.output ++ [0x01000000] ∧ t.hLen.toNat = 2 * k.toNat * m.toNat ∧
        exec (.constructDesign ftype k m ebw npfb) s = .next { t with output := s.output ++ [0x02000000] }

/-- 40_construction.md R120, 60_exceptions.md R221: a CONSTRUCT_DESIGN that fails a check reports the first one in the
rule's order and changes nothing, in any state. -/
def Obligations.ConstructDesignRejectsInOrder : Prop :=
  ∀ (ftype k m ebw npfb : Word) (s : State),
    (k.toNat < 2 ∨ s.cfg.kMax < k.toNat ∨ m.toNat = 0 ∨ isnan ebw = true ∨ fscaled ebw < 0 ∨ 2 ^ 149 < fscaled ebw ∨
      npfb.toNat = 0 ∨ s.cfg.npfbMax < npfb.toNat ∨ ftypeAccepted s.cfg ftype = false ∨
      s.cfg.lMax < 2 * npfb.toNat * k.toNat * m.toNat + 1 ∨
      designCoefs s.cfg ftype (k.toNat * npfb.toNat) m.toNat ebw = none ∨
      ∃ coefs, designCoefs s.cfg ftype (k.toNat * npfb.toNat) m.toNat ebw = some coefs ∧
        (coefs.length ≠ 2 * npfb.toNat * k.toNat * m.toNat + 1 ∨ ∃ c ∈ coefs, numFinite c = false)) →
      exec (.constructDesign ftype k m ebw npfb) s =
        .next { s with
          output :=
            s.output ++
              [if k.toNat < 2 ∨ s.cfg.kMax < k.toNat then 0x02011000
                else if m.toNat = 0 then 0x02011600
                else if isnan ebw = true ∨ fscaled ebw < 0 ∨ 2 ^ 149 < fscaled ebw then 0x02011700
                else if npfb.toNat = 0 ∨ s.cfg.npfbMax < npfb.toNat then 0x02011100
                else if ftypeAccepted s.cfg ftype = false then 0x02011800
                else if s.cfg.lMax < 2 * npfb.toNat * k.toNat * m.toNat + 1 then 0x02011200
                else if (designCoefs s.cfg ftype (k.toNat * npfb.toNat) m.toNat ebw).map List.length =
                    some (2 * npfb.toNat * k.toNat * m.toNat + 1) then 0x02011900
                else 0x02011A00] }

/-- 40_construction.md R116: the derivative coefficients are centred differences, indices modulo L, times npfb/16; a
prototype of one finite tap has the derivative +0.0 (R110). -/
def Obligations.DerivativeCoefficients : Prop :=
  (∀ (p : List Sys2Proof.Num) (npfb : Word), (derivatives p p.length npfb).length = p.length) ∧
  (∀ (p : List Sys2Proof.Num) (npfb : Word) (i : Nat) (a b : Word), i < p.length →
    p[(i + 1) % p.length]? = some (.real a) →
    p[(i + p.length - 1) % p.length]? = some (.real b) →
      (derivatives p p.length npfb)[i]? = some (.real (fmul (fsub a b) (fdiv (f32 npfb.toNat) 0x41800000)))) ∧
  (∀ (p : List Sys2Proof.Num) (npfb : Word) (i : Nat) (a a' b b' : Word), i < p.length →
    p[(i + 1) % p.length]? = some (.complex a a') →
    p[(i + p.length - 1) % p.length]? = some (.complex b b') →
      (derivatives p p.length npfb)[i]? =
        some (.complex (fmul (fsub a b) (fdiv (f32 npfb.toNat) 0x41800000))
          (fmul (fsub a' b') (fdiv (f32 npfb.toNat) 0x41800000)))) ∧
  (∀ (a npfb : Word), isfinite a = true → 1 ≤ npfb.toNat → npfb.toNat ≤ 2 ^ 24 → derivatives [.real a] 1 npfb = [.real 0])

/-- 70_reset_and_hazards.md R241, 20_memory.md R66: what a construction leaves does not depend on the state before it,
and neither does its response. -/
def Obligations.ConstructForgetsThePast : Prop :=
  ∀ (i : Instr) (s s' : State), (i.opcode = .construct ∨ i.opcode = .constructDesign) → s.cfg = s'.cfg →
    ∃ (t t' : State) (h : Word), exec i s = .next t ∧ exec i s' = .next t' ∧ t.output = s.output ++ [h] ∧ t'.output = s'.output ++ [h] ∧
      (h.toNat / 2 ^ 16 % 2 ^ 8 = 0x00 → t.registers = t'.registers ∧ t.configured = true)

/-! ## STEP -/

/-- 41_step.md R148, 00_scope.md R11: the default filter bank. A push puts the sample first and drops the oldest; a
branch sums its taps from the zero sample in the order of the history, tap j of branch b being coefficient j·NPFB + b;
sums, products and the zero sample are those of R148 and R11 for each pair of kinds. -/
def Obligations.DefaultFilterBank : Prop :=
  (zeroNum .real = .real 0 ∧ zeroNum .complex = .complex 0 0) ∧
  (∀ a b a' b' : Word,
    sadd (.real a) (.real b) = .real (fadd a b) ∧
    sadd (.complex a a') (.complex b b') = .complex (fadd a b) (fadd a' b') ∧
    smul (.real a) (.real b) = .real (fmul a b) ∧
    smul (.real a) (.complex b b') = .complex (fmul a b) (fmul a b') ∧
    smul (.complex a a') (.complex b b') =
      .complex (fsub (fmul a b) (fmul a' b')) (fadd (fmul a b') (fmul a' b))) ∧
  (∀ (c : Config) (coef hist : List Sys2Proof.Num) (npfb n b : Nat) (x : Sys2Proof.Num), c.fb = .polyphase →
    (fbClear c ⟨coef, npfb, n, hist⟩).hist = List.replicate n (zeroNum c.sampleKind) ∧
    (∀ m, hist.length = m + 1 → n = m + 1 → (fbPush c ⟨coef, npfb, n, hist⟩ x).hist = x :: hist.dropLast) ∧
    (n = 0 → (fbPush c ⟨coef, npfb, n, hist⟩ x).hist = []) ∧
    fbExecute c ⟨coef, npfb, 0, hist⟩ b = zeroNum c.sampleKind ∧
    (∀ a y, coef[n * npfb + b]? = some a → hist[n]? = some y →
      fbExecute c ⟨coef, npfb, n + 1, hist⟩ b = sadd (fbExecute c ⟨coef, npfb, n, hist⟩ b) (smul a y)))

/-- 41_step.md R130, R131, R141, R145, 60_exceptions.md R226: a STEP of a finite sample on a ready block pushes the sample
into both banks and runs the output loop with room for MAX_BURST samples; it answers OK with the burst of a loop that
completes, and with the fault of one that does not. Every pass of the loop test ends the loop with the correction
where B ≥ NPFB, faults where B < 0, and faults with BURST_OVERFLOW where a sample is due and no room is left. A sample
emitted before the rest of a burst stands in front of it. -/
def Obligations.StepRunsTheLoop : Prop :=
  (∀ (s : State) (x : Sys2Proof.Num), s.configured = true → s.faulted = false → numFinite x = true →
    (∀ t ys,
      outputLoop s.cfg.maxBurst
          { s with wMf := (fbPush s.cfg s.mf x).hist, wDmf := (fbPush s.cfg s.dmf x).hist } =
        .completed t ys →
      exec (.step x) s =
        .next { t with
          output := s.output ++ 0x10000000 :: BitVec.ofNat 32 ys.length :: ys.flatMap Sys2Proof.Num.words }) ∧
    (∀ c t ys,
      outputLoop s.cfg.maxBurst
          { s with wMf := (fbPush s.cfg s.mf x).hist, wDmf := (fbPush s.cfg s.dmf x).hist } =
        .raised c t ys →
      ∃ u, exec (.step x) s = .next u ∧ u.faulted = true ∧ u.faultCause = faultCode c ∧
        u.output =
          s.output ++
            ((0x10 : Byte) ++ faultCode c ++ (0 : BitVec 16)) :: BitVec.ofNat 32 ys.length ::
              ys.flatMap Sys2Proof.Num.words)) ∧
  (∀ (room : Nat) (s : State),
    ((s.npfb.toNat : Int) ≤ s.b.toInt →
      outputLoop room s =
        .completed { s with tau := fsub s.tau 0x3F800000, bf := fsub s.bf (f32 s.npfb.toNat), b := s.b - s.npfb } []) ∧
    (s.b.toInt < 0 → outputLoop room s = .raised .branchRange s []) ∧
    (0 ≤ s.b.toInt → s.b.toInt < s.npfb.toNat → outputLoop 0 s = .raised .burstOverflow s [])) ∧
  (∀ (y : Sys2Proof.Num) (t : State) (ys : List Sys2Proof.Num) (c : FaultCause),
    Burst.emit y (.completed t ys) = .completed t (y :: ys) ∧ Burst.emit y (.raised c t ys) = .raised c t (y :: ys)) ∧
  (faultCode .burstOverflow = 0x10 ∧ faultCode .branchRange = 0x11 ∧ faultCode .numeric = 0x12)

/-- 41_step.md R141, R145, R146: a STEP that finds B ≥ NPFB pushes its sample, emits nothing and removes one unit of
phase; the subtraction from B is exact. -/
def Obligations.StepWithoutOutput : Prop :=
  ∀ (s : State) (x : Sys2Proof.Num), s.configured = true → s.faulted = false → numFinite x = true → (s.npfb.toNat : Int) ≤ s.b.toInt →
    exec (.step x) s =
      .next { s with
        wMf := (fbPush s.cfg s.mf x).hist, wDmf := (fbPush s.cfg s.dmf x).hist
        tau := fsub s.tau 0x3F800000, bf := fsub s.bf (f32 s.npfb.toNat), b := s.b - s.npfb
        output := s.output ++ [0x10000000, 0] } ∧
    (s.b - s.npfb).toInt = s.b.toInt - s.npfb.toNat

/-- 41_step.md R142 to R146, R149: an iteration without an error update, at any place in a burst: no decimation
boundary, or a boundary while locked under ERROR_ONLY. It emits the matched-filter output divided by K, component by
component (00_scope.md R11), counts it, advances the phase and goes back to the loop test with the new branch. Where
the first advance of a STEP already reaches NPFB, the STEP emits that one sample and ends with the correction. -/
def Obligations.StepOneOutput : Prop :=
  (∀ v v' d : Word, sdiv (.real v) d = .real (fdiv v d) ∧ sdiv (.complex v v') d = .complex (fdiv v d) (fdiv v' d)) ∧
  (∀ (room : Nat) (s : State) (mf : Sys2Proof.Num) (tau bf decim : Word), 0 ≤ s.b.toInt → s.b.toInt < s.npfb.toNat →
    ((s.decim ≠ s.kOut ∧ decim = s.decim + 1) ∨
      (s.decim = s.kOut ∧ s.isLocked = true ∧ s.cfg.lockSkip = .errorOnly ∧ decim = 1)) →
    mf = fbExecute s.cfg s.mf s.b.toNat → tau = fadd s.tau s.del → bf = fmul tau (f32 s.npfb.toNat) →
    isfinite bf = true → -2 ^ 31 ≤ roundHA bf → roundHA bf ≤ 2 ^ 31 - 1 →
      outputLoop (room + 1) s =
        (outputLoop room { s with decim := decim, tau := tau, bf := bf, b := BitVec.ofInt 32 (roundHA bf) }).emit
          (sdiv mf (f32 s.k.toNat))) ∧
  (∀ (s : State) (x mf : Sys2Proof.Num) (tau bf decim : Word), s.configured = true → s.faulted = false → numFinite x = true →
    1 ≤ s.cfg.maxBurst → 0 ≤ s.b.toInt → s.b.toInt < s.npfb.toNat →
    ((s.decim ≠ s.kOut ∧ decim = s.decim + 1) ∨
      (s.decim = s.kOut ∧ s.isLocked = true ∧ s.cfg.lockSkip = .errorOnly ∧ decim = 1)) →
    mf = fbExecute s.cfg (fbPush s.cfg s.mf x) s.b.toNat → tau = fadd s.tau s.del → bf = fmul tau (f32 s.npfb.toNat) →
    isfinite bf = true → (s.npfb.toNat : Int) ≤ roundHA bf → roundHA bf ≤ 2 ^ 31 - 1 →
      exec (.step x) s =
        .next { s with
          wMf := (fbPush s.cfg s.mf x).hist, wDmf := (fbPush s.cfg s.dmf x).hist
          decim := decim, tau := fsub tau 0x3F800000, bf := fsub bf (f32 s.npfb.toNat)
          b := BitVec.ofInt 32 (roundHA bf - s.npfb.toNat)
          output := s.output ++ 0x10000000 :: 1 :: (sdiv mf (f32 s.k.toNat)).words })

/-- 41_step.md R143, 42_error_loop.md R160, R161, R163 to R166: an iteration at an unlocked decimation boundary, at any
place in a burst: the detector on the unscaled outputs of one branch, the clip, the smoothing, and a step that acts on
the very advance that follows; then back to the loop test with the new branch. Where the first advance of a STEP
already reaches NPFB, the STEP emits that one sample and ends with the correction. -/
def Obligations.StepErrorUpdate : Prop :=
  (∀ (room : Nat) (s : State) (mf dmf : Sys2Proof.Num) (t q qHat del tau bf : Word), 0 ≤ s.b.toInt → s.b.toInt < s.npfb.toNat →
    s.decim = s.kOut → s.isLocked = false → mf = fbExecute s.cfg s.mf s.b.toNat → dmf = fbExecute s.cfg s.dmf s.b.toNat →
    detectorOutput mf dmf t → isnan t = false → q = clip t → qHat = fadd (fmul q s.beta) (fmul s.qPrime s.alpha) →
    del = fadd (fdiv (f32 s.k.toNat) (f32 s.kOut.toNat)) qHat → tau = fadd s.tau del → bf = fmul tau (f32 s.npfb.toNat) →
    isfinite bf = true → -2 ^ 31 ≤ roundHA bf → roundHA bf ≤ 2 ^ 31 - 1 →
      outputLoop (room + 1) s =
        (outputLoop room
          { s with
            decim := 1, q := q, qHat := qHat, qPrime := qHat, del := del, tau := tau, bf := bf
            b := BitVec.ofInt 32 (roundHA bf) }).emit (sdiv mf (f32 s.k.toNat))) ∧
  (∀ (s : State) (x mf dmf : Sys2Proof.Num) (t q qHat del tau bf : Word), s.configured = true → s.faulted = false → numFinite x = true →
    1 ≤ s.cfg.maxBurst → 0 ≤ s.b.toInt → s.b.toInt < s.npfb.toNat → s.decim = s.kOut → s.isLocked = false →
    mf = fbExecute s.cfg (fbPush s.cfg s.mf x) s.b.toNat → dmf = fbExecute s.cfg (fbPush s.cfg s.dmf x) s.b.toNat →
    detectorOutput mf dmf t →
    isnan t = false → q = clip t → qHat = fadd (fmul q s.beta) (fmul s.qPrime s.alpha) →
    del = fadd (fdiv (f32 s.k.toNat) (f32 s.kOut.toNat)) qHat → tau = fadd s.tau del → bf = fmul tau (f32 s.npfb.toNat) →
    isfinite bf = true → (s.npfb.toNat : Int) ≤ roundHA bf → roundHA bf ≤ 2 ^ 31 - 1 →
      exec (.step x) s =
        .next { s with
          wMf := (fbPush s.cfg s.mf x).hist, wDmf := (fbPush s.cfg s.dmf x).hist
          decim := 1, q := q, qHat := qHat, qPrime := qHat, del := del
          tau := fsub tau 0x3F800000, bf := fsub bf (f32 s.npfb.toNat)
          b := BitVec.ofInt 32 (roundHA bf - s.npfb.toNat)
          output := s.output ++ 0x10000000 :: 1 :: (sdiv mf (f32 s.k.toNat)).words })

/-- 42_error_loop.md R167, 10_state.md R41 item 5: while locked, no STEP and no EXECUTE that ends without a fault changes
Q, Q_HAT, Q_PRIME or DEL. -/
def Obligations.LockedLoopIsFrozen : Prop :=
  ∀ (s t : State) (i : Instr), (i.opcode = .step ∨ i.opcode = .execute) → s.isLocked = true → exec i s = .next t →
    t.faulted = false → t.q = s.q ∧ t.qHat = s.qHat ∧ t.qPrime = s.qPrime ∧ t.del = s.del

/-- 41_step.md R149: under REST_OF_ITERATION a locked decimation boundary, at any place in a burst, emits its sample and
goes back to the loop test with the counter at 0 and nothing else changed; so a STEP that meets one first emits that
sample twice, and only its second iteration advances the phase. -/
def Obligations.LockedBoundaryDuplicates : Prop :=
  (∀ (room : Nat) (s : State), 0 ≤ s.b.toInt → s.b.toInt < s.npfb.toNat → s.decim = s.kOut → s.isLocked = true →
    s.cfg.lockSkip = .restOfIteration →
      outputLoop (room + 1) s =
        (outputLoop room { s with decim := 0 }).emit (sdiv (fbExecute s.cfg s.mf s.b.toNat) (f32 s.k.toNat))) ∧
  (∀ (s : State) (x mf : Sys2Proof.Num) (tau bf : Word), s.configured = true → s.faulted = false → numFinite x = true →
    2 ≤ s.cfg.maxBurst → 0 ≤ s.b.toInt → s.b.toInt < s.npfb.toNat → 1 ≤ s.kOut.toNat → s.decim = s.kOut → s.isLocked = true →
    s.cfg.lockSkip = .restOfIteration → mf = fbExecute s.cfg (fbPush s.cfg s.mf x) s.b.toNat → tau = fadd s.tau s.del →
    bf = fmul tau (f32 s.npfb.toNat) → isfinite bf = true → (s.npfb.toNat : Int) ≤ roundHA bf → roundHA bf ≤ 2 ^ 31 - 1 →
      exec (.step x) s =
        .next { s with
          wMf := (fbPush s.cfg s.mf x).hist, wDmf := (fbPush s.cfg s.dmf x).hist
          decim := 1, tau := fsub tau 0x3F800000, bf := fsub bf (f32 s.npfb.toNat)
          b := BitVec.ofInt 32 (roundHA bf - s.npfb.toNat)
          output :=
            s.output ++ 0x10000000 :: 2 :: ((sdiv mf (f32 s.k.toNat)).words ++ (sdiv mf (f32 s.k.toNat)).words) })

/-- 41_step.md R140, 60_exceptions.md R226, 10_state.md R39: every accepted STEP, faulting or not, has pushed its sample
into both histories once and changed them in no other way; equal histories stay equal. -/
def Obligations.StepPushesSample : Prop :=
  ∀ (s : State) (x : Sys2Proof.Num), s.configured = true → s.faulted = false → numFinite x = true →
    ∃ t, exec (.step x) s = .next t ∧ t.wMf = (fbPush s.cfg s.mf x).hist ∧ t.wDmf = (fbPush s.cfg s.dmf x).hist ∧
      (s.wMf = s.wDmf → t.wMf = t.wDmf)

/-- 70_reset_and_hazards.md R248, R250, 41_step.md R130, R146: every STEP ends, with at most MAX_BURST samples, all of
them delivered; and a STEP that answers OK emitted none exactly when it found B ≥ NPFB. -/
def Obligations.BurstIsBounded : Prop :=
  ∀ (s : State) (x : Sys2Proof.Num), s.configured = true → s.faulted = false → numFinite x = true →
    ∃ (t : State) (h : Word) (ys : List Sys2Proof.Num), exec (.step x) s = .next t ∧ ys.length ≤ s.cfg.maxBurst ∧
      t.output = s.output ++ h :: BitVec.ofNat 32 ys.length :: ys.flatMap Sys2Proof.Num.words ∧
      (h = 0x10000000 → (ys = [] ↔ (s.npfb.toNat : Int) ≤ s.b.toInt))

/-- 60_exceptions.md R226, R223, 41_step.md R130, R131, R150: what a STEP or EXECUTE changes. One that ends in a runtime fault records
its cause, delivers the samples it emitted, and changes nothing but the fault record, the unspecified loop registers,
the histories and the response stream (besides the model's own counter of free values, log 5). Every other one,
completed or rejected, changes nothing but the loop registers, the histories and the response stream. -/
def Obligations.FaultEntryKeepsConfiguration : Prop :=
  ∀ (i : Instr) (s : State), (i.opcode = .step ∨ i.opcode = .execute) →
    ∃ t, exec i s = .next t ∧ (s.faulted = true → t.faulted = true) ∧
      (t.faulted = s.faulted → s.streamFrame t) ∧
      (s.faulted = false → t.faulted = true →
        s.faultFrame t ∧ t.faultCause.toNat ∈ [0x10, 0x11, 0x12] ∧
          ∃ ys : List Sys2Proof.Num,
            t.output =
              s.output ++
                (i.opcode.code ++ t.faultCause ++ (0 : BitVec 16)) :: BitVec.ofNat 32 ys.length ::
                  ys.flatMap Sys2Proof.Num.words)

/-- 41_step.md R141, R144: the two ways into BRANCH_RANGE, at any place in a burst: a negative branch index at the loop
test, before the iteration's sample, and a phase advance whose branch index is no s32, after it; with or without a
decimation boundary and its error update in that iteration. A STEP that faults so in its first iteration answers with
the fault and delivers no sample, or that one sample. -/
def Obligations.BranchRangeFaults : Prop :=
  (∀ (room : Nat) (s : State), s.b.toInt < 0 → outputLoop room s = .raised .branchRange s []) ∧
  (∀ (room : Nat) (s s₁ : State) (tau bf : Word), 0 ≤ s.b.toInt → s.b.toInt < s.npfb.toNat → s.afterBoundary s₁ →
    tau = fadd s₁.tau s₁.del → bf = fmul tau (f32 s₁.npfb.toNat) →
    (isfinite bf = false ∨ roundHA bf < -2 ^ 31 ∨ 2 ^ 31 - 1 < roundHA bf) →
      outputLoop (room + 1) s =
        .raised .branchRange { s₁ with decim := s₁.decim + 1, tau := tau, bf := bf }
          [sdiv (fbExecute s.cfg s.mf s.b.toNat) (f32 s.k.toNat)]) ∧
  (∀ (s : State) (x : Sys2Proof.Num), s.configured = true → s.faulted = false → numFinite x = true →
    (s.b.toInt < 0 →
      ∃ t, exec (.step x) s = .next t ∧ t.faulted = true ∧ t.faultCause = 0x11 ∧ t.output = s.output ++ [0x10110000, 0]) ∧
    (∀ (s₁ : State) (bf : Word), 0 ≤ s.b.toInt → s.b.toInt < s.npfb.toNat → 1 ≤ s.cfg.maxBurst →
      State.afterBoundary { s with wMf := (fbPush s.cfg s.mf x).hist, wDmf := (fbPush s.cfg s.dmf x).hist } s₁ →
      bf = fmul (fadd s₁.tau s₁.del) (f32 s.npfb.toNat) →
      (isfinite bf = false ∨ roundHA bf < -2 ^ 31 ∨ 2 ^ 31 - 1 < roundHA bf) →
      ∃ t, exec (.step x) s = .next t ∧ t.faulted = true ∧ t.faultCause = 0x11 ∧
        t.output =
          s.output ++ 0x10110000 :: 1 ::
            (sdiv (fbExecute s.cfg (fbPush s.cfg s.mf x) s.b.toNat) (f32 s.k.toNat)).words))

/-- 70_reset_and_hazards.md R248 items 1 and 2, 41_step.md R141: a loop whose phase does not move emits MAX_BURST samples
and then faults with BURST_OVERFLOW. -/
def Obligations.StagnationOverflowsBurst : Prop :=
  ∀ (s : State) (x : Sys2Proof.Num), s.cfg.legal = true → s.configured = true → s.faulted = false → numFinite x = true →
    s.isLocked = true → s.cfg.lockSkip = .errorOnly → fadd s.tau s.del = s.tau → isfinite (fmul s.tau (f32 s.npfb.toNat)) = true →
    s.b.toInt = roundHA (fmul s.tau (f32 s.npfb.toNat)) → 0 ≤ s.b.toInt → s.b.toInt < s.npfb.toNat →
      ∃ t, exec (.step x) s = .next t ∧ t.faulted = true ∧ t.faultCause = 0x10 ∧
        t.output =
          s.output ++ 0x10100000 :: BitVec.ofNat 32 s.cfg.maxBurst ::
            (List.replicate s.cfg.maxBurst
              (sdiv (fbExecute s.cfg (fbPush s.cfg s.mf x) s.b.toNat) (f32 s.k.toNat))).flatMap Sys2Proof.Num.words

/-- 42_error_loop.md R161, R162: a NaN from the detector, at any place in a burst, is the fault NUMERIC, raised before Q,
Q_HAT, Q_PRIME or DEL is written; the sample of that iteration is delivered. -/
def Obligations.NanDetectorFaults : Prop :=
  (∀ (room : Nat) (s : State) (t : Word), 0 ≤ s.b.toInt → s.b.toInt < s.npfb.toNat → s.decim = s.kOut → s.isLocked = false →
    detectorOutput (fbExecute s.cfg s.mf s.b.toNat) (fbExecute s.cfg s.dmf s.b.toNat) t → isnan t = true →
      outputLoop (room + 1) s =
        .raised .numeric { s with decim := 0 } [sdiv (fbExecute s.cfg s.mf s.b.toNat) (f32 s.k.toNat)]) ∧
  (∀ (s : State) (x mf dmf : Sys2Proof.Num) (t : Word), s.configured = true → s.faulted = false → numFinite x = true →
    1 ≤ s.cfg.maxBurst → 0 ≤ s.b.toInt → s.b.toInt < s.npfb.toNat → s.decim = s.kOut → s.isLocked = false →
    mf = fbExecute s.cfg (fbPush s.cfg s.mf x) s.b.toNat → dmf = fbExecute s.cfg (fbPush s.cfg s.dmf x) s.b.toNat →
    detectorOutput mf dmf t → isnan t = true →
      ∃ u, exec (.step x) s = .next u ∧ u.faulted = true ∧ u.faultCause = 0x12 ∧
        u.output = s.output ++ 0x10120000 :: 1 :: (sdiv mf (f32 s.k.toNat)).words)

/-- 41_step.md R139: a STEP whose sample has a NaN or infinite component changes nothing. -/
def Obligations.NonfiniteSampleRejected : Prop :=
  ∀ (s : State) (re im : Word), s.configured = true → s.faulted = false →
    (fexp re = 255 → exec (.step (.real re)) s = .next { s with output := s.output ++ [0x10050000, 0] }) ∧
    (fexp re = 255 ∨ fexp im = 255 →
      exec (.step (.complex re im)) s = .next { s with output := s.output ++ [0x10050000, 0] })

/-- 41_step.md R147: the rate law for k = 2 and k_out = 1, that is DEL = 2.0, without error feedback: from the phase that
construction or RESET leaves, a locked block emits exactly one sample for every two it takes, however many, and is back
at that phase. -/
def Obligations.LockedHalfRate : Prop :=
  ∀ (s : State) (xs : List Sys2Proof.Num) (m : Nat), s.cfg.legal = true → s.cfg.lockSkip = .errorOnly → s.configured = true → s.faulted = false →
    s.isLocked = true → 1 ≤ s.npfb.toNat → s.npfb.toNat ≤ s.cfg.npfbMax → s.del = 0x40000000 → s.tau = 0 → s.bf = 0 → s.b = 0 →
    (∀ x ∈ xs, numFinite x = true) → xs.length = 2 * m → xs.length < 2 ^ 32 →
      ∃ (t : State) (ys : List Sys2Proof.Num), exec (.execute xs) s = .next t ∧ ys.length = m ∧
        t.output = s.output ++ 0x11000000 :: BitVec.ofNat 32 m :: ys.flatMap Sys2Proof.Num.words ∧
        t.faulted = false ∧ t.tau = 0 ∧ t.bf = 0 ∧ t.b = 0 ∧ t.del = s.del

/-! ## EXECUTE -/

/-- 41_step.md R150, 30_encoding.md R97: an EXECUTE of finite samples leaves the state that the STEPs of its samples
leave, and its one response carries the samples of theirs in order, faults and rejections included. Its status is
NOT_CONFIGURED or FAULTED where it is rejected; else that of the first STEP that did not answer OK, and OK where there
is none. -/
def Obligations.ExecuteEqualsSteps : Prop :=
  ∀ (s : State) (xs : List Sys2Proof.Num), (∀ x ∈ xs, numFinite x = true) → xs.length * s.cfg.maxBurst < 2 ^ 32 →
    ∃ (t u : State) (h : Word) (bursts : List (Word × List Sys2Proof.Num)),
      execAll (xs.map .step) s = .next t ∧ exec (.execute xs) s = .next u ∧ t.arch = u.arch ∧ bursts.length = xs.length ∧
        t.output =
          s.output ++
            bursts.flatMap
              (fun burst => burst.1 :: BitVec.ofNat 32 burst.2.length :: burst.2.flatMap Sys2Proof.Num.words) ∧
        u.output =
          s.output ++ h :: BitVec.ofNat 32 (bursts.flatMap Prod.snd).length ::
            (bursts.flatMap Prod.snd).flatMap Sys2Proof.Num.words ∧
        h =
          (if s.configured = false then 0x11030000
            else if s.faulted = true then 0x11040000
            else
              match bursts.find? (fun burst => burst.1 != 0x10000000) with
              | some burst => burst.1 + 0x01000000
              | none => 0x11000000)

/-- 41_step.md R150, 60_exceptions.md R224: the first non-finite sample ends an EXECUTE after the samples before it have
had their full effect; no later sample is processed and the block stays usable. -/
def Obligations.ExecuteStopsAtNonFinite : Prop :=
  ∀ (s : State) (front later : List Sys2Proof.Num) (x : Sys2Proof.Num), s.configured = true → s.faulted = false →
    (∀ y ∈ front, numFinite y = true) → numFinite x = false →
      ∃ (t : State) (h : Word) (payload : List Word), exec (.execute front) s = .next t ∧ t.output = s.output ++ (h :: payload) ∧
        (t.faulted = false →
          exec (.execute (front ++ x :: later)) s = .next { t with output := s.output ++ 0x11050000 :: payload }) ∧
        (t.faulted = true → exec (.execute (front ++ x :: later)) s = .next t)

/-! ## Arithmetic -/

/-- 00_scope.md R10: addition of finite values rounds the exact sum once, to nearest, ties to even; its sign is that of
the exact sum, and an exact zero is -0.0 only for two negative zeros. Subtraction adds the negated operand. An infinite
operand that meets no infinity of opposite effect is the result (IEEE 754's, log 11). -/
def Obligations.AdditionRoundsToNearest : Prop :=
  (∀ a b : Word, isfinite a = true → isfinite b = true →
    RoundsTo (fscaled a + fscaled b) 1 (fadd a b) ∧
      fsign (fadd a b) =
        (if fscaled a + fscaled b = 0 then fsign a && fsign b else decide (fscaled a + fscaled b < 0)) ∧
      RoundsTo (fscaled a - fscaled b) 1 (fsub a b) ∧
      fsign (fsub a b) =
        (if fscaled a - fscaled b = 0 then fsign a && !fsign b else decide (fscaled a - fscaled b < 0))) ∧
  (∀ a b : Word, isinf a = true →
    (isfinite b = true → fadd a b = a ∧ fadd b a = a ∧ fsub a b = a ∧ isinf (fsub b a) = true ∧
      fsign (fsub b a) = !fsign a) ∧
    (isinf b = true → (fsign a = fsign b → fadd a b = a) ∧ (fsign a ≠ fsign b → fsub a b = a)))

/-- 00_scope.md R10: multiplication of finite values rounds the exact product once, to nearest, ties to even, with the
product of the signs. An infinity times anything but a zero or a NaN is the infinity of that sign (IEEE 754's, log
11). -/
def Obligations.MultiplicationRoundsToNearest : Prop :=
  (∀ a b : Word, isfinite a = true → isfinite b = true →
    RoundsTo (fscaled a * fscaled b) (2 ^ 149) (fmul a b) ∧ fsign (fmul a b) = (fsign a != fsign b)) ∧
  (∀ a b : Word, isinf a = true → isnan b = false → fmag b ≠ 0 →
    isinf (fmul a b) = true ∧ fsign (fmul a b) = (fsign a != fsign b) ∧ fmul b a = fmul a b)

/-- 00_scope.md R10: division of finite values by a nonzero one rounds the exact quotient once, to nearest, ties to even,
with the product of the signs. An infinity by a finite value is an infinity, a finite value by an infinity is a zero,
and a finite nonzero value by a zero is an infinity, each with the product of the signs (IEEE 754's, log 11). -/
def Obligations.DivisionRoundsToNearest : Prop :=
  (∀ a b : Word, isfinite a = true → isfinite b = true → fmag b ≠ 0 →
    RoundsTo ((if fsign b then -fscaled a else fscaled a) * 2 ^ 149) (fmag b) (fdiv a b) ∧
      fsign (fdiv a b) = (fsign a != fsign b)) ∧
  (∀ a b : Word,
    ((isinf a = true ∧ isfinite b = true) ∨ (isfinite a = true ∧ fmag a ≠ 0 ∧ fmag b = 0) →
      isinf (fdiv a b) = true ∧ fsign (fdiv a b) = (fsign a != fsign b)) ∧
    (isfinite a = true → isinf b = true → fmag (fdiv a b) = 0 ∧ fsign (fdiv a b) = (fsign a != fsign b)))

/-- 00_scope.md R10: the four operations return a NaN exactly on a NaN operand, ∞ - ∞, 0·∞, 0/0 and ∞/∞, and it is always
the canonical quiet NaN. -/
def Obligations.NanExactly : Prop :=
  ∀ a b : Word,
    (isnan (fadd a b) = true ↔
      isnan a = true ∨ isnan b = true ∨ (isinf a = true ∧ isinf b = true ∧ fsign a ≠ fsign b)) ∧
    (isnan (fsub a b) = true ↔
      isnan a = true ∨ isnan b = true ∨ (isinf a = true ∧ isinf b = true ∧ fsign a = fsign b)) ∧
    (isnan (fmul a b) = true ↔
      isnan a = true ∨ isnan b = true ∨ (isinf a = true ∧ fmag b = 0) ∨ (fmag a = 0 ∧ isinf b = true)) ∧
    (isnan (fdiv a b) = true ↔
      isnan a = true ∨ isnan b = true ∨ (isinf a = true ∧ isinf b = true) ∨ (fmag a = 0 ∧ fmag b = 0)) ∧
    (∀ r ∈ [fadd a b, fsub a b, fmul a b, fdiv a b], isnan r = true → r = 0x7FC00000)

/-- 00_scope.md R10: f32(n) is exact up to 2^24, and dividing by 1.0 keeps it. -/
def Obligations.IntegersAreExact : Prop :=
  ∀ n : Nat, n ≤ 2 ^ 24 →
    isfinite (f32 n) = true ∧ fsign (f32 n) = false ∧ fscaled (f32 n) = n * 2 ^ 149 ∧ fdiv (f32 n) (f32 1) = f32 n

/-- 00_scope.md R10: roundHA is the nearest integer, halves away from zero. -/
def Obligations.RoundsHalvesAway : Prop :=
  ∀ v : Word, isfinite v = true →
    2 * (fscaled v - roundHA v * 2 ^ 149).natAbs ≤ 2 ^ 149 ∧
      (2 * (fscaled v - roundHA v * 2 ^ 149).natAbs = 2 ^ 149 → (fscaled v).natAbs < (roundHA v).natAbs * 2 ^ 149)

/-- 42_error_loop.md R163: the clip of a detector output that is no NaN; the result lies in [-1, 1]. -/
def Obligations.ClipBoundsTheError : Prop :=
  ∀ t : Word, isnan t = false →
    clip t =
      (if 2 ^ 149 < fscaled t then 0x3F800000 else if fscaled t < -2 ^ 149 then 0xBF800000 else t) ∧
    isnan (clip t) = false ∧ -2 ^ 149 ≤ fscaled (clip t) ∧ fscaled (clip t) ≤ 2 ^ 149

/-! ## Configuration, readback and RESET -/

/-- 43_configuration.md R180: SET_BANDWIDTH writes BT, ALPHA and BETA and nothing else, or rejects its operand. -/
def Obligations.SetBandwidthWrites : Prop :=
  ∀ (s : State) (bt : Word), s.configured = true → s.faulted = false →
    exec (.setBandwidth bt) s =
      .next
        (if isnan bt = false ∧ 0 ≤ fscaled bt ∧ fscaled bt ≤ 2 ^ 149 then
          { s with
            bt := bt, alpha := fsub 0x3F800000 bt, beta := fmul 0x3E6147AE bt, output := s.output ++ [0x20000000] }
        else { s with output := s.output ++ [0x20011400] })

/-- 43_configuration.md R186, R187, R191: SET_OUTPUT_RATE writes K_OUT, R, DEL_NOM, DEL and a DECIM_COUNTER that is
larger, and nothing else, or rejects its operand. -/
def Obligations.SetOutputRateWrites : Prop :=
  ∀ (s : State) (ko : Word), s.configured = true → s.faulted = false →
    exec (.setOutputRate ko) s =
      .next
        (if 1 ≤ ko.toNat ∧ ko.toNat ≤ s.cfg.kOutMax then
          { s with
            kOut := ko
            r := fdiv (f32 ko.toNat) (f32 s.k.toNat)
            delNom := fdiv (f32 s.k.toNat) (f32 ko.toNat)
            del := fdiv (f32 s.k.toNat) (f32 ko.toNat)
            decim := if ko.toNat < s.decim.toNat then ko else s.decim
            output := s.output ++ [0x21000000] }
        else { s with output := s.output ++ [0x21011300] })

/-- 43_configuration.md R193: SET_RATE writes R, DEL_NOM and DEL and nothing else, or rejects its operand. -/
def Obligations.SetRateWrites : Prop :=
  ∀ (s : State) (rate : Word), s.configured = true → s.faulted = false →
    exec (.setRate rate) s =
      .next
        (if isfinite rate = true ∧ 0 < fscaled rate ∧ isfinite (fdiv 0x3F800000 rate) = true then
          { s with
            r := rate, delNom := fdiv 0x3F800000 rate, del := fdiv 0x3F800000 rate, output := s.output ++ [0x22000000] }
        else { s with output := s.output ++ [0x22011500] })

/-- 43_configuration.md R198, R199, R201: LOCK always sets the flag and UNLOCK always clears it; neither changes anything
else, and each is accepted whatever the flag is. -/
def Obligations.LockSetsUnlockClears : Prop :=
  ∀ s : State, s.configured = true → s.faulted = false →
    exec .lock s = .next { s with isLocked := true, output := s.output ++ [0x30000000] } ∧
      exec .unlock s = .next { s with isLocked := false, output := s.output ++ [0x31000000] }

/-- 43_configuration.md R204, R207, R210, 10_state.md R35: GET_TAU answers TAU, READ_REG the register its index names,
while faulted too, or rejects a reserved index; neither changes anything. -/
def Obligations.ReadsAnswerRegisters : Prop :=
  ∀ s : State, s.configured = true →
    (s.faulted = false → exec .getTau s = .next { s with output := s.output ++ [0x40000000, s.tau] }) ∧
    (∀ (idx : Byte) (w : Word),
      [s.tau, s.bf, s.b, s.del, s.r, s.q, s.qHat, s.qPrime, s.alpha, s.beta, s.bt, s.decim, s.k, s.kOut, s.npfb, s.hLen, s.l,
          ((0 : BitVec 16) ++ s.faultCause ++ (0 : BitVec 5) ++ BitVec.ofBool s.faulted ++ BitVec.ofBool s.isLocked ++
            BitVec.ofBool s.configured),
          ((0 : BitVec 29) ++ BitVec.ofBool (s.cfg.lockSkip == .restOfIteration) ++
            BitVec.ofBool (s.cfg.coefKind == .complex) ++ BitVec.ofBool (s.cfg.sampleKind == .complex)),
          s.delNom][idx.toNat]? = some w →
        exec (.readReg idx) s = .next { s with output := s.output ++ [0x41000000, w] }) ∧
    (∀ idx : Byte, 0x14 ≤ idx.toNat → exec (.readReg idx) s = .next { s with output := s.output ++ [0x41020000] })

/-- 43_configuration.md R212: RESET writes the RST column of 10_state.md R18 and nothing else, also while faulted; it
keeps the lock (70_reset_and_hazards.md R254). -/
def Obligations.ResetClears : Prop :=
  ∀ s : State, s.configured = true →
    exec .reset s =
      .next { s with
        tau := 0, bf := 0, b := 0, decim := 0, q := 0, qHat := 0, qPrime := 0, del := s.delNom
        faulted := false, faultCause := 0x00
        wMf := List.replicate s.hLen.toNat (zeroNum s.cfg.sampleKind)
        wDmf := List.replicate s.hLen.toNat (zeroNum s.cfg.sampleKind)
        output := s.output ++ [0x50000000] }

/-- 43_configuration.md R213: RESET leaves every register and memory as they are on a block, in whatever state, that is
constructed with the same K, NPFB and coefficients and then given the same K_OUT, rate, bandwidth and lock; and the two
blocks answer every input sequence with the same words. The response streams and the model's own counter are left out
of the comparison of the registers. -/
def Obligations.ResetEqualsReconstruction : Prop :=
  ∀ s : State, s.wf = true → s.configured = true →
    ∃ rate : List Instr, (rate = [] ∨ rate = [.setRate s.r]) ∧
      ∀ s' : State, s'.cfg = s.cfg →
        ∃ t u, exec .reset s = .next t ∧
          execAll
              (.construct s.k s.npfb s.l s.h :: .setOutputRate s.kOut ::
                (rate ++ .setBandwidth s.bt :: (if s.isLocked then [.lock] else []))) s' =
            .next u ∧
          u.registers = t.registers ∧
          ∀ xs : List Sys2Proof.Num, ∃ (t' u' : State) (ws : List Word), exec (.execute xs) t = .next t' ∧
            exec (.execute xs) u = .next u' ∧ t'.output = t.output ++ ws ∧ u'.output = u.output ++ ws

/-- 20_memory.md R66: issuing LOCK, UNLOCK, SET_BANDWIDTH, SET_OUTPUT_RATE, SET_RATE or RESET twice in a row leaves the
state the first left, and GET_TAU and READ_REG change no state. -/
def Obligations.ConfigurationIsIdempotent : Prop :=
  ∀ (i : Instr) (s : State),
    (i.opcode ∈ [.lock, .unlock, .setBandwidth, .setOutputRate, .setRate, .reset] →
      ∃ t u, exec i s = .next t ∧ exec i t = .next u ∧ u.arch = t.arch) ∧
    (i.opcode ∈ [.getTau, .readReg] → ∃ t, exec i s = .next t ∧ t.arch = s.arch)

/-! ## The whole machine -/

/-- 70_reset_and_hazards.md R258: a command's response and the state it leaves depend on the state of 10_state.md R18
alone, not on the streams or the command position. -/
def Obligations.ResponseDependsOnStateAlone : Prop :=
  ∀ (i : Instr) (s s' : State), s.arch = s'.arch →
    ∃ (t t' : State) (ws : List Word), exec i s = .next t ∧ exec i s' = .next t' ∧ t.arch = t'.arch ∧ t.output = s.output ++ ws ∧
      t'.output = s'.output ++ ws

/-- The machine's invariant holds at power-on (70_reset_and_hazards.md R240). -/
def Obligations.InvariantHoldsAtReset : Prop := State.reset.wf = true

/-- 10_state.md R18, R36 to R39, R41 items 1, 3, 6 and 7; 20_memory.md R61: every step from a state with the invariant
leaves a state with it: legal configuration registers, canonical and equal histories, DH the derivative of H, a
consistent fault record, and, while not faulted, B ≥ 0, Q in [-1, 1], DECIM_COUNTER ≤ K_OUT and Q_PRIME = Q_HAT. -/
def Obligations.StepKeepsInvariant : Prop := ∀ s t : State, s.wf = true → step s = .next t → t.wf = true

/-- 70_reset_and_hazards.md R243, 10_state.md R33, R41 item 4, 00_scope.md R6: no step changes the parameters or clears
CONFIGURED, and only a construction that answers OK changes K, NPFB, L, H_LEN, H or DH. -/
def Obligations.ConstructionAloneChangesCoefficients : Prop :=
  ∀ s t : State, step s = .next t →
    t.cfg = s.cfg ∧ (s.configured = true → t.configured = true) ∧
      ((t.k, t.npfb, t.l, t.hLen, t.h, t.dh) = (s.k, s.npfb, s.l, s.hLen, s.h, s.dh) ∨
        ∃ i n, decode s.cfg s.input = .command i n ∧
          ((i.opcode = .construct ∧ t.output = s.output ++ [0x01000000]) ∨
            (i.opcode = .constructDesign ∧ t.output = s.output ++ [0x02000000])))

/-- 60_exceptions.md R228: only RESET and a construction that answers OK leave the faulted state, only STEP and EXECUTE
enter it, and a recorded cause is never overwritten. -/
def Obligations.FaultIsLeftOnlyByResetOrConstruction : Prop :=
  ∀ s t : State, step s = .next t →
    (s.faulted = true → t.faulted = true → t.faultCause = s.faultCause) ∧
    (s.faulted = true → t.faulted = false →
      t.faultCause = 0x00 ∧
        ∃ i n, decode s.cfg s.input = .command i n ∧
          ((i.opcode = .reset ∧ t.output = s.output ++ [0x50000000]) ∨
            (i.opcode = .construct ∧ t.output = s.output ++ [0x01000000]) ∨
            (i.opcode = .constructDesign ∧ t.output = s.output ++ [0x02000000]))) ∧
    (s.faulted = false → t.faulted = true →
      ∃ i n, decode s.cfg s.input = .command i n ∧ (i.opcode = .step ∨ i.opcode = .execute))
end

