-- ==== Sys2Proof/Laws/Encoding.lean ====
section
/-! SUPPORT. The small lemmas of the encoding: header fields, opcode map, and the words of numbers. -/

namespace Sys2Proof

@[simp] theorem Opcode.ofCode_code (opc : Opcode) : Opcode.ofCode opc.code = some opc := by cases opc <;> rfl

/-- Only the twelve opcode bytes name a command (30_encoding.md R84). -/
theorem Opcode.code_of_ofCode (b : Byte) (opc : Opcode) (h : Opcode.ofCode b = some opc) : opc.code = b := by
  revert b
  cases opc <;> decide

theorem header_toNat (opc : Opcode) (sub : Byte) :
    (header opc sub).toNat = opc.code.toNat * 2 ^ 24 + sub.toNat * 2 ^ 16 := by
  unfold header
  rw [BitVec.toNat_ofNat]
  have := opc.code.isLt
  have := sub.isLt
  omega

@[simp] theorem headerOpc_header (opc : Opcode) (sub : Byte) : headerOpc (header opc sub) = opc.code := by
  apply BitVec.eq_of_toNat_eq
  have := opc.code.isLt
  have := sub.isLt
  simp only [headerOpc, header_toNat, BitVec.toNat_ofNat]
  omega

@[simp] theorem headerSub_header (opc : Opcode) (sub : Byte) : headerSub (header opc sub) = sub := by
  apply BitVec.eq_of_toNat_eq
  have := opc.code.isLt
  have := sub.isLt
  simp only [headerSub, header_toNat, BitVec.toNat_ofNat]
  omega

@[simp] theorem headerRsv_header (opc : Opcode) (sub : Byte) : headerRsv (header opc sub) = 0 := by
  apply BitVec.eq_of_toNat_eq
  have := opc.code.isLt
  have := sub.isLt
  simp only [headerRsv, header_toNat, BitVec.toNat_ofNat]
  rw [show (0 : BitVec 16).toNat = 0 from rfl]
  omega

/-- A header word is its opcode byte and its SUB byte once RSV is zero (30_encoding.md R80). -/
theorem header_of_fields (h : Word) (opc : Opcode) (ho : headerOpc h = opc.code) (hr : headerRsv h = 0) :
    header opc (headerSub h) = h := by
  apply BitVec.eq_of_toNat_eq
  have ho' := congrArg BitVec.toNat ho
  have hr' := congrArg BitVec.toNat hr
  have := h.isLt
  simp only [headerOpc, headerRsv, BitVec.toNat_ofNat] at ho' hr'
  rw [header_toNat]
  simp only [headerSub, BitVec.toNat_ofNat]
  simp at hr'
  omega

/-- A number takes the words of its kind (30_encoding.md R81). -/
theorem Num.words_length (x : Num) : x.words.length = x.kind.words := by cases x <;> rfl

theorem takeNum_words (x : Num) (rest : List Word) : takeNum x.kind (x.words ++ rest) = some (x, rest) := by
  cases x <;> rfl

/-- What `takeNum` answers: a number of the kind, whose words it took. -/
theorem takeNum_eq (kd : NumKind) (ws rest : List Word) (x : Num) (h : takeNum kd ws = some (x, rest)) :
    x.kind = kd ∧ ws = x.words ++ rest := by
  cases kd
  · cases ws with
    | nil => simp [takeNum] at h
    | cons v ws => simp [takeNum] at h; obtain ⟨rfl, rfl⟩ := h; simp [Num.kind, Num.words]
  · match ws, h with
    | [], h => simp [takeNum] at h
    | [_], h => simp [takeNum] at h
    | re :: im :: ws, h => simp [takeNum] at h; obtain ⟨rfl, rfl⟩ := h; simp [Num.kind, Num.words]

theorem numsOfKind_cons (kd : NumKind) (x : Num) (xs : List Num) :
    numsOfKind kd (x :: xs) = true ↔ x.kind = kd ∧ numsOfKind kd xs = true := by simp [numsOfKind]

theorem numsOfKind_mem (kd : NumKind) (xs : List Num) : numsOfKind kd xs = true ↔ ∀ x ∈ xs, x.kind = kd := by
  simp [numsOfKind]

/-- Numbers of one kind take its words each (30_encoding.md R81). -/
theorem flatMap_words_length (kd : NumKind) (xs : List Num) (h : numsOfKind kd xs = true) :
    (xs.flatMap Num.words).length = xs.length * kd.words := by
  induction xs with
  | nil => simp
  | cons x xs ih =>
    rw [numsOfKind_cons] at h
    rw [List.flatMap_cons, List.length_append, ih h.2, Num.words_length, h.1, List.length_cons]
    ring

/-- Reading back the words of numbers gives the numbers. -/
theorem takeNums_flatMap (kd : NumKind) (xs : List Num) (rest : List Word) (h : numsOfKind kd xs = true) :
    takeNums kd xs.length (xs.flatMap Num.words ++ rest) = some xs := by
  induction xs with
  | nil => rfl
  | cons x xs ih =>
    rw [numsOfKind_cons] at h
    have e : takeNum kd (x.words ++ (xs.flatMap Num.words ++ rest)) = some (x, xs.flatMap Num.words ++ rest) := by
      rw [← h.1]; exact takeNum_words x _
    simp only [List.flatMap_cons, List.length_cons, List.append_assoc, takeNums, e, ih h.2, Option.map_some]

/-- What `takeNums` answers: as many numbers of the kind as asked for, whose words stand at the front. -/
theorem takeNums_eq (kd : NumKind) (n : Nat) (ws : List Word) (xs : List Num) (h : takeNums kd n ws = some xs) :
    xs.length = n ∧ numsOfKind kd xs = true ∧ ∃ rest, ws = xs.flatMap Num.words ++ rest := by
  induction n generalizing ws xs with
  | zero => simp [takeNums] at h; subst h; simp [numsOfKind]
  | succ n ih =>
    rw [takeNums] at h
    split at h
    · cases h
    · next x rest hx =>
      obtain ⟨ys, hys, rfl⟩ := Option.map_eq_some_iff.mp h
      obtain ⟨hk, hw⟩ := takeNum_eq kd ws rest x hx
      obtain ⟨hl, hn, rest', hr⟩ := ih rest ys hys
      refine ⟨by simp [hl], (numsOfKind_cons kd x ys).mpr ⟨hk, hn⟩, rest', ?_⟩
      rw [hw, hr, List.flatMap_cons, List.append_assoc]

/-- `takeNums` succeeds where there are words enough. -/
theorem takeNums_isSome (kd : NumKind) (n : Nat) (ws : List Word) (h : n * kd.words ≤ ws.length) :
    ∃ xs, takeNums kd n ws = some xs := by
  induction n generalizing ws with
  | zero => exact ⟨[], rfl⟩
  | succ n ih =>
    rw [takeNums]
    cases kd with
    | real =>
      match ws, h with
      | [], h => simp [NumKind.words] at h
      | v :: ws, h =>
        obtain ⟨xs, hxs⟩ := ih ws (by simp [NumKind.words] at h ⊢; omega)
        exact ⟨.real v :: xs, by simp [takeNum, hxs]⟩
    | complex =>
      match ws, h with
      | [], h => simp [NumKind.words] at h
      | [_], h => simp [NumKind.words] at h; omega
      | re :: im :: ws, h =>
        obtain ⟨xs, hxs⟩ := ih ws (by simp [NumKind.words] at h ⊢; omega)
        exact ⟨.complex re im :: xs, by simp [takeNum, hxs]⟩

end Sys2Proof
end

