-- ==== Sys2Proof/Laws/Float32.lean ====
section
/-! SUPPORT. The small lemmas of the binary32 operations: packing and unpacking, the bound of rounding, and the
comparisons as comparisons of values. -/

namespace Sys2Proof.Machine

theorem roundMag_le (num den : Nat) : roundMag num den ≤ 0x7F800000 := Nat.min_le_right _ _

theorem fpack_toNat (neg : Bool) (m : Nat) (h : m < 2 ^ 31) : (fpack neg m).toNat = (if neg then m + 2 ^ 31 else m) := by
  unfold fpack
  rw [BitVec.toNat_ofNat]
  apply Nat.mod_eq_of_lt
  split <;> omega

theorem fsign_fpack (neg : Bool) (m : Nat) (h : m < 2 ^ 31) : fsign (fpack neg m) = neg := by
  unfold fsign
  rw [fpack_toNat neg m h]
  cases neg
  all_goals simp
  all_goals omega

theorem fexp_fpack (neg : Bool) (m : Nat) (h : m < 2 ^ 31) : fexp (fpack neg m) = m / 2 ^ 23 := by
  unfold fexp
  rw [fpack_toNat neg m h]
  cases neg
  all_goals simp
  all_goals omega

theorem ffrac_fpack (neg : Bool) (m : Nat) (h : m < 2 ^ 31) : ffrac (fpack neg m) = m % 2 ^ 23 := by
  unfold ffrac
  rw [fpack_toNat neg m h]
  cases neg
  all_goals simp
  all_goals omega

/-- A packed magnitude up to infinity is no NaN. -/
theorem isnan_fpack (neg : Bool) (m : Nat) (h : m ≤ 0x7F800000) : isnan (fpack neg m) = false := by
  unfold isnan
  rw [fexp_fpack neg m (by omega), ffrac_fpack neg m (by omega)]
  simp
  omega

theorem isnan_qnan : isnan qnan = true := by decide

/-- A word is its sign and its magnitude bits. -/
theorem fpack_fields (v : Word) : fpack (fsign v) (v.toNat % 2 ^ 31) = v := by
  apply BitVec.eq_of_toNat_eq
  rw [fpack_toNat _ _ (by omega)]
  unfold fsign
  have := v.isLt
  split
  all_goals simp_all
  all_goals omega

/-- `fbelow` is the order of the values. -/
theorem fbelow_iff (a b : Word) : fbelow a b = true ↔ fscaled a < fscaled b := by
  unfold fbelow fscaled
  cases fsign a <;> cases fsign b
  all_goals simp
  all_goals omega

/-- `flt` compares values and is false on NaN (00_scope.md R10). -/
theorem flt_iff (a b : Word) : flt a b = true ↔ isnan a = false ∧ isnan b = false ∧ fscaled a < fscaled b := by
  unfold flt
  simp [fbelow_iff, and_assoc]

/-- `fle` compares values and is false on NaN (00_scope.md R10). -/
theorem fle_iff (a b : Word) : fle a b = true ↔ isnan a = false ∧ isnan b = false ∧ fscaled a ≤ fscaled b := by
  have := fbelow_iff b a
  unfold fle
  by_cases hb : fbelow b a = true
  · have h := this.mp hb
    simp [hb]
    intro _ _
    omega
  · have h : ¬ fscaled b < fscaled a := fun hc => hb (this.mpr hc)
    simp [hb]
    intro _ _
    omega

/-- The magnitude from the magnitude bits, wherever the sign stands. -/
theorem fmag_fpack (neg : Bool) (m : Nat) (h : m < 2 ^ 31) :
    fmag (fpack neg m) = if m / 2 ^ 23 = 0 then m % 2 ^ 23 else (2 ^ 23 + m % 2 ^ 23) * 2 ^ (m / 2 ^ 23 - 1) := by
  unfold fmag
  rw [fexp_fpack neg m h, ffrac_fpack neg m h]

theorem isfinite_iff (v : Word) : isfinite v = true ↔ fexp v ≠ 255 := by simp [isfinite]

/-- A finite value is no NaN. -/
theorem not_isnan_of_isfinite (v : Word) (h : isfinite v = true) : isnan v = false := by
  rw [isfinite_iff] at h
  simp [isnan, h]

/-! ## The four operations answer a packed value or the canonical NaN -/

/-- What every operation answers: the canonical NaN, or a sign with magnitude bits up to infinity (00_scope.md R10). -/
def CanonicalResult (v : Word) : Prop := v = qnan ∨ ∃ neg m, m ≤ 0x7F800000 ∧ v = fpack neg m

theorem CanonicalResult_qnan : CanonicalResult qnan := .inl rfl

theorem CanonicalResult_fpack (neg : Bool) (m : Nat) (h : m ≤ 0x7F800000) : CanonicalResult (fpack neg m) :=
  .inr ⟨neg, m, h, rfl⟩

/-- A canonical result that is NaN is the canonical NaN. -/
theorem CanonicalResult_nan (v : Word) (h : CanonicalResult v) (hn : isnan v = true) : v = qnan := by
  obtain h | ⟨neg, m, hm, rfl⟩ := h
  · exact h
  · rw [isnan_fpack neg m hm] at hn
    cases hn

/-- An infinity is its sign with the magnitude bits of infinity. -/
theorem fpack_of_isinf (a : Word) (h : isinf a = true) : fpack (fsign a) 0x7F800000 = a := by
  have hf := fpack_fields a
  have hm : a.toNat % 2 ^ 31 = 0x7F800000 := by
    have h' : fexp a = 255 ∧ ffrac a = 0 := by simpa [isinf] using h
    unfold fexp ffrac at h'
    omega
  rw [hm] at hf
  exact hf

theorem fadd_canonical (a b : Word) : CanonicalResult (fadd a b) := by
  unfold fadd
  split
  · exact CanonicalResult_qnan
  split
  · next ha =>
    split
    · exact CanonicalResult_qnan
    · exact .inr ⟨_, _, le_refl _, (fpack_of_isinf a ha).symm⟩
  split
  · next hb => exact .inr ⟨_, _, le_refl _, (fpack_of_isinf b hb).symm⟩
  dsimp only
  split
  · exact CanonicalResult_fpack _ _ (Nat.zero_le _)
  · exact CanonicalResult_fpack _ _ (roundMag_le _ _)

theorem fsub_canonical (a b : Word) : CanonicalResult (fsub a b) := fadd_canonical a (fneg b)

theorem fmul_canonical (a b : Word) : CanonicalResult (fmul a b) := by
  unfold fmul
  split
  · exact CanonicalResult_qnan
  split
  · split
    · exact CanonicalResult_qnan
    · exact CanonicalResult_fpack _ _ (le_refl _)
  · exact CanonicalResult_fpack _ _ (roundMag_le _ _)

theorem fdiv_canonical (a b : Word) : CanonicalResult (fdiv a b) := by
  unfold fdiv
  repeat' split
  all_goals first
    | exact CanonicalResult_qnan
    | exact CanonicalResult_fpack _ _ (roundMag_le _ _)
    | exact CanonicalResult_fpack _ _ (Nat.zero_le _)
    | exact CanonicalResult_fpack _ _ (le_refl _)

end Sys2Proof.Machine
end

