-- ==== Sys2Proof/Laws/State.lean ====
section
/-! SUPPORT. The simp set of the state: for each named update of a state, one lemma per field (true by rfl), so that no
proof unfolds a record update. -/

namespace Sys2Proof.Machine

variable (s : State)

/-! ### deliver -/

@[simp] theorem State.deliver_cfg (ws : List Word) : (s.deliver ws).cfg = s.cfg := rfl
@[simp] theorem State.deliver_freeIndex (ws : List Word) : (s.deliver ws).freeIndex = s.freeIndex := rfl
@[simp] theorem State.deliver_input (ws : List Word) : (s.deliver ws).input = s.input ++ ws := rfl
@[simp] theorem State.deliver_pos (ws : List Word) : (s.deliver ws).pos = s.pos := rfl
@[simp] theorem State.deliver_output (ws : List Word) : (s.deliver ws).output = s.output := rfl
@[simp] theorem State.deliver_k (ws : List Word) : (s.deliver ws).k = s.k := rfl
@[simp] theorem State.deliver_kOut (ws : List Word) : (s.deliver ws).kOut = s.kOut := rfl
@[simp] theorem State.deliver_npfb (ws : List Word) : (s.deliver ws).npfb = s.npfb := rfl
@[simp] theorem State.deliver_l (ws : List Word) : (s.deliver ws).l = s.l := rfl
@[simp] theorem State.deliver_hLen (ws : List Word) : (s.deliver ws).hLen = s.hLen := rfl
@[simp] theorem State.deliver_r (ws : List Word) : (s.deliver ws).r = s.r := rfl
@[simp] theorem State.deliver_delNom (ws : List Word) : (s.deliver ws).delNom = s.delNom := rfl
@[simp] theorem State.deliver_del (ws : List Word) : (s.deliver ws).del = s.del := rfl
@[simp] theorem State.deliver_tau (ws : List Word) : (s.deliver ws).tau = s.tau := rfl
@[simp] theorem State.deliver_bf (ws : List Word) : (s.deliver ws).bf = s.bf := rfl
@[simp] theorem State.deliver_b (ws : List Word) : (s.deliver ws).b = s.b := rfl
@[simp] theorem State.deliver_decim (ws : List Word) : (s.deliver ws).decim = s.decim := rfl
@[simp] theorem State.deliver_q (ws : List Word) : (s.deliver ws).q = s.q := rfl
@[simp] theorem State.deliver_qHat (ws : List Word) : (s.deliver ws).qHat = s.qHat := rfl
@[simp] theorem State.deliver_qPrime (ws : List Word) : (s.deliver ws).qPrime = s.qPrime := rfl
@[simp] theorem State.deliver_bt (ws : List Word) : (s.deliver ws).bt = s.bt := rfl
@[simp] theorem State.deliver_alpha (ws : List Word) : (s.deliver ws).alpha = s.alpha := rfl
@[simp] theorem State.deliver_beta (ws : List Word) : (s.deliver ws).beta = s.beta := rfl
@[simp] theorem State.deliver_isLocked (ws : List Word) : (s.deliver ws).isLocked = s.isLocked := rfl
@[simp] theorem State.deliver_configured (ws : List Word) : (s.deliver ws).configured = s.configured := rfl
@[simp] theorem State.deliver_faulted (ws : List Word) : (s.deliver ws).faulted = s.faulted := rfl
@[simp] theorem State.deliver_faultCause (ws : List Word) : (s.deliver ws).faultCause = s.faultCause := rfl
@[simp] theorem State.deliver_h (ws : List Word) : (s.deliver ws).h = s.h := rfl
@[simp] theorem State.deliver_dh (ws : List Word) : (s.deliver ws).dh = s.dh := rfl
@[simp] theorem State.deliver_wMf (ws : List Word) : (s.deliver ws).wMf = s.wMf := rfl
@[simp] theorem State.deliver_wDmf (ws : List Word) : (s.deliver ws).wDmf = s.wDmf := rfl

/-! ### consume -/

@[simp] theorem State.consume_cfg (n : Nat) : (s.consume n).cfg = s.cfg := rfl
@[simp] theorem State.consume_freeIndex (n : Nat) : (s.consume n).freeIndex = s.freeIndex := rfl
@[simp] theorem State.consume_input (n : Nat) : (s.consume n).input = s.input.drop n := rfl
@[simp] theorem State.consume_pos (n : Nat) : (s.consume n).pos = s.pos + n := rfl
@[simp] theorem State.consume_output (n : Nat) : (s.consume n).output = s.output := rfl
@[simp] theorem State.consume_k (n : Nat) : (s.consume n).k = s.k := rfl
@[simp] theorem State.consume_kOut (n : Nat) : (s.consume n).kOut = s.kOut := rfl
@[simp] theorem State.consume_npfb (n : Nat) : (s.consume n).npfb = s.npfb := rfl
@[simp] theorem State.consume_l (n : Nat) : (s.consume n).l = s.l := rfl
@[simp] theorem State.consume_hLen (n : Nat) : (s.consume n).hLen = s.hLen := rfl
@[simp] theorem State.consume_r (n : Nat) : (s.consume n).r = s.r := rfl
@[simp] theorem State.consume_delNom (n : Nat) : (s.consume n).delNom = s.delNom := rfl
@[simp] theorem State.consume_del (n : Nat) : (s.consume n).del = s.del := rfl
@[simp] theorem State.consume_tau (n : Nat) : (s.consume n).tau = s.tau := rfl
@[simp] theorem State.consume_bf (n : Nat) : (s.consume n).bf = s.bf := rfl
@[simp] theorem State.consume_b (n : Nat) : (s.consume n).b = s.b := rfl
@[simp] theorem State.consume_decim (n : Nat) : (s.consume n).decim = s.decim := rfl
@[simp] theorem State.consume_q (n : Nat) : (s.consume n).q = s.q := rfl
@[simp] theorem State.consume_qHat (n : Nat) : (s.consume n).qHat = s.qHat := rfl
@[simp] theorem State.consume_qPrime (n : Nat) : (s.consume n).qPrime = s.qPrime := rfl
@[simp] theorem State.consume_bt (n : Nat) : (s.consume n).bt = s.bt := rfl
@[simp] theorem State.consume_alpha (n : Nat) : (s.consume n).alpha = s.alpha := rfl
@[simp] theorem State.consume_beta (n : Nat) : (s.consume n).beta = s.beta := rfl
@[simp] theorem State.consume_isLocked (n : Nat) : (s.consume n).isLocked = s.isLocked := rfl
@[simp] theorem State.consume_configured (n : Nat) : (s.consume n).configured = s.configured := rfl
@[simp] theorem State.consume_faulted (n : Nat) : (s.consume n).faulted = s.faulted := rfl
@[simp] theorem State.consume_faultCause (n : Nat) : (s.consume n).faultCause = s.faultCause := rfl
@[simp] theorem State.consume_h (n : Nat) : (s.consume n).h = s.h := rfl
@[simp] theorem State.consume_dh (n : Nat) : (s.consume n).dh = s.dh := rfl
@[simp] theorem State.consume_wMf (n : Nat) : (s.consume n).wMf = s.wMf := rfl
@[simp] theorem State.consume_wDmf (n : Nat) : (s.consume n).wDmf = s.wDmf := rfl

/-! ### send -/

@[simp] theorem State.send_cfg (ws : List Word) : (s.send ws).cfg = s.cfg := rfl
@[simp] theorem State.send_freeIndex (ws : List Word) : (s.send ws).freeIndex = s.freeIndex := rfl
@[simp] theorem State.send_input (ws : List Word) : (s.send ws).input = s.input := rfl
@[simp] theorem State.send_pos (ws : List Word) : (s.send ws).pos = s.pos := rfl
@[simp] theorem State.send_output (ws : List Word) : (s.send ws).output = s.output ++ ws := rfl
@[simp] theorem State.send_k (ws : List Word) : (s.send ws).k = s.k := rfl
@[simp] theorem State.send_kOut (ws : List Word) : (s.send ws).kOut = s.kOut := rfl
@[simp] theorem State.send_npfb (ws : List Word) : (s.send ws).npfb = s.npfb := rfl
@[simp] theorem State.send_l (ws : List Word) : (s.send ws).l = s.l := rfl
@[simp] theorem State.send_hLen (ws : List Word) : (s.send ws).hLen = s.hLen := rfl
@[simp] theorem State.send_r (ws : List Word) : (s.send ws).r = s.r := rfl
@[simp] theorem State.send_delNom (ws : List Word) : (s.send ws).delNom = s.delNom := rfl
@[simp] theorem State.send_del (ws : List Word) : (s.send ws).del = s.del := rfl
@[simp] theorem State.send_tau (ws : List Word) : (s.send ws).tau = s.tau := rfl
@[simp] theorem State.send_bf (ws : List Word) : (s.send ws).bf = s.bf := rfl
@[simp] theorem State.send_b (ws : List Word) : (s.send ws).b = s.b := rfl
@[simp] theorem State.send_decim (ws : List Word) : (s.send ws).decim = s.decim := rfl
@[simp] theorem State.send_q (ws : List Word) : (s.send ws).q = s.q := rfl
@[simp] theorem State.send_qHat (ws : List Word) : (s.send ws).qHat = s.qHat := rfl
@[simp] theorem State.send_qPrime (ws : List Word) : (s.send ws).qPrime = s.qPrime := rfl
@[simp] theorem State.send_bt (ws : List Word) : (s.send ws).bt = s.bt := rfl
@[simp] theorem State.send_alpha (ws : List Word) : (s.send ws).alpha = s.alpha := rfl
@[simp] theorem State.send_beta (ws : List Word) : (s.send ws).beta = s.beta := rfl
@[simp] theorem State.send_isLocked (ws : List Word) : (s.send ws).isLocked = s.isLocked := rfl
@[simp] theorem State.send_configured (ws : List Word) : (s.send ws).configured = s.configured := rfl
@[simp] theorem State.send_faulted (ws : List Word) : (s.send ws).faulted = s.faulted := rfl
@[simp] theorem State.send_faultCause (ws : List Word) : (s.send ws).faultCause = s.faultCause := rfl
@[simp] theorem State.send_h (ws : List Word) : (s.send ws).h = s.h := rfl
@[simp] theorem State.send_dh (ws : List Word) : (s.send ws).dh = s.dh := rfl
@[simp] theorem State.send_wMf (ws : List Word) : (s.send ws).wMf = s.wMf := rfl
@[simp] theorem State.send_wDmf (ws : List Word) : (s.send ws).wDmf = s.wDmf := rfl

/-! ### answered -/

@[simp] theorem State.answered_cfg (ws : List Word) : (s.answered ws).cfg = s.cfg := rfl
@[simp] theorem State.answered_freeIndex (ws : List Word) : (s.answered ws).freeIndex = s.freeIndex := rfl
@[simp] theorem State.answered_input (ws : List Word) : (s.answered ws).input = s.input := rfl
@[simp] theorem State.answered_pos (ws : List Word) : (s.answered ws).pos = s.pos := rfl
@[simp] theorem State.answered_output (ws : List Word) : (s.answered ws).output = s.output ++ ws := rfl
@[simp] theorem State.answered_k (ws : List Word) : (s.answered ws).k = s.k := rfl
@[simp] theorem State.answered_kOut (ws : List Word) : (s.answered ws).kOut = s.kOut := rfl
@[simp] theorem State.answered_npfb (ws : List Word) : (s.answered ws).npfb = s.npfb := rfl
@[simp] theorem State.answered_l (ws : List Word) : (s.answered ws).l = s.l := rfl
@[simp] theorem State.answered_hLen (ws : List Word) : (s.answered ws).hLen = s.hLen := rfl
@[simp] theorem State.answered_r (ws : List Word) : (s.answered ws).r = s.r := rfl
@[simp] theorem State.answered_delNom (ws : List Word) : (s.answered ws).delNom = s.delNom := rfl
@[simp] theorem State.answered_del (ws : List Word) : (s.answered ws).del = s.del := rfl
@[simp] theorem State.answered_tau (ws : List Word) : (s.answered ws).tau = s.tau := rfl
@[simp] theorem State.answered_bf (ws : List Word) : (s.answered ws).bf = s.bf := rfl
@[simp] theorem State.answered_b (ws : List Word) : (s.answered ws).b = s.b := rfl
@[simp] theorem State.answered_decim (ws : List Word) : (s.answered ws).decim = s.decim := rfl
@[simp] theorem State.answered_q (ws : List Word) : (s.answered ws).q = s.q := rfl
@[simp] theorem State.answered_qHat (ws : List Word) : (s.answered ws).qHat = s.qHat := rfl
@[simp] theorem State.answered_qPrime (ws : List Word) : (s.answered ws).qPrime = s.qPrime := rfl
@[simp] theorem State.answered_bt (ws : List Word) : (s.answered ws).bt = s.bt := rfl
@[simp] theorem State.answered_alpha (ws : List Word) : (s.answered ws).alpha = s.alpha := rfl
@[simp] theorem State.answered_beta (ws : List Word) : (s.answered ws).beta = s.beta := rfl
@[simp] theorem State.answered_isLocked (ws : List Word) : (s.answered ws).isLocked = s.isLocked := rfl
@[simp] theorem State.answered_configured (ws : List Word) : (s.answered ws).configured = s.configured := rfl
@[simp] theorem State.answered_faulted (ws : List Word) : (s.answered ws).faulted = s.faulted := rfl
@[simp] theorem State.answered_faultCause (ws : List Word) : (s.answered ws).faultCause = s.faultCause := rfl
@[simp] theorem State.answered_h (ws : List Word) : (s.answered ws).h = s.h := rfl
@[simp] theorem State.answered_dh (ws : List Word) : (s.answered ws).dh = s.dh := rfl
@[simp] theorem State.answered_wMf (ws : List Word) : (s.answered ws).wMf = s.wMf := rfl
@[simp] theorem State.answered_wDmf (ws : List Word) : (s.answered ws).wDmf = s.wDmf := rfl

/-! ### clearHistories -/

@[simp] theorem State.clearHistories_cfg : s.clearHistories.cfg = s.cfg := rfl
@[simp] theorem State.clearHistories_freeIndex : s.clearHistories.freeIndex = s.freeIndex := rfl
@[simp] theorem State.clearHistories_input : s.clearHistories.input = s.input := rfl
@[simp] theorem State.clearHistories_pos : s.clearHistories.pos = s.pos := rfl
@[simp] theorem State.clearHistories_output : s.clearHistories.output = s.output := rfl
@[simp] theorem State.clearHistories_k : s.clearHistories.k = s.k := rfl
@[simp] theorem State.clearHistories_kOut : s.clearHistories.kOut = s.kOut := rfl
@[simp] theorem State.clearHistories_npfb : s.clearHistories.npfb = s.npfb := rfl
@[simp] theorem State.clearHistories_l : s.clearHistories.l = s.l := rfl
@[simp] theorem State.clearHistories_hLen : s.clearHistories.hLen = s.hLen := rfl
@[simp] theorem State.clearHistories_r : s.clearHistories.r = s.r := rfl
@[simp] theorem State.clearHistories_delNom : s.clearHistories.delNom = s.delNom := rfl
@[simp] theorem State.clearHistories_del : s.clearHistories.del = s.del := rfl
@[simp] theorem State.clearHistories_tau : s.clearHistories.tau = s.tau := rfl
@[simp] theorem State.clearHistories_bf : s.clearHistories.bf = s.bf := rfl
@[simp] theorem State.clearHistories_b : s.clearHistories.b = s.b := rfl
@[simp] theorem State.clearHistories_decim : s.clearHistories.decim = s.decim := rfl
@[simp] theorem State.clearHistories_q : s.clearHistories.q = s.q := rfl
@[simp] theorem State.clearHistories_qHat : s.clearHistories.qHat = s.qHat := rfl
@[simp] theorem State.clearHistories_qPrime : s.clearHistories.qPrime = s.qPrime := rfl
@[simp] theorem State.clearHistories_bt : s.clearHistories.bt = s.bt := rfl
@[simp] theorem State.clearHistories_alpha : s.clearHistories.alpha = s.alpha := rfl
@[simp] theorem State.clearHistories_beta : s.clearHistories.beta = s.beta := rfl
@[simp] theorem State.clearHistories_isLocked : s.clearHistories.isLocked = s.isLocked := rfl
@[simp] theorem State.clearHistories_configured : s.clearHistories.configured = s.configured := rfl
@[simp] theorem State.clearHistories_faulted : s.clearHistories.faulted = s.faulted := rfl
@[simp] theorem State.clearHistories_faultCause : s.clearHistories.faultCause = s.faultCause := rfl
@[simp] theorem State.clearHistories_h : s.clearHistories.h = s.h := rfl
@[simp] theorem State.clearHistories_dh : s.clearHistories.dh = s.dh := rfl
@[simp] theorem State.clearHistories_wMf :
    s.clearHistories.wMf = List.replicate s.hLen.toNat (zeroNum s.cfg.sampleKind) := rfl
@[simp] theorem State.clearHistories_wDmf :
    s.clearHistories.wDmf = List.replicate s.hLen.toNat (zeroNum s.cfg.sampleKind) := rfl

/-! ### push -/

@[simp] theorem State.push_cfg (x : Num) : (s.push x).cfg = s.cfg := rfl
@[simp] theorem State.push_freeIndex (x : Num) : (s.push x).freeIndex = s.freeIndex := rfl
@[simp] theorem State.push_input (x : Num) : (s.push x).input = s.input := rfl
@[simp] theorem State.push_pos (x : Num) : (s.push x).pos = s.pos := rfl
@[simp] theorem State.push_output (x : Num) : (s.push x).output = s.output := rfl
@[simp] theorem State.push_k (x : Num) : (s.push x).k = s.k := rfl
@[simp] theorem State.push_kOut (x : Num) : (s.push x).kOut = s.kOut := rfl
@[simp] theorem State.push_npfb (x : Num) : (s.push x).npfb = s.npfb := rfl
@[simp] theorem State.push_l (x : Num) : (s.push x).l = s.l := rfl
@[simp] theorem State.push_hLen (x : Num) : (s.push x).hLen = s.hLen := rfl
@[simp] theorem State.push_r (x : Num) : (s.push x).r = s.r := rfl
@[simp] theorem State.push_delNom (x : Num) : (s.push x).delNom = s.delNom := rfl
@[simp] theorem State.push_del (x : Num) : (s.push x).del = s.del := rfl
@[simp] theorem State.push_tau (x : Num) : (s.push x).tau = s.tau := rfl
@[simp] theorem State.push_bf (x : Num) : (s.push x).bf = s.bf := rfl
@[simp] theorem State.push_b (x : Num) : (s.push x).b = s.b := rfl
@[simp] theorem State.push_decim (x : Num) : (s.push x).decim = s.decim := rfl
@[simp] theorem State.push_q (x : Num) : (s.push x).q = s.q := rfl
@[simp] theorem State.push_qHat (x : Num) : (s.push x).qHat = s.qHat := rfl
@[simp] theorem State.push_qPrime (x : Num) : (s.push x).qPrime = s.qPrime := rfl
@[simp] theorem State.push_bt (x : Num) : (s.push x).bt = s.bt := rfl
@[simp] theorem State.push_alpha (x : Num) : (s.push x).alpha = s.alpha := rfl
@[simp] theorem State.push_beta (x : Num) : (s.push x).beta = s.beta := rfl
@[simp] theorem State.push_isLocked (x : Num) : (s.push x).isLocked = s.isLocked := rfl
@[simp] theorem State.push_configured (x : Num) : (s.push x).configured = s.configured := rfl
@[simp] theorem State.push_faulted (x : Num) : (s.push x).faulted = s.faulted := rfl
@[simp] theorem State.push_faultCause (x : Num) : (s.push x).faultCause = s.faultCause := rfl
@[simp] theorem State.push_h (x : Num) : (s.push x).h = s.h := rfl
@[simp] theorem State.push_dh (x : Num) : (s.push x).dh = s.dh := rfl
@[simp] theorem State.push_wMf (x : Num) : (s.push x).wMf = (fbPush s.cfg s.mf x).hist := rfl
@[simp] theorem State.push_wDmf (x : Num) : (s.push x).wDmf = (fbPush s.cfg s.dmf x).hist := rfl

/-! ### enterFault -/

@[simp] theorem State.enterFault_cfg (c : FaultCause) : (s.enterFault c).cfg = s.cfg := rfl
@[simp] theorem State.enterFault_freeIndex (c : FaultCause) : (s.enterFault c).freeIndex = s.freeIndex + 8 := rfl
@[simp] theorem State.enterFault_input (c : FaultCause) : (s.enterFault c).input = s.input := rfl
@[simp] theorem State.enterFault_pos (c : FaultCause) : (s.enterFault c).pos = s.pos := rfl
@[simp] theorem State.enterFault_output (c : FaultCause) : (s.enterFault c).output = s.output := rfl
@[simp] theorem State.enterFault_k (c : FaultCause) : (s.enterFault c).k = s.k := rfl
@[simp] theorem State.enterFault_kOut (c : FaultCause) : (s.enterFault c).kOut = s.kOut := rfl
@[simp] theorem State.enterFault_npfb (c : FaultCause) : (s.enterFault c).npfb = s.npfb := rfl
@[simp] theorem State.enterFault_l (c : FaultCause) : (s.enterFault c).l = s.l := rfl
@[simp] theorem State.enterFault_hLen (c : FaultCause) : (s.enterFault c).hLen = s.hLen := rfl
@[simp] theorem State.enterFault_r (c : FaultCause) : (s.enterFault c).r = s.r := rfl
@[simp] theorem State.enterFault_delNom (c : FaultCause) : (s.enterFault c).delNom = s.delNom := rfl
@[simp] theorem State.enterFault_del (c : FaultCause) :
    (s.enterFault c).del = Config.freeWord (s.freeIndex + 3) := rfl
@[simp] theorem State.enterFault_tau (c : FaultCause) : (s.enterFault c).tau = Config.freeWord s.freeIndex := rfl
@[simp] theorem State.enterFault_bf (c : FaultCause) : (s.enterFault c).bf = Config.freeWord (s.freeIndex + 1) := rfl
@[simp] theorem State.enterFault_b (c : FaultCause) : (s.enterFault c).b = Config.freeWord (s.freeIndex + 2) := rfl
@[simp] theorem State.enterFault_decim (c : FaultCause) :
    (s.enterFault c).decim = Config.freeWord (s.freeIndex + 4) := rfl
@[simp] theorem State.enterFault_q (c : FaultCause) : (s.enterFault c).q = Config.freeWord (s.freeIndex + 5) := rfl
@[simp] theorem State.enterFault_qHat (c : FaultCause) :
    (s.enterFault c).qHat = Config.freeWord (s.freeIndex + 6) := rfl
@[simp] theorem State.enterFault_qPrime (c : FaultCause) :
    (s.enterFault c).qPrime = Config.freeWord (s.freeIndex + 7) := rfl
@[simp] theorem State.enterFault_bt (c : FaultCause) : (s.enterFault c).bt = s.bt := rfl
@[simp] theorem State.enterFault_alpha (c : FaultCause) : (s.enterFault c).alpha = s.alpha := rfl
@[simp] theorem State.enterFault_beta (c : FaultCause) : (s.enterFault c).beta = s.beta := rfl
@[simp] theorem State.enterFault_isLocked (c : FaultCause) : (s.enterFault c).isLocked = s.isLocked := rfl
@[simp] theorem State.enterFault_configured (c : FaultCause) : (s.enterFault c).configured = s.configured := rfl
@[simp] theorem State.enterFault_faulted (c : FaultCause) : (s.enterFault c).faulted = true := rfl
@[simp] theorem State.enterFault_faultCause (c : FaultCause) : (s.enterFault c).faultCause = faultCode c := rfl
@[simp] theorem State.enterFault_h (c : FaultCause) : (s.enterFault c).h = s.h := rfl
@[simp] theorem State.enterFault_dh (c : FaultCause) : (s.enterFault c).dh = s.dh := rfl
@[simp] theorem State.enterFault_wMf (c : FaultCause) : (s.enterFault c).wMf = s.wMf := rfl
@[simp] theorem State.enterFault_wDmf (c : FaultCause) : (s.enterFault c).wDmf = s.wDmf := rfl

/-! ### clearFault -/

@[simp] theorem State.clearFault_cfg : s.clearFault.cfg = s.cfg := rfl
@[simp] theorem State.clearFault_freeIndex : s.clearFault.freeIndex = s.freeIndex := rfl
@[simp] theorem State.clearFault_input : s.clearFault.input = s.input := rfl
@[simp] theorem State.clearFault_pos : s.clearFault.pos = s.pos := rfl
@[simp] theorem State.clearFault_output : s.clearFault.output = s.output := rfl
@[simp] theorem State.clearFault_k : s.clearFault.k = s.k := rfl
@[simp] theorem State.clearFault_kOut : s.clearFault.kOut = s.kOut := rfl
@[simp] theorem State.clearFault_npfb : s.clearFault.npfb = s.npfb := rfl
@[simp] theorem State.clearFault_l : s.clearFault.l = s.l := rfl
@[simp] theorem State.clearFault_hLen : s.clearFault.hLen = s.hLen := rfl
@[simp] theorem State.clearFault_r : s.clearFault.r = s.r := rfl
@[simp] theorem State.clearFault_delNom : s.clearFault.delNom = s.delNom := rfl
@[simp] theorem State.clearFault_del : s.clearFault.del = s.del := rfl
@[simp] theorem State.clearFault_tau : s.clearFault.tau = s.tau := rfl
@[simp] theorem State.clearFault_bf : s.clearFault.bf = s.bf := rfl
@[simp] theorem State.clearFault_b : s.clearFault.b = s.b := rfl
@[simp] theorem State.clearFault_decim : s.clearFault.decim = s.decim := rfl
@[simp] theorem State.clearFault_q : s.clearFault.q = s.q := rfl
@[simp] theorem State.clearFault_qHat : s.clearFault.qHat = s.qHat := rfl
@[simp] theorem State.clearFault_qPrime : s.clearFault.qPrime = s.qPrime := rfl
@[simp] theorem State.clearFault_bt : s.clearFault.bt = s.bt := rfl
@[simp] theorem State.clearFault_alpha : s.clearFault.alpha = s.alpha := rfl
@[simp] theorem State.clearFault_beta : s.clearFault.beta = s.beta := rfl
@[simp] theorem State.clearFault_isLocked : s.clearFault.isLocked = s.isLocked := rfl
@[simp] theorem State.clearFault_configured : s.clearFault.configured = s.configured := rfl
@[simp] theorem State.clearFault_faulted : s.clearFault.faulted = false := rfl
@[simp] theorem State.clearFault_faultCause : s.clearFault.faultCause = 0 := rfl
@[simp] theorem State.clearFault_h : s.clearFault.h = s.h := rfl
@[simp] theorem State.clearFault_dh : s.clearFault.dh = s.dh := rfl
@[simp] theorem State.clearFault_wMf : s.clearFault.wMf = s.wMf := rfl
@[simp] theorem State.clearFault_wDmf : s.clearFault.wDmf = s.wDmf := rfl

/-! ### clearLoop -/

@[simp] theorem State.clearLoop_cfg : s.clearLoop.cfg = s.cfg := rfl
@[simp] theorem State.clearLoop_freeIndex : s.clearLoop.freeIndex = s.freeIndex := rfl
@[simp] theorem State.clearLoop_input : s.clearLoop.input = s.input := rfl
@[simp] theorem State.clearLoop_pos : s.clearLoop.pos = s.pos := rfl
@[simp] theorem State.clearLoop_output : s.clearLoop.output = s.output := rfl
@[simp] theorem State.clearLoop_k : s.clearLoop.k = s.k := rfl
@[simp] theorem State.clearLoop_kOut : s.clearLoop.kOut = s.kOut := rfl
@[simp] theorem State.clearLoop_npfb : s.clearLoop.npfb = s.npfb := rfl
@[simp] theorem State.clearLoop_l : s.clearLoop.l = s.l := rfl
@[simp] theorem State.clearLoop_hLen : s.clearLoop.hLen = s.hLen := rfl
@[simp] theorem State.clearLoop_r : s.clearLoop.r = s.r := rfl
@[simp] theorem State.clearLoop_delNom : s.clearLoop.delNom = s.delNom := rfl
@[simp] theorem State.clearLoop_del : s.clearLoop.del = s.del := rfl
@[simp] theorem State.clearLoop_tau : s.clearLoop.tau = posZero := rfl
@[simp] theorem State.clearLoop_bf : s.clearLoop.bf = posZero := rfl
@[simp] theorem State.clearLoop_b : s.clearLoop.b = 0 := rfl
@[simp] theorem State.clearLoop_decim : s.clearLoop.decim = 0 := rfl
@[simp] theorem State.clearLoop_q : s.clearLoop.q = posZero := rfl
@[simp] theorem State.clearLoop_qHat : s.clearLoop.qHat = posZero := rfl
@[simp] theorem State.clearLoop_qPrime : s.clearLoop.qPrime = posZero := rfl
@[simp] theorem State.clearLoop_bt : s.clearLoop.bt = s.bt := rfl
@[simp] theorem State.clearLoop_alpha : s.clearLoop.alpha = s.alpha := rfl
@[simp] theorem State.clearLoop_beta : s.clearLoop.beta = s.beta := rfl
@[simp] theorem State.clearLoop_isLocked : s.clearLoop.isLocked = s.isLocked := rfl
@[simp] theorem State.clearLoop_configured : s.clearLoop.configured = s.configured := rfl
@[simp] theorem State.clearLoop_faulted : s.clearLoop.faulted = s.faulted := rfl
@[simp] theorem State.clearLoop_faultCause : s.clearLoop.faultCause = s.faultCause := rfl
@[simp] theorem State.clearLoop_h : s.clearLoop.h = s.h := rfl
@[simp] theorem State.clearLoop_dh : s.clearLoop.dh = s.dh := rfl
@[simp] theorem State.clearLoop_wMf : s.clearLoop.wMf = s.wMf := rfl
@[simp] theorem State.clearLoop_wDmf : s.clearLoop.wDmf = s.wDmf := rfl

/-! ### writeBandwidth -/

@[simp] theorem State.writeBandwidth_cfg (v : Word) : (s.writeBandwidth v).cfg = s.cfg := rfl
@[simp] theorem State.writeBandwidth_freeIndex (v : Word) : (s.writeBandwidth v).freeIndex = s.freeIndex := rfl
@[simp] theorem State.writeBandwidth_input (v : Word) : (s.writeBandwidth v).input = s.input := rfl
@[simp] theorem State.writeBandwidth_pos (v : Word) : (s.writeBandwidth v).pos = s.pos := rfl
@[simp] theorem State.writeBandwidth_output (v : Word) : (s.writeBandwidth v).output = s.output := rfl
@[simp] theorem State.writeBandwidth_k (v : Word) : (s.writeBandwidth v).k = s.k := rfl
@[simp] theorem State.writeBandwidth_kOut (v : Word) : (s.writeBandwidth v).kOut = s.kOut := rfl
@[simp] theorem State.writeBandwidth_npfb (v : Word) : (s.writeBandwidth v).npfb = s.npfb := rfl
@[simp] theorem State.writeBandwidth_l (v : Word) : (s.writeBandwidth v).l = s.l := rfl
@[simp] theorem State.writeBandwidth_hLen (v : Word) : (s.writeBandwidth v).hLen = s.hLen := rfl
@[simp] theorem State.writeBandwidth_r (v : Word) : (s.writeBandwidth v).r = s.r := rfl
@[simp] theorem State.writeBandwidth_delNom (v : Word) : (s.writeBandwidth v).delNom = s.delNom := rfl
@[simp] theorem State.writeBandwidth_del (v : Word) : (s.writeBandwidth v).del = s.del := rfl
@[simp] theorem State.writeBandwidth_tau (v : Word) : (s.writeBandwidth v).tau = s.tau := rfl
@[simp] theorem State.writeBandwidth_bf (v : Word) : (s.writeBandwidth v).bf = s.bf := rfl
@[simp] theorem State.writeBandwidth_b (v : Word) : (s.writeBandwidth v).b = s.b := rfl
@[simp] theorem State.writeBandwidth_decim (v : Word) : (s.writeBandwidth v).decim = s.decim := rfl
@[simp] theorem State.writeBandwidth_q (v : Word) : (s.writeBandwidth v).q = s.q := rfl
@[simp] theorem State.writeBandwidth_qHat (v : Word) : (s.writeBandwidth v).qHat = s.qHat := rfl
@[simp] theorem State.writeBandwidth_qPrime (v : Word) : (s.writeBandwidth v).qPrime = s.qPrime := rfl
@[simp] theorem State.writeBandwidth_bt (v : Word) : (s.writeBandwidth v).bt = v := rfl
@[simp] theorem State.writeBandwidth_alpha (v : Word) : (s.writeBandwidth v).alpha = fsub fone v := rfl
@[simp] theorem State.writeBandwidth_beta (v : Word) : (s.writeBandwidth v).beta = fmul c022 v := rfl
@[simp] theorem State.writeBandwidth_isLocked (v : Word) : (s.writeBandwidth v).isLocked = s.isLocked := rfl
@[simp] theorem State.writeBandwidth_configured (v : Word) : (s.writeBandwidth v).configured = s.configured := rfl
@[simp] theorem State.writeBandwidth_faulted (v : Word) : (s.writeBandwidth v).faulted = s.faulted := rfl
@[simp] theorem State.writeBandwidth_faultCause (v : Word) : (s.writeBandwidth v).faultCause = s.faultCause := rfl
@[simp] theorem State.writeBandwidth_h (v : Word) : (s.writeBandwidth v).h = s.h := rfl
@[simp] theorem State.writeBandwidth_dh (v : Word) : (s.writeBandwidth v).dh = s.dh := rfl
@[simp] theorem State.writeBandwidth_wMf (v : Word) : (s.writeBandwidth v).wMf = s.wMf := rfl
@[simp] theorem State.writeBandwidth_wDmf (v : Word) : (s.writeBandwidth v).wDmf = s.wDmf := rfl

/-! ### writeOutputRate -/

@[simp] theorem State.writeOutputRate_cfg (ko : Word) : (s.writeOutputRate ko).cfg = s.cfg := rfl
@[simp] theorem State.writeOutputRate_freeIndex (ko : Word) : (s.writeOutputRate ko).freeIndex = s.freeIndex := rfl
@[simp] theorem State.writeOutputRate_input (ko : Word) : (s.writeOutputRate ko).input = s.input := rfl
@[simp] theorem State.writeOutputRate_pos (ko : Word) : (s.writeOutputRate ko).pos = s.pos := rfl
@[simp] theorem State.writeOutputRate_output (ko : Word) : (s.writeOutputRate ko).output = s.output := rfl
@[simp] theorem State.writeOutputRate_k (ko : Word) : (s.writeOutputRate ko).k = s.k := rfl
@[simp] theorem State.writeOutputRate_kOut (ko : Word) : (s.writeOutputRate ko).kOut = ko := rfl
@[simp] theorem State.writeOutputRate_npfb (ko : Word) : (s.writeOutputRate ko).npfb = s.npfb := rfl
@[simp] theorem State.writeOutputRate_l (ko : Word) : (s.writeOutputRate ko).l = s.l := rfl
@[simp] theorem State.writeOutputRate_hLen (ko : Word) : (s.writeOutputRate ko).hLen = s.hLen := rfl
@[simp] theorem State.writeOutputRate_r (ko : Word) :
    (s.writeOutputRate ko).r = fdiv (f32 ko.toNat) (f32 s.k.toNat) := rfl
@[simp] theorem State.writeOutputRate_delNom (ko : Word) :
    (s.writeOutputRate ko).delNom = fdiv (f32 s.k.toNat) (f32 ko.toNat) := rfl
@[simp] theorem State.writeOutputRate_del (ko : Word) :
    (s.writeOutputRate ko).del = fdiv (f32 s.k.toNat) (f32 ko.toNat) := rfl
@[simp] theorem State.writeOutputRate_tau (ko : Word) : (s.writeOutputRate ko).tau = s.tau := rfl
@[simp] theorem State.writeOutputRate_bf (ko : Word) : (s.writeOutputRate ko).bf = s.bf := rfl
@[simp] theorem State.writeOutputRate_b (ko : Word) : (s.writeOutputRate ko).b = s.b := rfl
@[simp] theorem State.writeOutputRate_decim (ko : Word) : (s.writeOutputRate ko).decim = s.decim := rfl
@[simp] theorem State.writeOutputRate_q (ko : Word) : (s.writeOutputRate ko).q = s.q := rfl
@[simp] theorem State.writeOutputRate_qHat (ko : Word) : (s.writeOutputRate ko).qHat = s.qHat := rfl
@[simp] theorem State.writeOutputRate_qPrime (ko : Word) : (s.writeOutputRate ko).qPrime = s.qPrime := rfl
@[simp] theorem State.writeOutputRate_bt (ko : Word) : (s.writeOutputRate ko).bt = s.bt := rfl
@[simp] theorem State.writeOutputRate_alpha (ko : Word) : (s.writeOutputRate ko).alpha = s.alpha := rfl
@[simp] theorem State.writeOutputRate_beta (ko : Word) : (s.writeOutputRate ko).beta = s.beta := rfl
@[simp] theorem State.writeOutputRate_isLocked (ko : Word) : (s.writeOutputRate ko).isLocked = s.isLocked := rfl
@[simp] theorem State.writeOutputRate_configured (ko : Word) : (s.writeOutputRate ko).configured = s.configured := rfl
@[simp] theorem State.writeOutputRate_faulted (ko : Word) : (s.writeOutputRate ko).faulted = s.faulted := rfl
@[simp] theorem State.writeOutputRate_faultCause (ko : Word) : (s.writeOutputRate ko).faultCause = s.faultCause := rfl
@[simp] theorem State.writeOutputRate_h (ko : Word) : (s.writeOutputRate ko).h = s.h := rfl
@[simp] theorem State.writeOutputRate_dh (ko : Word) : (s.writeOutputRate ko).dh = s.dh := rfl
@[simp] theorem State.writeOutputRate_wMf (ko : Word) : (s.writeOutputRate ko).wMf = s.wMf := rfl
@[simp] theorem State.writeOutputRate_wDmf (ko : Word) : (s.writeOutputRate ko).wDmf = s.wDmf := rfl

/-! ### writeRate -/

@[simp] theorem State.writeRate_cfg (v : Word) : (s.writeRate v).cfg = s.cfg := rfl
@[simp] theorem State.writeRate_freeIndex (v : Word) : (s.writeRate v).freeIndex = s.freeIndex := rfl
@[simp] theorem State.writeRate_input (v : Word) : (s.writeRate v).input = s.input := rfl
@[simp] theorem State.writeRate_pos (v : Word) : (s.writeRate v).pos = s.pos := rfl
@[simp] theorem State.writeRate_output (v : Word) : (s.writeRate v).output = s.output := rfl
@[simp] theorem State.writeRate_k (v : Word) : (s.writeRate v).k = s.k := rfl
@[simp] theorem State.writeRate_kOut (v : Word) : (s.writeRate v).kOut = s.kOut := rfl
@[simp] theorem State.writeRate_npfb (v : Word) : (s.writeRate v).npfb = s.npfb := rfl
@[simp] theorem State.writeRate_l (v : Word) : (s.writeRate v).l = s.l := rfl
@[simp] theorem State.writeRate_hLen (v : Word) : (s.writeRate v).hLen = s.hLen := rfl
@[simp] theorem State.writeRate_r (v : Word) : (s.writeRate v).r = v := rfl
@[simp] theorem State.writeRate_delNom (v : Word) : (s.writeRate v).delNom = fdiv fone v := rfl
@[simp] theorem State.writeRate_del (v : Word) : (s.writeRate v).del = fdiv fone v := rfl
@[simp] theorem State.writeRate_tau (v : Word) : (s.writeRate v).tau = s.tau := rfl
@[simp] theorem State.writeRate_bf (v : Word) : (s.writeRate v).bf = s.bf := rfl
@[simp] theorem State.writeRate_b (v : Word) : (s.writeRate v).b = s.b := rfl
@[simp] theorem State.writeRate_decim (v : Word) : (s.writeRate v).decim = s.decim := rfl
@[simp] theorem State.writeRate_q (v : Word) : (s.writeRate v).q = s.q := rfl
@[simp] theorem State.writeRate_qHat (v : Word) : (s.writeRate v).qHat = s.qHat := rfl
@[simp] theorem State.writeRate_qPrime (v : Word) : (s.writeRate v).qPrime = s.qPrime := rfl
@[simp] theorem State.writeRate_bt (v : Word) : (s.writeRate v).bt = s.bt := rfl
@[simp] theorem State.writeRate_alpha (v : Word) : (s.writeRate v).alpha = s.alpha := rfl
@[simp] theorem State.writeRate_beta (v : Word) : (s.writeRate v).beta = s.beta := rfl
@[simp] theorem State.writeRate_isLocked (v : Word) : (s.writeRate v).isLocked = s.isLocked := rfl
@[simp] theorem State.writeRate_configured (v : Word) : (s.writeRate v).configured = s.configured := rfl
@[simp] theorem State.writeRate_faulted (v : Word) : (s.writeRate v).faulted = s.faulted := rfl
@[simp] theorem State.writeRate_faultCause (v : Word) : (s.writeRate v).faultCause = s.faultCause := rfl
@[simp] theorem State.writeRate_h (v : Word) : (s.writeRate v).h = s.h := rfl
@[simp] theorem State.writeRate_dh (v : Word) : (s.writeRate v).dh = s.dh := rfl
@[simp] theorem State.writeRate_wMf (v : Word) : (s.writeRate v).wMf = s.wMf := rfl
@[simp] theorem State.writeRate_wDmf (v : Word) : (s.writeRate v).wDmf = s.wDmf := rfl

/-! ### updateLoop -/

@[simp] theorem State.updateLoop_cfg (t : Word) : (s.updateLoop t).cfg = s.cfg := rfl
@[simp] theorem State.updateLoop_freeIndex (t : Word) : (s.updateLoop t).freeIndex = s.freeIndex := rfl
@[simp] theorem State.updateLoop_input (t : Word) : (s.updateLoop t).input = s.input := rfl
@[simp] theorem State.updateLoop_pos (t : Word) : (s.updateLoop t).pos = s.pos := rfl
@[simp] theorem State.updateLoop_output (t : Word) : (s.updateLoop t).output = s.output := rfl
@[simp] theorem State.updateLoop_k (t : Word) : (s.updateLoop t).k = s.k := rfl
@[simp] theorem State.updateLoop_kOut (t : Word) : (s.updateLoop t).kOut = s.kOut := rfl
@[simp] theorem State.updateLoop_npfb (t : Word) : (s.updateLoop t).npfb = s.npfb := rfl
@[simp] theorem State.updateLoop_l (t : Word) : (s.updateLoop t).l = s.l := rfl
@[simp] theorem State.updateLoop_hLen (t : Word) : (s.updateLoop t).hLen = s.hLen := rfl
@[simp] theorem State.updateLoop_r (t : Word) : (s.updateLoop t).r = s.r := rfl
@[simp] theorem State.updateLoop_delNom (t : Word) : (s.updateLoop t).delNom = s.delNom := rfl
@[simp] theorem State.updateLoop_del (t : Word) : (s.updateLoop t).del = stepFor s (smoothed s (clip t)) := rfl
@[simp] theorem State.updateLoop_tau (t : Word) : (s.updateLoop t).tau = s.tau := rfl
@[simp] theorem State.updateLoop_bf (t : Word) : (s.updateLoop t).bf = s.bf := rfl
@[simp] theorem State.updateLoop_b (t : Word) : (s.updateLoop t).b = s.b := rfl
@[simp] theorem State.updateLoop_decim (t : Word) : (s.updateLoop t).decim = s.decim := rfl
@[simp] theorem State.updateLoop_q (t : Word) : (s.updateLoop t).q = clip t := rfl
@[simp] theorem State.updateLoop_qHat (t : Word) : (s.updateLoop t).qHat = smoothed s (clip t) := rfl
@[simp] theorem State.updateLoop_qPrime (t : Word) : (s.updateLoop t).qPrime = smoothed s (clip t) := rfl
@[simp] theorem State.updateLoop_bt (t : Word) : (s.updateLoop t).bt = s.bt := rfl
@[simp] theorem State.updateLoop_alpha (t : Word) : (s.updateLoop t).alpha = s.alpha := rfl
@[simp] theorem State.updateLoop_beta (t : Word) : (s.updateLoop t).beta = s.beta := rfl
@[simp] theorem State.updateLoop_isLocked (t : Word) : (s.updateLoop t).isLocked = s.isLocked := rfl
@[simp] theorem State.updateLoop_configured (t : Word) : (s.updateLoop t).configured = s.configured := rfl
@[simp] theorem State.updateLoop_faulted (t : Word) : (s.updateLoop t).faulted = s.faulted := rfl
@[simp] theorem State.updateLoop_faultCause (t : Word) : (s.updateLoop t).faultCause = s.faultCause := rfl
@[simp] theorem State.updateLoop_h (t : Word) : (s.updateLoop t).h = s.h := rfl
@[simp] theorem State.updateLoop_dh (t : Word) : (s.updateLoop t).dh = s.dh := rfl
@[simp] theorem State.updateLoop_wMf (t : Word) : (s.updateLoop t).wMf = s.wMf := rfl
@[simp] theorem State.updateLoop_wDmf (t : Word) : (s.updateLoop t).wDmf = s.wDmf := rfl

/-! ### clearDecim -/

@[simp] theorem State.clearDecim_cfg : s.clearDecim.cfg = s.cfg := rfl
@[simp] theorem State.clearDecim_freeIndex : s.clearDecim.freeIndex = s.freeIndex := rfl
@[simp] theorem State.clearDecim_input : s.clearDecim.input = s.input := rfl
@[simp] theorem State.clearDecim_pos : s.clearDecim.pos = s.pos := rfl
@[simp] theorem State.clearDecim_output : s.clearDecim.output = s.output := rfl
@[simp] theorem State.clearDecim_k : s.clearDecim.k = s.k := rfl
@[simp] theorem State.clearDecim_kOut : s.clearDecim.kOut = s.kOut := rfl
@[simp] theorem State.clearDecim_npfb : s.clearDecim.npfb = s.npfb := rfl
@[simp] theorem State.clearDecim_l : s.clearDecim.l = s.l := rfl
@[simp] theorem State.clearDecim_hLen : s.clearDecim.hLen = s.hLen := rfl
@[simp] theorem State.clearDecim_r : s.clearDecim.r = s.r := rfl
@[simp] theorem State.clearDecim_delNom : s.clearDecim.delNom = s.delNom := rfl
@[simp] theorem State.clearDecim_del : s.clearDecim.del = s.del := rfl
@[simp] theorem State.clearDecim_tau : s.clearDecim.tau = s.tau := rfl
@[simp] theorem State.clearDecim_bf : s.clearDecim.bf = s.bf := rfl
@[simp] theorem State.clearDecim_b : s.clearDecim.b = s.b := rfl
@[simp] theorem State.clearDecim_decim : s.clearDecim.decim = 0 := rfl
@[simp] theorem State.clearDecim_q : s.clearDecim.q = s.q := rfl
@[simp] theorem State.clearDecim_qHat : s.clearDecim.qHat = s.qHat := rfl
@[simp] theorem State.clearDecim_qPrime : s.clearDecim.qPrime = s.qPrime := rfl
@[simp] theorem State.clearDecim_bt : s.clearDecim.bt = s.bt := rfl
@[simp] theorem State.clearDecim_alpha : s.clearDecim.alpha = s.alpha := rfl
@[simp] theorem State.clearDecim_beta : s.clearDecim.beta = s.beta := rfl
@[simp] theorem State.clearDecim_isLocked : s.clearDecim.isLocked = s.isLocked := rfl
@[simp] theorem State.clearDecim_configured : s.clearDecim.configured = s.configured := rfl
@[simp] theorem State.clearDecim_faulted : s.clearDecim.faulted = s.faulted := rfl
@[simp] theorem State.clearDecim_faultCause : s.clearDecim.faultCause = s.faultCause := rfl
@[simp] theorem State.clearDecim_h : s.clearDecim.h = s.h := rfl
@[simp] theorem State.clearDecim_dh : s.clearDecim.dh = s.dh := rfl
@[simp] theorem State.clearDecim_wMf : s.clearDecim.wMf = s.wMf := rfl
@[simp] theorem State.clearDecim_wDmf : s.clearDecim.wDmf = s.wDmf := rfl

/-! ### countOutput -/

@[simp] theorem State.countOutput_cfg : s.countOutput.cfg = s.cfg := rfl
@[simp] theorem State.countOutput_freeIndex : s.countOutput.freeIndex = s.freeIndex := rfl
@[simp] theorem State.countOutput_input : s.countOutput.input = s.input := rfl
@[simp] theorem State.countOutput_pos : s.countOutput.pos = s.pos := rfl
@[simp] theorem State.countOutput_output : s.countOutput.output = s.output := rfl
@[simp] theorem State.countOutput_k : s.countOutput.k = s.k := rfl
@[simp] theorem State.countOutput_kOut : s.countOutput.kOut = s.kOut := rfl
@[simp] theorem State.countOutput_npfb : s.countOutput.npfb = s.npfb := rfl
@[simp] theorem State.countOutput_l : s.countOutput.l = s.l := rfl
@[simp] theorem State.countOutput_hLen : s.countOutput.hLen = s.hLen := rfl
@[simp] theorem State.countOutput_r : s.countOutput.r = s.r := rfl
@[simp] theorem State.countOutput_delNom : s.countOutput.delNom = s.delNom := rfl
@[simp] theorem State.countOutput_del : s.countOutput.del = s.del := rfl
@[simp] theorem State.countOutput_tau : s.countOutput.tau = s.tau := rfl
@[simp] theorem State.countOutput_bf : s.countOutput.bf = s.bf := rfl
@[simp] theorem State.countOutput_b : s.countOutput.b = s.b := rfl
@[simp] theorem State.countOutput_decim : s.countOutput.decim = s.decim + 1 := rfl
@[simp] theorem State.countOutput_q : s.countOutput.q = s.q := rfl
@[simp] theorem State.countOutput_qHat : s.countOutput.qHat = s.qHat := rfl
@[simp] theorem State.countOutput_qPrime : s.countOutput.qPrime = s.qPrime := rfl
@[simp] theorem State.countOutput_bt : s.countOutput.bt = s.bt := rfl
@[simp] theorem State.countOutput_alpha : s.countOutput.alpha = s.alpha := rfl
@[simp] theorem State.countOutput_beta : s.countOutput.beta = s.beta := rfl
@[simp] theorem State.countOutput_isLocked : s.countOutput.isLocked = s.isLocked := rfl
@[simp] theorem State.countOutput_configured : s.countOutput.configured = s.configured := rfl
@[simp] theorem State.countOutput_faulted : s.countOutput.faulted = s.faulted := rfl
@[simp] theorem State.countOutput_faultCause : s.countOutput.faultCause = s.faultCause := rfl
@[simp] theorem State.countOutput_h : s.countOutput.h = s.h := rfl
@[simp] theorem State.countOutput_dh : s.countOutput.dh = s.dh := rfl
@[simp] theorem State.countOutput_wMf : s.countOutput.wMf = s.wMf := rfl
@[simp] theorem State.countOutput_wDmf : s.countOutput.wDmf = s.wDmf := rfl

/-! ### advancePhase -/

@[simp] theorem State.advancePhase_cfg : s.advancePhase.cfg = s.cfg := rfl
@[simp] theorem State.advancePhase_freeIndex : s.advancePhase.freeIndex = s.freeIndex := rfl
@[simp] theorem State.advancePhase_input : s.advancePhase.input = s.input := rfl
@[simp] theorem State.advancePhase_pos : s.advancePhase.pos = s.pos := rfl
@[simp] theorem State.advancePhase_output : s.advancePhase.output = s.output := rfl
@[simp] theorem State.advancePhase_k : s.advancePhase.k = s.k := rfl
@[simp] theorem State.advancePhase_kOut : s.advancePhase.kOut = s.kOut := rfl
@[simp] theorem State.advancePhase_npfb : s.advancePhase.npfb = s.npfb := rfl
@[simp] theorem State.advancePhase_l : s.advancePhase.l = s.l := rfl
@[simp] theorem State.advancePhase_hLen : s.advancePhase.hLen = s.hLen := rfl
@[simp] theorem State.advancePhase_r : s.advancePhase.r = s.r := rfl
@[simp] theorem State.advancePhase_delNom : s.advancePhase.delNom = s.delNom := rfl
@[simp] theorem State.advancePhase_del : s.advancePhase.del = s.del := rfl
@[simp] theorem State.advancePhase_tau : s.advancePhase.tau = fadd s.tau s.del := rfl
@[simp] theorem State.advancePhase_bf : s.advancePhase.bf = fmul (fadd s.tau s.del) (f32 s.npfb.toNat) := rfl
@[simp] theorem State.advancePhase_b : s.advancePhase.b = s.b := rfl
@[simp] theorem State.advancePhase_decim : s.advancePhase.decim = s.decim := rfl
@[simp] theorem State.advancePhase_q : s.advancePhase.q = s.q := rfl
@[simp] theorem State.advancePhase_qHat : s.advancePhase.qHat = s.qHat := rfl
@[simp] theorem State.advancePhase_qPrime : s.advancePhase.qPrime = s.qPrime := rfl
@[simp] theorem State.advancePhase_bt : s.advancePhase.bt = s.bt := rfl
@[simp] theorem State.advancePhase_alpha : s.advancePhase.alpha = s.alpha := rfl
@[simp] theorem State.advancePhase_beta : s.advancePhase.beta = s.beta := rfl
@[simp] theorem State.advancePhase_isLocked : s.advancePhase.isLocked = s.isLocked := rfl
@[simp] theorem State.advancePhase_configured : s.advancePhase.configured = s.configured := rfl
@[simp] theorem State.advancePhase_faulted : s.advancePhase.faulted = s.faulted := rfl
@[simp] theorem State.advancePhase_faultCause : s.advancePhase.faultCause = s.faultCause := rfl
@[simp] theorem State.advancePhase_h : s.advancePhase.h = s.h := rfl
@[simp] theorem State.advancePhase_dh : s.advancePhase.dh = s.dh := rfl
@[simp] theorem State.advancePhase_wMf : s.advancePhase.wMf = s.wMf := rfl
@[simp] theorem State.advancePhase_wDmf : s.advancePhase.wDmf = s.wDmf := rfl

/-! ### roundBranch -/

@[simp] theorem State.roundBranch_cfg : s.roundBranch.cfg = s.cfg := rfl
@[simp] theorem State.roundBranch_freeIndex : s.roundBranch.freeIndex = s.freeIndex := rfl
@[simp] theorem State.roundBranch_input : s.roundBranch.input = s.input := rfl
@[simp] theorem State.roundBranch_pos : s.roundBranch.pos = s.pos := rfl
@[simp] theorem State.roundBranch_output : s.roundBranch.output = s.output := rfl
@[simp] theorem State.roundBranch_k : s.roundBranch.k = s.k := rfl
@[simp] theorem State.roundBranch_kOut : s.roundBranch.kOut = s.kOut := rfl
@[simp] theorem State.roundBranch_npfb : s.roundBranch.npfb = s.npfb := rfl
@[simp] theorem State.roundBranch_l : s.roundBranch.l = s.l := rfl
@[simp] theorem State.roundBranch_hLen : s.roundBranch.hLen = s.hLen := rfl
@[simp] theorem State.roundBranch_r : s.roundBranch.r = s.r := rfl
@[simp] theorem State.roundBranch_delNom : s.roundBranch.delNom = s.delNom := rfl
@[simp] theorem State.roundBranch_del : s.roundBranch.del = s.del := rfl
@[simp] theorem State.roundBranch_tau : s.roundBranch.tau = s.tau := rfl
@[simp] theorem State.roundBranch_bf : s.roundBranch.bf = s.bf := rfl
@[simp] theorem State.roundBranch_b : s.roundBranch.b = BitVec.ofInt 32 (roundHA s.bf) := rfl
@[simp] theorem State.roundBranch_decim : s.roundBranch.decim = s.decim := rfl
@[simp] theorem State.roundBranch_q : s.roundBranch.q = s.q := rfl
@[simp] theorem State.roundBranch_qHat : s.roundBranch.qHat = s.qHat := rfl
@[simp] theorem State.roundBranch_qPrime : s.roundBranch.qPrime = s.qPrime := rfl
@[simp] theorem State.roundBranch_bt : s.roundBranch.bt = s.bt := rfl
@[simp] theorem State.roundBranch_alpha : s.roundBranch.alpha = s.alpha := rfl
@[simp] theorem State.roundBranch_beta : s.roundBranch.beta = s.beta := rfl
@[simp] theorem State.roundBranch_isLocked : s.roundBranch.isLocked = s.isLocked := rfl
@[simp] theorem State.roundBranch_configured : s.roundBranch.configured = s.configured := rfl
@[simp] theorem State.roundBranch_faulted : s.roundBranch.faulted = s.faulted := rfl
@[simp] theorem State.roundBranch_faultCause : s.roundBranch.faultCause = s.faultCause := rfl
@[simp] theorem State.roundBranch_h : s.roundBranch.h = s.h := rfl
@[simp] theorem State.roundBranch_dh : s.roundBranch.dh = s.dh := rfl
@[simp] theorem State.roundBranch_wMf : s.roundBranch.wMf = s.wMf := rfl
@[simp] theorem State.roundBranch_wDmf : s.roundBranch.wDmf = s.wDmf := rfl

/-! ### correct -/

@[simp] theorem State.correct_cfg : s.correct.cfg = s.cfg := rfl
@[simp] theorem State.correct_freeIndex : s.correct.freeIndex = s.freeIndex := rfl
@[simp] theorem State.correct_input : s.correct.input = s.input := rfl
@[simp] theorem State.correct_pos : s.correct.pos = s.pos := rfl
@[simp] theorem State.correct_output : s.correct.output = s.output := rfl
@[simp] theorem State.correct_k : s.correct.k = s.k := rfl
@[simp] theorem State.correct_kOut : s.correct.kOut = s.kOut := rfl
@[simp] theorem State.correct_npfb : s.correct.npfb = s.npfb := rfl
@[simp] theorem State.correct_l : s.correct.l = s.l := rfl
@[simp] theorem State.correct_hLen : s.correct.hLen = s.hLen := rfl
@[simp] theorem State.correct_r : s.correct.r = s.r := rfl
@[simp] theorem State.correct_delNom : s.correct.delNom = s.delNom := rfl
@[simp] theorem State.correct_del : s.correct.del = s.del := rfl
@[simp] theorem State.correct_tau : s.correct.tau = fsub s.tau fone := rfl
@[simp] theorem State.correct_bf : s.correct.bf = fsub s.bf (f32 s.npfb.toNat) := rfl
@[simp] theorem State.correct_b : s.correct.b = s.b - s.npfb := rfl
@[simp] theorem State.correct_decim : s.correct.decim = s.decim := rfl
@[simp] theorem State.correct_q : s.correct.q = s.q := rfl
@[simp] theorem State.correct_qHat : s.correct.qHat = s.qHat := rfl
@[simp] theorem State.correct_qPrime : s.correct.qPrime = s.qPrime := rfl
@[simp] theorem State.correct_bt : s.correct.bt = s.bt := rfl
@[simp] theorem State.correct_alpha : s.correct.alpha = s.alpha := rfl
@[simp] theorem State.correct_beta : s.correct.beta = s.beta := rfl
@[simp] theorem State.correct_isLocked : s.correct.isLocked = s.isLocked := rfl
@[simp] theorem State.correct_configured : s.correct.configured = s.configured := rfl
@[simp] theorem State.correct_faulted : s.correct.faulted = s.faulted := rfl
@[simp] theorem State.correct_faultCause : s.correct.faultCause = s.faultCause := rfl
@[simp] theorem State.correct_h : s.correct.h = s.h := rfl
@[simp] theorem State.correct_dh : s.correct.dh = s.dh := rfl
@[simp] theorem State.correct_wMf : s.correct.wMf = s.wMf := rfl
@[simp] theorem State.correct_wDmf : s.correct.wDmf = s.wDmf := rfl

/-! ### writeInstance -/

@[simp] theorem State.writeInstance_cfg (k npfb l : Word) (c : List Num) :
    (s.writeInstance k npfb l c).cfg = s.cfg := rfl
@[simp] theorem State.writeInstance_freeIndex (k npfb l : Word) (c : List Num) :
    (s.writeInstance k npfb l c).freeIndex = s.freeIndex := rfl
@[simp] theorem State.writeInstance_input (k npfb l : Word) (c : List Num) :
    (s.writeInstance k npfb l c).input = s.input := rfl
@[simp] theorem State.writeInstance_pos (k npfb l : Word) (c : List Num) :
    (s.writeInstance k npfb l c).pos = s.pos := rfl
@[simp] theorem State.writeInstance_output (k npfb l : Word) (c : List Num) :
    (s.writeInstance k npfb l c).output = s.output := rfl
@[simp] theorem State.writeInstance_k (k npfb l : Word) (c : List Num) : (s.writeInstance k npfb l c).k = k := rfl
@[simp] theorem State.writeInstance_kOut (k npfb l : Word) (c : List Num) :
    (s.writeInstance k npfb l c).kOut = s.kOut := rfl
@[simp] theorem State.writeInstance_npfb (k npfb l : Word) (c : List Num) :
    (s.writeInstance k npfb l c).npfb = npfb := rfl
@[simp] theorem State.writeInstance_l (k npfb l : Word) (c : List Num) : (s.writeInstance k npfb l c).l = l := rfl
@[simp] theorem State.writeInstance_hLen (k npfb l : Word) (c : List Num) :
    (s.writeInstance k npfb l c).hLen = branchLength l npfb := rfl
@[simp] theorem State.writeInstance_r (k npfb l : Word) (c : List Num) : (s.writeInstance k npfb l c).r = s.r := rfl
@[simp] theorem State.writeInstance_delNom (k npfb l : Word) (c : List Num) :
    (s.writeInstance k npfb l c).delNom = s.delNom := rfl
@[simp] theorem State.writeInstance_del (k npfb l : Word) (c : List Num) :
    (s.writeInstance k npfb l c).del = s.del := rfl
@[simp] theorem State.writeInstance_tau (k npfb l : Word) (c : List Num) :
    (s.writeInstance k npfb l c).tau = s.tau := rfl
@[simp] theorem State.writeInstance_bf (k npfb l : Word) (c : List Num) :
    (s.writeInstance k npfb l c).bf = s.bf := rfl
@[simp] theorem State.writeInstance_b (k npfb l : Word) (c : List Num) : (s.writeInstance k npfb l c).b = s.b := rfl
@[simp] theorem State.writeInstance_decim (k npfb l : Word) (c : List Num) :
    (s.writeInstance k npfb l c).decim = s.decim := rfl
@[simp] theorem State.writeInstance_q (k npfb l : Word) (c : List Num) : (s.writeInstance k npfb l c).q = s.q := rfl
@[simp] theorem State.writeInstance_qHat (k npfb l : Word) (c : List Num) :
    (s.writeInstance k npfb l c).qHat = s.qHat := rfl
@[simp] theorem State.writeInstance_qPrime (k npfb l : Word) (c : List Num) :
    (s.writeInstance k npfb l c).qPrime = s.qPrime := rfl
@[simp] theorem State.writeInstance_bt (k npfb l : Word) (c : List Num) :
    (s.writeInstance k npfb l c).bt = s.bt := rfl
@[simp] theorem State.writeInstance_alpha (k npfb l : Word) (c : List Num) :
    (s.writeInstance k npfb l c).alpha = s.alpha := rfl
@[simp] theorem State.writeInstance_beta (k npfb l : Word) (c : List Num) :
    (s.writeInstance k npfb l c).beta = s.beta := rfl
@[simp] theorem State.writeInstance_isLocked (k npfb l : Word) (c : List Num) :
    (s.writeInstance k npfb l c).isLocked = false := rfl
@[simp] theorem State.writeInstance_configured (k npfb l : Word) (c : List Num) :
    (s.writeInstance k npfb l c).configured = true := rfl
@[simp] theorem State.writeInstance_faulted (k npfb l : Word) (c : List Num) :
    (s.writeInstance k npfb l c).faulted = s.faulted := rfl
@[simp] theorem State.writeInstance_faultCause (k npfb l : Word) (c : List Num) :
    (s.writeInstance k npfb l c).faultCause = s.faultCause := rfl
@[simp] theorem State.writeInstance_h (k npfb l : Word) (c : List Num) : (s.writeInstance k npfb l c).h = c := rfl
@[simp] theorem State.writeInstance_dh (k npfb l : Word) (c : List Num) :
    (s.writeInstance k npfb l c).dh = derivatives c l.toNat npfb := rfl
@[simp] theorem State.writeInstance_wMf (k npfb l : Word) (c : List Num) :
    (s.writeInstance k npfb l c).wMf = s.wMf := rfl
@[simp] theorem State.writeInstance_wDmf (k npfb l : Word) (c : List Num) :
    (s.writeInstance k npfb l c).wDmf = s.wDmf := rfl

/-! ### clampDecim -/

@[simp] theorem State.clampDecim_cfg (ko : Word) : (s.clampDecim ko).cfg = s.cfg := rfl
@[simp] theorem State.clampDecim_freeIndex (ko : Word) : (s.clampDecim ko).freeIndex = s.freeIndex := rfl
@[simp] theorem State.clampDecim_input (ko : Word) : (s.clampDecim ko).input = s.input := rfl
@[simp] theorem State.clampDecim_pos (ko : Word) : (s.clampDecim ko).pos = s.pos := rfl
@[simp] theorem State.clampDecim_output (ko : Word) : (s.clampDecim ko).output = s.output := rfl
@[simp] theorem State.clampDecim_k (ko : Word) : (s.clampDecim ko).k = s.k := rfl
@[simp] theorem State.clampDecim_kOut (ko : Word) : (s.clampDecim ko).kOut = s.kOut := rfl
@[simp] theorem State.clampDecim_npfb (ko : Word) : (s.clampDecim ko).npfb = s.npfb := rfl
@[simp] theorem State.clampDecim_l (ko : Word) : (s.clampDecim ko).l = s.l := rfl
@[simp] theorem State.clampDecim_hLen (ko : Word) : (s.clampDecim ko).hLen = s.hLen := rfl
@[simp] theorem State.clampDecim_r (ko : Word) : (s.clampDecim ko).r = s.r := rfl
@[simp] theorem State.clampDecim_delNom (ko : Word) : (s.clampDecim ko).delNom = s.delNom := rfl
@[simp] theorem State.clampDecim_del (ko : Word) : (s.clampDecim ko).del = s.del := rfl
@[simp] theorem State.clampDecim_tau (ko : Word) : (s.clampDecim ko).tau = s.tau := rfl
@[simp] theorem State.clampDecim_bf (ko : Word) : (s.clampDecim ko).bf = s.bf := rfl
@[simp] theorem State.clampDecim_b (ko : Word) : (s.clampDecim ko).b = s.b := rfl
@[simp] theorem State.clampDecim_decim (ko : Word) :
    (s.clampDecim ko).decim = if ko.toNat < s.decim.toNat then ko else s.decim := rfl
@[simp] theorem State.clampDecim_q (ko : Word) : (s.clampDecim ko).q = s.q := rfl
@[simp] theorem State.clampDecim_qHat (ko : Word) : (s.clampDecim ko).qHat = s.qHat := rfl
@[simp] theorem State.clampDecim_qPrime (ko : Word) : (s.clampDecim ko).qPrime = s.qPrime := rfl
@[simp] theorem State.clampDecim_bt (ko : Word) : (s.clampDecim ko).bt = s.bt := rfl
@[simp] theorem State.clampDecim_alpha (ko : Word) : (s.clampDecim ko).alpha = s.alpha := rfl
@[simp] theorem State.clampDecim_beta (ko : Word) : (s.clampDecim ko).beta = s.beta := rfl
@[simp] theorem State.clampDecim_isLocked (ko : Word) : (s.clampDecim ko).isLocked = s.isLocked := rfl
@[simp] theorem State.clampDecim_configured (ko : Word) : (s.clampDecim ko).configured = s.configured := rfl
@[simp] theorem State.clampDecim_faulted (ko : Word) : (s.clampDecim ko).faulted = s.faulted := rfl
@[simp] theorem State.clampDecim_faultCause (ko : Word) : (s.clampDecim ko).faultCause = s.faultCause := rfl
@[simp] theorem State.clampDecim_h (ko : Word) : (s.clampDecim ko).h = s.h := rfl
@[simp] theorem State.clampDecim_dh (ko : Word) : (s.clampDecim ko).dh = s.dh := rfl
@[simp] theorem State.clampDecim_wMf (ko : Word) : (s.clampDecim ko).wMf = s.wMf := rfl
@[simp] theorem State.clampDecim_wDmf (ko : Word) : (s.clampDecim ko).wDmf = s.wDmf := rfl

/-! ### writeLock -/

@[simp] theorem State.writeLock_cfg (v : Bool) : (s.writeLock v).cfg = s.cfg := rfl
@[simp] theorem State.writeLock_freeIndex (v : Bool) : (s.writeLock v).freeIndex = s.freeIndex := rfl
@[simp] theorem State.writeLock_input (v : Bool) : (s.writeLock v).input = s.input := rfl
@[simp] theorem State.writeLock_pos (v : Bool) : (s.writeLock v).pos = s.pos := rfl
@[simp] theorem State.writeLock_output (v : Bool) : (s.writeLock v).output = s.output := rfl
@[simp] theorem State.writeLock_k (v : Bool) : (s.writeLock v).k = s.k := rfl
@[simp] theorem State.writeLock_kOut (v : Bool) : (s.writeLock v).kOut = s.kOut := rfl
@[simp] theorem State.writeLock_npfb (v : Bool) : (s.writeLock v).npfb = s.npfb := rfl
@[simp] theorem State.writeLock_l (v : Bool) : (s.writeLock v).l = s.l := rfl
@[simp] theorem State.writeLock_hLen (v : Bool) : (s.writeLock v).hLen = s.hLen := rfl
@[simp] theorem State.writeLock_r (v : Bool) : (s.writeLock v).r = s.r := rfl
@[simp] theorem State.writeLock_delNom (v : Bool) : (s.writeLock v).delNom = s.delNom := rfl
@[simp] theorem State.writeLock_del (v : Bool) : (s.writeLock v).del = s.del := rfl
@[simp] theorem State.writeLock_tau (v : Bool) : (s.writeLock v).tau = s.tau := rfl
@[simp] theorem State.writeLock_bf (v : Bool) : (s.writeLock v).bf = s.bf := rfl
@[simp] theorem State.writeLock_b (v : Bool) : (s.writeLock v).b = s.b := rfl
@[simp] theorem State.writeLock_decim (v : Bool) : (s.writeLock v).decim = s.decim := rfl
@[simp] theorem State.writeLock_q (v : Bool) : (s.writeLock v).q = s.q := rfl
@[simp] theorem State.writeLock_qHat (v : Bool) : (s.writeLock v).qHat = s.qHat := rfl
@[simp] theorem State.writeLock_qPrime (v : Bool) : (s.writeLock v).qPrime = s.qPrime := rfl
@[simp] theorem State.writeLock_bt (v : Bool) : (s.writeLock v).bt = s.bt := rfl
@[simp] theorem State.writeLock_alpha (v : Bool) : (s.writeLock v).alpha = s.alpha := rfl
@[simp] theorem State.writeLock_beta (v : Bool) : (s.writeLock v).beta = s.beta := rfl
@[simp] theorem State.writeLock_isLocked (v : Bool) : (s.writeLock v).isLocked = v := rfl
@[simp] theorem State.writeLock_configured (v : Bool) : (s.writeLock v).configured = s.configured := rfl
@[simp] theorem State.writeLock_faulted (v : Bool) : (s.writeLock v).faulted = s.faulted := rfl
@[simp] theorem State.writeLock_faultCause (v : Bool) : (s.writeLock v).faultCause = s.faultCause := rfl
@[simp] theorem State.writeLock_h (v : Bool) : (s.writeLock v).h = s.h := rfl
@[simp] theorem State.writeLock_dh (v : Bool) : (s.writeLock v).dh = s.dh := rfl
@[simp] theorem State.writeLock_wMf (v : Bool) : (s.writeLock v).wMf = s.wMf := rfl
@[simp] theorem State.writeLock_wDmf (v : Bool) : (s.writeLock v).wDmf = s.wDmf := rfl

/-! ### restoreStep -/

@[simp] theorem State.restoreStep_cfg : s.restoreStep.cfg = s.cfg := rfl
@[simp] theorem State.restoreStep_freeIndex : s.restoreStep.freeIndex = s.freeIndex := rfl
@[simp] theorem State.restoreStep_input : s.restoreStep.input = s.input := rfl
@[simp] theorem State.restoreStep_pos : s.restoreStep.pos = s.pos := rfl
@[simp] theorem State.restoreStep_output : s.restoreStep.output = s.output := rfl
@[simp] theorem State.restoreStep_k : s.restoreStep.k = s.k := rfl
@[simp] theorem State.restoreStep_kOut : s.restoreStep.kOut = s.kOut := rfl
@[simp] theorem State.restoreStep_npfb : s.restoreStep.npfb = s.npfb := rfl
@[simp] theorem State.restoreStep_l : s.restoreStep.l = s.l := rfl
@[simp] theorem State.restoreStep_hLen : s.restoreStep.hLen = s.hLen := rfl
@[simp] theorem State.restoreStep_r : s.restoreStep.r = s.r := rfl
@[simp] theorem State.restoreStep_delNom : s.restoreStep.delNom = s.delNom := rfl
@[simp] theorem State.restoreStep_del : s.restoreStep.del = s.delNom := rfl
@[simp] theorem State.restoreStep_tau : s.restoreStep.tau = s.tau := rfl
@[simp] theorem State.restoreStep_bf : s.restoreStep.bf = s.bf := rfl
@[simp] theorem State.restoreStep_b : s.restoreStep.b = s.b := rfl
@[simp] theorem State.restoreStep_decim : s.restoreStep.decim = s.decim := rfl
@[simp] theorem State.restoreStep_q : s.restoreStep.q = s.q := rfl
@[simp] theorem State.restoreStep_qHat : s.restoreStep.qHat = s.qHat := rfl
@[simp] theorem State.restoreStep_qPrime : s.restoreStep.qPrime = s.qPrime := rfl
@[simp] theorem State.restoreStep_bt : s.restoreStep.bt = s.bt := rfl
@[simp] theorem State.restoreStep_alpha : s.restoreStep.alpha = s.alpha := rfl
@[simp] theorem State.restoreStep_beta : s.restoreStep.beta = s.beta := rfl
@[simp] theorem State.restoreStep_isLocked : s.restoreStep.isLocked = s.isLocked := rfl
@[simp] theorem State.restoreStep_configured : s.restoreStep.configured = s.configured := rfl
@[simp] theorem State.restoreStep_faulted : s.restoreStep.faulted = s.faulted := rfl
@[simp] theorem State.restoreStep_faultCause : s.restoreStep.faultCause = s.faultCause := rfl
@[simp] theorem State.restoreStep_h : s.restoreStep.h = s.h := rfl
@[simp] theorem State.restoreStep_dh : s.restoreStep.dh = s.dh := rfl
@[simp] theorem State.restoreStep_wMf : s.restoreStep.wMf = s.wMf := rfl
@[simp] theorem State.restoreStep_wDmf : s.restoreStep.wDmf = s.wDmf := rfl

/-! ### resetLoop -/

@[simp] theorem State.resetLoop_cfg : s.resetLoop.cfg = s.cfg := rfl
@[simp] theorem State.resetLoop_freeIndex : s.resetLoop.freeIndex = s.freeIndex := rfl
@[simp] theorem State.resetLoop_input : s.resetLoop.input = s.input := rfl
@[simp] theorem State.resetLoop_pos : s.resetLoop.pos = s.pos := rfl
@[simp] theorem State.resetLoop_output : s.resetLoop.output = s.output := rfl
@[simp] theorem State.resetLoop_k : s.resetLoop.k = s.k := rfl
@[simp] theorem State.resetLoop_kOut : s.resetLoop.kOut = s.kOut := rfl
@[simp] theorem State.resetLoop_npfb : s.resetLoop.npfb = s.npfb := rfl
@[simp] theorem State.resetLoop_l : s.resetLoop.l = s.l := rfl
@[simp] theorem State.resetLoop_hLen : s.resetLoop.hLen = s.hLen := rfl
@[simp] theorem State.resetLoop_r : s.resetLoop.r = s.r := rfl
@[simp] theorem State.resetLoop_delNom : s.resetLoop.delNom = s.delNom := rfl
@[simp] theorem State.resetLoop_del : s.resetLoop.del = s.delNom := rfl
@[simp] theorem State.resetLoop_tau : s.resetLoop.tau = posZero := rfl
@[simp] theorem State.resetLoop_bf : s.resetLoop.bf = posZero := rfl
@[simp] theorem State.resetLoop_b : s.resetLoop.b = 0 := rfl
@[simp] theorem State.resetLoop_decim : s.resetLoop.decim = 0 := rfl
@[simp] theorem State.resetLoop_q : s.resetLoop.q = posZero := rfl
@[simp] theorem State.resetLoop_qHat : s.resetLoop.qHat = posZero := rfl
@[simp] theorem State.resetLoop_qPrime : s.resetLoop.qPrime = posZero := rfl
@[simp] theorem State.resetLoop_bt : s.resetLoop.bt = s.bt := rfl
@[simp] theorem State.resetLoop_alpha : s.resetLoop.alpha = s.alpha := rfl
@[simp] theorem State.resetLoop_beta : s.resetLoop.beta = s.beta := rfl
@[simp] theorem State.resetLoop_isLocked : s.resetLoop.isLocked = s.isLocked := rfl
@[simp] theorem State.resetLoop_configured : s.resetLoop.configured = s.configured := rfl
@[simp] theorem State.resetLoop_faulted : s.resetLoop.faulted = false := rfl
@[simp] theorem State.resetLoop_faultCause : s.resetLoop.faultCause = 0 := rfl
@[simp] theorem State.resetLoop_h : s.resetLoop.h = s.h := rfl
@[simp] theorem State.resetLoop_dh : s.resetLoop.dh = s.dh := rfl
@[simp] theorem State.resetLoop_wMf : s.resetLoop.wMf = List.replicate s.hLen.toNat (zeroNum s.cfg.sampleKind) := rfl
@[simp] theorem State.resetLoop_wDmf :
    s.resetLoop.wDmf = List.replicate s.hLen.toNat (zeroNum s.cfg.sampleKind) := rfl

/-! ### install -/

@[simp] theorem State.install_cfg (k npfb l : Word) (c : List Num) : (s.install k npfb l c).cfg = s.cfg := rfl
@[simp] theorem State.install_freeIndex (k npfb l : Word) (c : List Num) :
    (s.install k npfb l c).freeIndex = s.freeIndex := rfl
@[simp] theorem State.install_input (k npfb l : Word) (c : List Num) : (s.install k npfb l c).input = s.input := rfl
@[simp] theorem State.install_pos (k npfb l : Word) (c : List Num) : (s.install k npfb l c).pos = s.pos := rfl
@[simp] theorem State.install_output (k npfb l : Word) (c : List Num) :
    (s.install k npfb l c).output = s.output := rfl
@[simp] theorem State.install_k (k npfb l : Word) (c : List Num) : (s.install k npfb l c).k = k := rfl
@[simp] theorem State.install_kOut (k npfb l : Word) (c : List Num) : (s.install k npfb l c).kOut = 1 := rfl
@[simp] theorem State.install_npfb (k npfb l : Word) (c : List Num) : (s.install k npfb l c).npfb = npfb := rfl
@[simp] theorem State.install_l (k npfb l : Word) (c : List Num) : (s.install k npfb l c).l = l := rfl
@[simp] theorem State.install_hLen (k npfb l : Word) (c : List Num) :
    (s.install k npfb l c).hLen = branchLength l npfb := rfl
@[simp] theorem State.install_r (k npfb l : Word) (c : List Num) :
    (s.install k npfb l c).r = fdiv (f32 1) (f32 k.toNat) := rfl
@[simp] theorem State.install_delNom (k npfb l : Word) (c : List Num) :
    (s.install k npfb l c).delNom = fdiv (f32 k.toNat) (f32 1) := rfl
@[simp] theorem State.install_del (k npfb l : Word) (c : List Num) :
    (s.install k npfb l c).del = fdiv (f32 k.toNat) (f32 1) := rfl
@[simp] theorem State.install_tau (k npfb l : Word) (c : List Num) : (s.install k npfb l c).tau = posZero := rfl
@[simp] theorem State.install_bf (k npfb l : Word) (c : List Num) : (s.install k npfb l c).bf = posZero := rfl
@[simp] theorem State.install_b (k npfb l : Word) (c : List Num) : (s.install k npfb l c).b = 0 := rfl
@[simp] theorem State.install_decim (k npfb l : Word) (c : List Num) : (s.install k npfb l c).decim = 0 := rfl
@[simp] theorem State.install_q (k npfb l : Word) (c : List Num) : (s.install k npfb l c).q = posZero := rfl
@[simp] theorem State.install_qHat (k npfb l : Word) (c : List Num) : (s.install k npfb l c).qHat = posZero := rfl
@[simp] theorem State.install_qPrime (k npfb l : Word) (c : List Num) : (s.install k npfb l c).qPrime = posZero := rfl
@[simp] theorem State.install_bt (k npfb l : Word) (c : List Num) : (s.install k npfb l c).bt = f001 := rfl
@[simp] theorem State.install_alpha (k npfb l : Word) (c : List Num) :
    (s.install k npfb l c).alpha = fsub fone f001 := rfl
@[simp] theorem State.install_beta (k npfb l : Word) (c : List Num) :
    (s.install k npfb l c).beta = fmul c022 f001 := rfl
@[simp] theorem State.install_isLocked (k npfb l : Word) (c : List Num) :
    (s.install k npfb l c).isLocked = false := rfl
@[simp] theorem State.install_configured (k npfb l : Word) (c : List Num) :
    (s.install k npfb l c).configured = true := rfl
@[simp] theorem State.install_faulted (k npfb l : Word) (c : List Num) : (s.install k npfb l c).faulted = false := rfl
@[simp] theorem State.install_faultCause (k npfb l : Word) (c : List Num) :
    (s.install k npfb l c).faultCause = 0 := rfl
@[simp] theorem State.install_h (k npfb l : Word) (c : List Num) : (s.install k npfb l c).h = c := rfl
@[simp] theorem State.install_dh (k npfb l : Word) (c : List Num) :
    (s.install k npfb l c).dh = derivatives c l.toNat npfb := rfl
@[simp] theorem State.install_wMf (k npfb l : Word) (c : List Num) :
    (s.install k npfb l c).wMf = List.replicate (branchLength l npfb).toNat (zeroNum s.cfg.sampleKind) := rfl
@[simp] theorem State.install_wDmf (k npfb l : Word) (c : List Num) :
    (s.install k npfb l c).wDmf = List.replicate (branchLength l npfb).toNat (zeroNum s.cfg.sampleKind) := rfl

end Sys2Proof.Machine
end

