-- ==== Sys2Proof/Laws/Memory.lean ====
section
/-! SUPPORT. The coefficient memories and histories: every operation on them keeps the canonical form, and reading
after a push, a clear or an installation (20_memory.md R61, 41_step.md R148). -/

namespace Sys2Proof.Machine

/-- The canonical form, said once: so many entries, each of the kind. -/
theorem Memory.wf_iff (kd : NumKind) (n : Nat) (mem : List Num) :
    Memory.wf kd n mem = true ↔ mem.length = n ∧ ∀ x ∈ mem, x.kind = kd := by
  simp [Memory.wf, numsOfKind]

/-- Equal memories are equal data: two in canonical form that read the same everywhere are one list. -/
theorem Memory.wf_ext (kd : NumKind) (n : Nat) (m₁ m₂ : List Num) (h₁ : Memory.wf kd n m₁ = true)
    (h₂ : Memory.wf kd n m₂ = true) (h : ∀ i, i < n → entry m₁ i = entry m₂ i) : m₁ = m₂ := by
  rw [Memory.wf_iff] at h₁ h₂
  apply List.ext_getElem (by rw [h₁.1, h₂.1])
  intro i hi₁ hi₂
  have := h i (by omega)
  simpa [entry, hi₁, hi₂] using this

/-! ## Kinds of results -/

@[simp] theorem kind_zeroNum (kd : NumKind) : (zeroNum kd).kind = kd := by cases kd <;> rfl

@[simp] theorem kind_asKind (kd : NumKind) (x : Num) : (asKind kd x).kind = kd := by cases kd <;> rfl

/-- A number already of the kind is taken as it is. -/
theorem asKind_self (x : Num) : asKind x.kind x = x := by cases x <;> rfl

@[simp] theorem kind_sscale (x : Num) (f : Word) : (sscale x f).kind = x.kind := by cases x <;> rfl

@[simp] theorem kind_sdiv (x : Num) (d : Word) : (sdiv x d).kind = x.kind := by cases x <;> rfl

theorem kind_ssub (x y : Num) (kd : NumKind) (hx : x.kind = kd) (hy : y.kind = kd) : (ssub x y).kind = kd := by
  cases x <;> cases y <;> simp_all [Num.kind, ssub]

theorem kind_sadd (x y : Num) (kd : NumKind) (hx : x.kind = kd) (hy : y.kind = kd) : (sadd x y).kind = kd := by
  cases x <;> cases y <;> simp_all [Num.kind, sadd]

/-- A product has the sample's kind, unless a complex coefficient meets a real sample (00_scope.md R6 admits no such
instance). -/
theorem kind_smul (c x : Num) (h : c.kind = .complex → x.kind = .complex) : (smul c x).kind = x.kind := by
  cases c <;> cases x <;> simp_all [Num.kind, smul]

theorem entry_of_lt (mem : List Num) (i : Nat) (h : i < mem.length) : entry mem i = mem[i] := by simp [entry, h]

theorem kind_entry (kd : NumKind) (n : Nat) (mem : List Num) (i : Nat) (h : Memory.wf kd n mem = true) (hi : i < n) :
    (entry mem i).kind = kd := by
  rw [Memory.wf_iff] at h
  rw [entry_of_lt mem i (by omega)]
  exact h.2 _ (List.getElem_mem _)

/-! ## The operations keep the canonical form -/

/-- FB_CLEAR leaves H_LEN zero samples (00_scope.md R7). -/
theorem fbClear_wf (c : Config) (bank : Bank) : Memory.wf c.sampleKind bank.hLen (fbClear c bank).hist = true := by
  simp [Memory.wf_iff, fbClear]

/-- FB_PUSH keeps the form, for every FB. -/
theorem fbPush_wf (c : Config) (bank : Bank) (x : Num) (hx : x.kind = c.sampleKind)
    (h : Memory.wf c.sampleKind bank.hLen bank.hist = true) :
    Memory.wf c.sampleKind bank.hLen (fbPush c bank x).hist = true := by
  rw [Memory.wf_iff] at h ⊢
  unfold fbPush
  split
  · refine ⟨by simp [h.1], fun y hy => ?_⟩
    rcases List.mem_cons.mp (List.mem_of_mem_take hy) with rfl | hy
    · exact hx
    · exact h.2 y hy
  · simp

/-- The derivative memory has the form when the prototype has it (40_construction.md R116). -/
theorem derivatives_wf (kd : NumKind) (c : List Num) (l : Nat) (npfb : Word) (h : Memory.wf kd l c = true) :
    Memory.wf kd l (derivatives c l npfb) = true := by
  rw [Memory.wf_iff]
  refine ⟨by simp [derivatives], fun x hx => ?_⟩
  obtain ⟨i, hi, rfl⟩ := List.mem_map.mp hx
  have hl : 0 < l := by have := List.mem_range.mp hi; omega
  rw [deriv, kind_sscale]
  exact kind_ssub _ _ _ (kind_entry kd l c _ h (Nat.mod_lt _ hl)) (kind_entry kd l c _ h (Nat.mod_lt _ hl))

/-- A push keeps all four memories in form. -/
theorem State.push_memoriesWf (s : State) (x : Num) (hx : x.kind = s.cfg.sampleKind) (h : s.memoriesWf = true) :
    (s.push x).memoriesWf = true := by
  simp only [State.memoriesWf, Bool.and_eq_true] at h ⊢
  exact ⟨⟨⟨h.1.1.1, h.1.1.2⟩, fbPush_wf s.cfg s.mf x hx h.1.2⟩, fbPush_wf s.cfg s.dmf x hx h.2⟩

/-- Clearing the histories keeps all four memories in form. -/
theorem State.clearHistories_memoriesWf (s : State) (h : s.memoriesWf = true) : s.clearHistories.memoriesWf = true := by
  simp only [State.memoriesWf, Bool.and_eq_true] at h ⊢
  exact ⟨⟨⟨h.1.1.1, h.1.1.2⟩, fbClear_wf s.cfg s.mf⟩, fbClear_wf s.cfg s.dmf⟩

/-- An installation leaves all four memories in form. -/
theorem State.install_memoriesWf (s : State) (k npfb l : Word) (c : List Num)
    (h : Memory.wf s.cfg.coefKind l.toNat c = true) : (s.install k npfb l c).memoriesWf = true := by
  have hz : ∀ n, Memory.wf s.cfg.sampleKind n (List.replicate n (zeroNum s.cfg.sampleKind)) = true := by
    simp [Memory.wf_iff]
  simp [State.memoriesWf, h, derivatives_wf, hz]

/-- Power-on memories are in form. -/
theorem reset_memoriesWf : State.reset.memoriesWf = true := by decide

/-! ## Reading after writing -/

/-- The newest sample stands first (41_step.md R148). -/
theorem fbPush_newest (c : Config) (bank : Bank) (x : Num) (hc : c.fb = .polyphase) (h : 0 < bank.hLen) :
    entry (fbPush c bank x).hist 0 = x := by
  unfold fbPush
  rw [hc]
  obtain ⟨n, hn⟩ : ∃ n, bank.hLen = n + 1 := ⟨bank.hLen - 1, by omega⟩
  simp [entry, hn]

/-- Every older sample moves one place on (41_step.md R148). -/
theorem fbPush_older (c : Config) (bank : Bank) (x : Num) (j : Nat) (hc : c.fb = .polyphase) (hj : j + 1 < bank.hLen)
    (hl : bank.hist.length = bank.hLen) : entry (fbPush c bank x).hist (j + 1) = entry bank.hist j := by
  unfold fbPush
  rw [hc]
  have h1 : j < bank.hist.length := by omega
  simp [entry, hj, h1]

/-- Every entry of a cleared history is the zero sample (00_scope.md R7). -/
theorem fbClear_entry (c : Config) (bank : Bank) (j : Nat) (hj : j < bank.hLen) :
    entry (fbClear c bank).hist j = zeroNum c.sampleKind := by
  simp [entry, fbClear, hj]

/-- Every entry of the derivative memory is DERIV's (40_construction.md R116). -/
theorem derivatives_entry (c : List Num) (l : Nat) (npfb : Word) (i : Nat) (hi : i < l) :
    entry (derivatives c l npfb) i = deriv c l npfb i := by
  simp [entry, derivatives, hi]

/-- A bank output has the sample kind (00_scope.md R7), where every tap the default reads is held. -/
theorem kind_fbExecute (c : Config) (bank : Bank) (b n : Nat) (hk : c.coefKind = .complex → c.sampleKind = .complex)
    (hc : Memory.wf c.coefKind n bank.coef = true) (hh : Memory.wf c.sampleKind bank.hLen bank.hist = true)
    (hb : b < bank.npfb) (hn : bank.npfb * bank.hLen ≤ n) : (fbExecute c bank b).kind = c.sampleKind := by
  unfold fbExecute
  split
  · suffices h : ∀ (js : List Nat) (acc : Num), (∀ j ∈ js, j < bank.hLen) → acc.kind = c.sampleKind →
        (js.foldl (fun acc j => sadd acc (smul (entry bank.coef (j * bank.npfb + b)) (entry bank.hist j))) acc).kind = c.sampleKind from
      h _ _ (fun j hj => List.mem_range.mp hj) (kind_zeroNum _)
    intro js
    induction js with
    | nil => exact fun acc _ h => h
    | cons j js ih =>
      intro acc hjs hacc
      have hj := hjs j (List.mem_cons_self ..)
      have ht : j * bank.npfb + b < n := by
        have : (j + 1) * bank.npfb ≤ bank.hLen * bank.npfb := Nat.mul_le_mul_right _ hj
        nlinarith
      have h1 := kind_entry _ _ _ _ hc ht
      have h2 := kind_entry _ _ _ _ hh hj
      refine ih _ (fun i hi => hjs i (List.mem_cons_of_mem _ hi)) (kind_sadd _ _ _ hacc ?_)
      rw [kind_smul _ _ (by rw [h1, h2]; exact hk), h2]
  · exact kind_asKind _ _

end Sys2Proof.Machine
end

