-- ==== Sys2Proof/Laws/Ops.lean ====
section
/-! SUPPORT. For each shared operation, one lemma that says everything it can do; proofs cite these instead of
unfolding. -/

namespace Sys2Proof.Machine

/-! ## Responses -/

/-- A response appends its header and payload and changes nothing else. -/
theorem State.respond_eq (s : State) (opc : Byte) (st : Status) (payload : List Word) :
    s.respond opc st payload = s.answered (responseHeader opc st 0 :: payload) := rfl

/-- A rejection appends its response and changes nothing else (60_exceptions.md R223). -/
theorem State.reject_eq (s : State) (opc : Byte) (st : Status) :
    s.reject opc st = s.answered (responseHeader opc st 0 :: rejectPayload opc) := rfl

/-- A configuration error appends its one-word response and changes nothing else (60_exceptions.md R223). -/
theorem State.configError_eq (s : State) (opc : Opcode) (d : Detail) :
    s.configError opc d = s.answered [responseHeader opc.code .configError (detailCode d)] := rfl

theorem responseHeader_toNat (opc : Byte) (st : Status) (d : Byte) :
    (responseHeader opc st d).toNat = opc.toNat * 2 ^ 24 + (statusCode st).toNat * 2 ^ 16 + d.toNat * 2 ^ 8 := by
  unfold responseHeader
  rw [BitVec.toNat_ofNat]
  have := opc.isLt
  have := (statusCode st).isLt
  have := d.isLt
  omega

/-- The response header echoes the OPC in bits 31:24 (30_encoding.md R95). -/
@[simp] theorem headerOpc_responseHeader (opc : Byte) (st : Status) (d : Byte) : headerOpc (responseHeader opc st d) = opc := by
  apply BitVec.eq_of_toNat_eq
  have := opc.isLt
  have := (statusCode st).isLt
  have := d.isLt
  simp only [headerOpc, responseHeader_toNat, BitVec.toNat_ofNat]
  omega

/-- The response header carries STATUS in bits 23:16 (30_encoding.md R95). -/
@[simp] theorem headerSub_responseHeader (opc : Byte) (st : Status) (d : Byte) :
    headerSub (responseHeader opc st d) = statusCode st := by
  apply BitVec.eq_of_toNat_eq
  have := opc.isLt
  have := (statusCode st).isLt
  have := d.isLt
  simp only [headerSub, responseHeader_toNat, BitVec.toNat_ofNat]
  omega

/-- What `whenReady` does: the two common rejections, or the command on a ready state (43_configuration.md R179). -/
theorem whenReady_cases (opc : Opcode) (s : State) (f : State → State) :
    (s.configured = false ∧ whenReady opc s f = s.reject opc.code .notConfigured) ∨
      (s.configured = true ∧ s.faulted = true ∧ whenReady opc s f = s.reject opc.code .faulted) ∨
      (s.configured = true ∧ s.faulted = false ∧ whenReady opc s f = f s) := by
  unfold whenReady
  cases s.configured <;> cases s.faulted <;> simp

/-- On a ready state the command runs. -/
theorem whenReady_ready (opc : Opcode) (s : State) (f : State → State) (hc : s.configured = true) (hf : s.faulted = false) :
    whenReady opc s f = f s := by simp [whenReady, hc, hf]

/-! ## The output loop -/

/-- The three answers of the loop test (41_step.md R141). -/
theorem loopTest_cases (s : State) :
    (loopTest s = .leave ∧ (s.npfb.toNat : Int) ≤ s.b.toInt) ∨
      (loopTest s = .outOfRange ∧ s.b.toInt < 0) ∨
      (loopTest s = .body ∧ 0 ≤ s.b.toInt ∧ s.b.toInt < (s.npfb.toNat : Int)) := by
  unfold loopTest
  split
  · exact .inl ⟨rfl, by omega⟩
  · split
    · exact .inr (.inl ⟨rfl, by omega⟩)
    · exact .inr (.inr ⟨rfl, by omega, by omega⟩)

/-- ERROR_UPDATE faults exactly on a NaN detector output (42_error_loop.md R160, R162). -/
theorem errorUpdate_cases (s : State) (mf dmf : Num) :
    (isnan (ted mf dmf) = true ∧ errorUpdate s mf dmf = none) ∨
      (isnan (ted mf dmf) = false ∧ errorUpdate s mf dmf = some (s.updateLoop (ted mf dmf))) := by
  unfold errorUpdate
  cases isnan (ted mf dmf) <;> simp

/-- Everything step 2b can do (41_step.md R143, R149). -/
theorem decimate_cases (s : State) :
    (s.decim ≠ s.kOut ∧ decimate s = .goOn s) ∨
      (s.decim = s.kOut ∧ s.isLocked = false ∧ isnan (ted s.matched s.derivative) = true ∧
        decimate s = .raised s.clearDecim) ∨
      (s.decim = s.kOut ∧ s.isLocked = false ∧ isnan (ted s.matched s.derivative) = false ∧
        decimate s = .goOn (s.clearDecim.updateLoop (ted s.matched s.derivative))) ∨
      (s.decim = s.kOut ∧ s.isLocked = true ∧ s.cfg.lockSkip = .errorOnly ∧ decimate s = .goOn s.clearDecim) ∨
      (s.decim = s.kOut ∧ s.isLocked = true ∧ s.cfg.lockSkip = .restOfIteration ∧ decimate s = .skipRest s.clearDecim) := by
  unfold decimate
  by_cases hd : s.decim = s.kOut
  · rw [if_pos hd]
    cases hl : s.isLocked
    · rw [if_pos rfl]
      obtain ⟨hn, he⟩ | ⟨hn, he⟩ := errorUpdate_cases s.clearDecim s.matched s.derivative
      · simp [hd, hn, he]
      · simp [hd, hn, he]
    · rw [if_neg (by simp)]
      cases hk : s.cfg.lockSkip <;> simp [hd]
  · rw [if_neg hd]
    exact .inl ⟨hd, rfl⟩

/-- Steps 2c and 2d go on or raise BRANCH_RANGE (41_step.md R144). -/
theorem advance_cases (s : State) :
    (branchFits (fmul (fadd s.tau s.del) (f32 s.npfb.toNat)) = true ∧
        advance s = .again s.countOutput.advancePhase.roundBranch) ∨
      (branchFits (fmul (fadd s.tau s.del) (f32 s.npfb.toNat)) = false ∧
        advance s = .raised .branchRange s.countOutput.advancePhase) := by
  have e : s.countOutput.advancePhase.bf = fmul (fadd s.tau s.del) (f32 s.npfb.toNat) := rfl
  unfold advance
  rw [e]
  by_cases h : branchFits (fmul (fadd s.tau s.del) (f32 s.npfb.toNat)) = true
  · exact .inl ⟨h, if_pos h⟩
  · exact .inr ⟨by simpa using h, if_neg h⟩

/-- Everything one iteration can do after its output: skip to the loop test, fault, or step 2d on the state step 2b
left (41_step.md R131). -/
theorem iterate_cases (s : State) :
    (iterate s = .again s.clearDecim ∧ s.decim = s.kOut ∧ s.isLocked = true ∧ s.cfg.lockSkip = .restOfIteration) ∨
      (iterate s = .raised .numeric s.clearDecim ∧ s.decim = s.kOut ∧ s.isLocked = false ∧
        isnan (ted s.matched s.derivative) = true) ∨
      (∃ s₁, iterate s = advance s₁ ∧
        ((s₁ = s ∧ s.decim ≠ s.kOut) ∨
          (s₁ = s.clearDecim ∧ s.decim = s.kOut ∧ s.isLocked = true ∧ s.cfg.lockSkip = .errorOnly) ∨
          (s₁ = s.clearDecim.updateLoop (ted s.matched s.derivative) ∧ s.decim = s.kOut ∧ s.isLocked = false ∧
            isnan (ted s.matched s.derivative) = false))) := by
  unfold iterate
  obtain ⟨h, e⟩ | ⟨h, hl, hn, e⟩ | ⟨h, hl, hn, e⟩ | ⟨h, hl, hk, e⟩ | ⟨h, hl, hk, e⟩ := decimate_cases s <;> rw [e]
  · exact .inr (.inr ⟨_, rfl, .inl ⟨rfl, h⟩⟩)
  · exact .inr (.inl ⟨rfl, h, hl, hn⟩)
  · exact .inr (.inr ⟨_, rfl, .inr (.inr ⟨rfl, h, hl, hn⟩)⟩)
  · exact .inr (.inr ⟨_, rfl, .inr (.inl ⟨rfl, h, hl, hk⟩)⟩)
  · exact .inl ⟨rfl, h, hl, hk⟩

/-- What the output loop may change: the loop registers and nothing else (10_state.md R18). -/
def State.loopFrame (s t : State) : Prop :=
  t = { s with
    tau := t.tau, bf := t.bf, b := t.b, del := t.del, decim := t.decim, q := t.q, qHat := t.qHat, qPrime := t.qPrime }

theorem State.loopFrame_refl (s : State) : s.loopFrame s := rfl

theorem State.loopFrame_trans (s t u : State) (h₁ : s.loopFrame t) (h₂ : t.loopFrame u) : s.loopFrame u := by
  unfold State.loopFrame at *
  rw [h₂, h₁]

/-- One pass of the loop body changes only the loop registers. -/
theorem iterate_loopFrame (s : State) :
    (∀ s', iterate s = .again s' → s.loopFrame s') ∧ (∀ c s', iterate s = .raised c s' → s.loopFrame s') := by
  obtain ⟨e, -⟩ | ⟨e, -⟩ | ⟨s₁, e, h⟩ := iterate_cases s
  · refine ⟨fun s' h => ?_, fun c s' h => ?_⟩ <;> rw [e] at h <;> cases h; rfl
  · refine ⟨fun s' h => ?_, fun c s' h => ?_⟩ <;> rw [e] at h <;> cases h; rfl
  · have h₁ : s.loopFrame s₁ := by
      obtain ⟨rfl, -⟩ | ⟨rfl, -⟩ | ⟨rfl, -⟩ := h <;> rfl
    rw [e]
    obtain ⟨-, ea⟩ | ⟨-, ea⟩ := advance_cases s₁ <;> rw [ea]
    · refine ⟨fun s' h => ?_, fun c s' h => ?_⟩ <;> cases h
      exact s.loopFrame_trans _ _ h₁ rfl
    · refine ⟨fun s' h => ?_, fun c s' h => ?_⟩ <;> cases h
      exact s.loopFrame_trans _ _ h₁ rfl

/-- The induction over the output loop, packaged once: an invariant of its passes holds where it ends, and it emits at
most as many samples as it has room for (41_step.md R131, 70_reset_and_hazards.md R248). -/
theorem outputLoop_cases (I : State → Prop) (hI : ∀ s s', I s → loopTest s = .body → iterate s = .again s' → I s')
    (room : Nat) (s : State) (h : I s) :
    (∃ s' ys, outputLoop room s = .completed s'.correct ys ∧ I s' ∧ loopTest s' = .leave ∧ ys.length ≤ room) ∨
      (∃ c s' ys, outputLoop room s = .raised c s' ys ∧ ys.length ≤ room ∧
        ((c = .branchRange ∧ I s' ∧ loopTest s' = .outOfRange) ∨
          (c = .burstOverflow ∧ I s' ∧ loopTest s' = .body ∧ ys.length = room) ∨
          (∃ s'', I s'' ∧ loopTest s'' = .body ∧ iterate s'' = .raised c s'))) := by
  induction room generalizing s with
  | zero =>
    unfold outputLoop
    cases ht : loopTest s
    · exact .inl ⟨s, [], rfl, h, ht, le_refl _⟩
    · exact .inr ⟨_, s, [], rfl, le_refl _, .inl ⟨rfl, h, ht⟩⟩
    · exact .inr ⟨_, s, [], rfl, le_refl _, .inr (.inl ⟨rfl, h, ht, rfl⟩)⟩
  | succ room ih =>
    unfold outputLoop
    cases ht : loopTest s
    · exact .inl ⟨s, [], rfl, h, ht, Nat.zero_le _⟩
    · exact .inr ⟨_, s, [], rfl, Nat.zero_le _, .inl ⟨rfl, h, ht⟩⟩
    · cases hi : iterate s with
      | raised c s' => exact .inr ⟨c, s', [_], rfl, by simp, .inr (.inr ⟨s, h, ht, hi⟩)⟩
      | again s' =>
        obtain ⟨u, ys, e, hu, hl, hy⟩ | ⟨c, u, ys, e, hy, hr⟩ := ih s' (hI s s' h ht hi)
        · exact .inl ⟨u, s.outputSample :: ys, by simp only [e, Burst.emit], hu, hl, by simpa using hy⟩
        · refine .inr ⟨c, u, s.outputSample :: ys, by simp only [e, Burst.emit], by simpa using hy, ?_⟩
          obtain hr | ⟨hc, hu, hl, hy'⟩ | hr := hr
          · exact .inl hr
          · exact .inr (.inl ⟨hc, hu, hl, by simp [hy']⟩)
          · exact .inr (.inr hr)

/-- STEP_CORE changes only the histories, by one push, and the loop registers, and emits at most `room` samples
(41_step.md R131). -/
theorem stepCore_frame (room : Nat) (s : State) (x : Num) :
    (∃ t ys, stepCore room s x = .completed t ys ∧ (s.push x).loopFrame t ∧ ys.length ≤ room) ∨
      (∃ c t ys, stepCore room s x = .raised c t ys ∧ (s.push x).loopFrame t ∧ ys.length ≤ room) := by
  obtain ⟨u, ys, e, hu, -, hy⟩ | ⟨c, u, ys, e, hy, hr⟩ :=
    outputLoop_cases (s.push x).loopFrame
      (fun a b ha _ hi => State.loopFrame_trans _ _ _ ha ((iterate_loopFrame a).1 b hi)) room (s.push x) rfl
  · exact .inl ⟨_, ys, e, State.loopFrame_trans _ _ _ hu rfl, hy⟩
  · refine .inr ⟨c, u, ys, e, ?_, hy⟩
    obtain ⟨-, hu, -⟩ | ⟨-, hu, -⟩ | ⟨v, hv, -, hi⟩ := hr
    · exact hu
    · exact hu
    · exact State.loopFrame_trans _ _ _ hv ((iterate_loopFrame v).2 c u hi)

/-! ## The batch -/

/-- What EXECUTE's sample loop may change: the histories and the loop registers (41_step.md R150). -/
def State.batchFrame (s t : State) : Prop :=
  t = { s with
    tau := t.tau, bf := t.bf, b := t.b, del := t.del, decim := t.decim, q := t.q, qHat := t.qHat, qPrime := t.qPrime,
    wMf := t.wMf, wDmf := t.wDmf }

theorem State.batchFrame_trans (s t u : State) (h₁ : s.batchFrame t) (h₂ : t.batchFrame u) : s.batchFrame u := by
  unfold State.batchFrame at *
  rw [h₂, h₁]

theorem State.batchFrame_of_push (s t : State) (x : Num) (h : (s.push x).loopFrame t) : s.batchFrame t := by
  unfold State.loopFrame at h
  unfold State.batchFrame
  rw [h]
  rfl

/-- The state a batch ends in. -/
def Batch.state : Batch → State
  | .completed s _ => s
  | .nonfinite s _ => s
  | .raised _ s _ => s

@[simp] theorem Batch.state_prepend (b : Batch) (front : List Num) : (b.prepend front).state = b.state := by
  cases b <;> rfl

/-- The batch changes only the histories and the loop registers (41_step.md R150). -/
theorem runBatch_frame (xs : List Num) (total : Nat) (s : State) : s.batchFrame (runBatch xs total s).state := by
  induction xs generalizing total s with
  | nil => rfl
  | cons x xs ih =>
    unfold runBatch
    split
    · rfl
    · obtain ⟨t, ys, e, ht, -⟩ | ⟨c, t, ys, e, ht, -⟩ := stepCore_frame (roomFor s.cfg total) s x
      · simp only [e, Batch.state_prepend]
        exact State.batchFrame_trans _ _ _ (State.batchFrame_of_push _ _ _ ht) (ih _ t)
      · simp only [e]
        exact State.batchFrame_of_push _ _ _ ht

/-! ## Every meaning goes on -/

/-- No command stops the machine: each answers a next state. -/
theorem exec_next (i : Instr) (s : State) : ∃ t, exec i s = .next t := by cases i <;> exact ⟨_, rfl⟩

end Sys2Proof.Machine
end

