-- ==== Sys2Proof/Laws/PerInstr.lean ====
section
/-! SUPPORT. Statements made once per command. -/

namespace Sys2Proof.Laws

/-- The encoding of a command has the length its own header and count word announce (30_encoding.md R83), whatever
words follow it, and its header has the command's opcode and RSV = 0 (R80). -/
def EncodeLength.Statement (i : Instr) : Prop :=
  ∀ (c : Config) (rest : List Word), i.wellFormed c = true →
    ∃ h ops, encode i = h :: ops ∧ headerOpc h = i.opcode.code ∧ headerRsv h = 0 ∧
      commandLength c h (ops ++ rest) = some (encode i).length

theorem EncodeLength.construct (k npfb l : Word) (coefs : List Num) : EncodeLength.Statement (.construct k npfb l coefs) := by
  intro c rest h
  simp only [Instr.wellFormed, Bool.and_eq_true, beq_iff_eq] at h
  refine ⟨_, _, rfl, headerOpc_header _ _, headerRsv_header _ _, ?_⟩
  simp [commandLength, encode, flatMap_words_length _ _ h.1, h.2, Config.coefWords]
  omega

theorem EncodeLength.constructDesign (ftype k m ebw npfb : Word) :
    EncodeLength.Statement (.constructDesign ftype k m ebw npfb) :=
  fun _ _ _ => ⟨_, _, rfl, headerOpc_header _ _, headerRsv_header _ _, by simp [commandLength, encode]⟩

theorem EncodeLength.step (x : Num) : EncodeLength.Statement (.step x) := by
  intro c rest h
  simp only [Instr.wellFormed, beq_iff_eq] at h
  refine ⟨_, _, rfl, headerOpc_header _ _, headerRsv_header _ _, ?_⟩
  simp [commandLength, encode, Num.words_length, h, Config.sampleWords]
  omega

theorem EncodeLength.execute (xs : List Num) : EncodeLength.Statement (.execute xs) := by
  intro c rest h
  simp only [Instr.wellFormed, Bool.and_eq_true, decide_eq_true_eq] at h
  refine ⟨_, _, rfl, headerOpc_header _ _, headerRsv_header _ _, ?_⟩
  have hn : (BitVec.ofNat 32 xs.length).toNat = xs.length := Nat.mod_eq_of_lt h.2
  simp only [commandLength, encode, headerOpc_header, Opcode.ofCode_code, List.cons_append, List.getElem?_cons_zero,
    Option.map_some, hn, Config.sampleWords, List.length_cons, flatMap_words_length _ _ h.1, Option.some.injEq]
  omega

theorem EncodeLength.setBandwidth (bt : Word) : EncodeLength.Statement (.setBandwidth bt) :=
  fun _ _ _ => ⟨_, _, rfl, headerOpc_header _ _, headerRsv_header _ _, by simp [commandLength, encode]⟩

theorem EncodeLength.setOutputRate (ko : Word) : EncodeLength.Statement (.setOutputRate ko) :=
  fun _ _ _ => ⟨_, _, rfl, headerOpc_header _ _, headerRsv_header _ _, by simp [commandLength, encode]⟩

theorem EncodeLength.setRate (rate : Word) : EncodeLength.Statement (.setRate rate) :=
  fun _ _ _ => ⟨_, _, rfl, headerOpc_header _ _, headerRsv_header _ _, by simp [commandLength, encode]⟩

theorem EncodeLength.lock : EncodeLength.Statement .lock :=
  fun _ _ _ => ⟨_, _, rfl, headerOpc_header _ _, headerRsv_header _ _, by simp [commandLength, encode]⟩

theorem EncodeLength.unlock : EncodeLength.Statement .unlock :=
  fun _ _ _ => ⟨_, _, rfl, headerOpc_header _ _, headerRsv_header _ _, by simp [commandLength, encode]⟩

theorem EncodeLength.getTau : EncodeLength.Statement .getTau :=
  fun _ _ _ => ⟨_, _, rfl, headerOpc_header _ _, headerRsv_header _ _, by simp [commandLength, encode]⟩

theorem EncodeLength.readReg (idx : Byte) : EncodeLength.Statement (.readReg idx) :=
  fun _ _ _ => ⟨_, _, rfl, headerOpc_header _ _, headerRsv_header _ _, by simp [commandLength, encode]⟩

theorem EncodeLength.reset : EncodeLength.Statement .reset :=
  fun _ _ _ => ⟨_, _, rfl, headerOpc_header _ _, headerRsv_header _ _, by simp [commandLength, encode]⟩

end Sys2Proof.Laws
end

