-- ==== Sys2Proof/Laws/Stepping.lean ====
section
/-! SUPPORT. STEP one iteration at a time: what each part of the output loop answers under the conditions that decide
it. Proofs about a STEP chain these instead of unfolding the loop. -/

namespace Sys2Proof.Machine

/-- On a ready block STEP of a finite sample is STEP_CORE with MAX_BURST samples of room (41_step.md R130). -/
theorem exec_step_ready (s : State) (x : Num) (hc : s.configured = true) (hf : s.faulted = false) (hx : numFinite x = true) :
    exec (.step x) s = .next (finishStep (stepCore s.cfg.maxBurst s x)) := by
  simp [exec, execStep, whenReady, hc, hf, hx]

/-- On a ready block EXECUTE is its sample loop (41_step.md R150). -/
theorem exec_execute_ready (s : State) (xs : List Num) (hc : s.configured = true) (hf : s.faulted = false) :
    exec (.execute xs) s = .next (finishBatch (runBatch xs 0 s)) := by
  simp [exec, execExecute, whenReady, hc, hf]

/-! ## The banks after the push -/

/-- A push changes a bank's history only (00_scope.md R7). -/
theorem fbPush_eq (c : Config) (bank : Bank) (x : Num) : fbPush c bank x = { bank with hist := (fbPush c bank x).hist } := by
  unfold fbPush
  cases c.fb <;> rfl

/-- The matched-filter output of a STEP's first iteration sees the pushed sample (41_step.md R140). -/
theorem matched_push (s : State) (x : Num) : (s.push x).matched = fbExecute s.cfg (fbPush s.cfg s.mf x) s.b.toNat := by
  rw [fbPush_eq]
  rfl

/-- So does the derivative-filter output. -/
theorem derivative_push (s : State) (x : Num) :
    (s.push x).derivative = fbExecute s.cfg (fbPush s.cfg s.dmf x) s.b.toNat := by
  rw [fbPush_eq]
  rfl

/-- The sample that the first iteration emits (41_step.md R142). -/
theorem outputSample_push (s : State) (x : Num) :
    (s.push x).outputSample = sdiv (fbExecute s.cfg (fbPush s.cfg s.mf x) s.b.toNat) (f32 s.k.toNat) := by
  unfold State.outputSample
  rw [matched_push]
  rfl

/-! ## The loop test -/

theorem loopTest_leave (s : State) (h : (s.npfb.toNat : Int) ≤ s.b.toInt) : loopTest s = .leave := by
  obtain h' | h' | h' := loopTest_cases s
  · exact h'.1
  · omega
  · omega

theorem loopTest_body (s : State) (h : 0 ≤ s.b.toInt) (h' : s.b.toInt < s.npfb.toNat) : loopTest s = .body := by
  obtain h'' | h'' | h'' := loopTest_cases s
  · omega
  · omega
  · exact h''.1

theorem loopTest_outOfRange (s : State) (h : s.b.toInt < 0) : loopTest s = .outOfRange := by
  obtain h' | h' | h' := loopTest_cases s
  · omega
  · exact h'.1
  · omega

theorem outputLoop_leave (room : Nat) (s : State) (h : loopTest s = .leave) : outputLoop room s = .completed s.correct [] := by
  cases room <;> simp [outputLoop, h]

theorem outputLoop_outOfRange (room : Nat) (s : State) (h : loopTest s = .outOfRange) :
    outputLoop room s = .raised .branchRange s [] := by
  cases room <;> simp [outputLoop, h]

/-- With no room left, a sample due is BURST_OVERFLOW (41_step.md R141). -/
theorem outputLoop_full (s : State) (h : loopTest s = .body) : outputLoop 0 s = .raised .burstOverflow s [] := by
  simp [outputLoop, h]

/-- An iteration that goes back to the loop test emits its sample before the rest of the burst. -/
theorem outputLoop_again (room : Nat) (s s' : State) (h : loopTest s = .body) (hi : iterate s = .again s') :
    outputLoop (room + 1) s = (outputLoop room s').emit s.outputSample := by
  simp [outputLoop, h, hi]

/-- An iteration that faults has emitted its sample. -/
theorem outputLoop_raised (room : Nat) (s s' : State) (c : FaultCause) (h : loopTest s = .body) (hi : iterate s = .raised c s') :
    outputLoop (room + 1) s = .raised c s' [s.outputSample] := by
  simp [outputLoop, h, hi]

/-! ## One iteration -/

/-- No decimation boundary (41_step.md R143). -/
theorem iterate_no_boundary (s : State) (h : s.decim ≠ s.kOut) : iterate s = advance s := by
  simp [iterate, decimate, h]

/-- A locked boundary under ERROR_ONLY (41_step.md R149). -/
theorem iterate_locked_error_only (s : State) (h : s.decim = s.kOut) (hl : s.isLocked = true) (hk : s.cfg.lockSkip = .errorOnly) :
    iterate s = advance s.clearDecim := by
  simp [iterate, decimate, h, hl, hk]

/-- A locked boundary under REST_OF_ITERATION (41_step.md R149). -/
theorem iterate_locked_rest (s : State) (h : s.decim = s.kOut) (hl : s.isLocked = true)
    (hk : s.cfg.lockSkip = .restOfIteration) : iterate s = .again s.clearDecim := by
  simp [iterate, decimate, h, hl, hk]

/-- An unlocked boundary runs the loop filter on a detector output that is no NaN (42_error_loop.md R160). -/
theorem iterate_update (s : State) (h : s.decim = s.kOut) (hl : s.isLocked = false)
    (hn : isnan (ted s.matched s.derivative) = false) :
    iterate s = advance (s.clearDecim.updateLoop (ted s.matched s.derivative)) := by
  simp [iterate, decimate, errorUpdate, h, hl, hn]

/-- An unlocked boundary with a NaN is NUMERIC (42_error_loop.md R162). -/
theorem iterate_numeric (s : State) (h : s.decim = s.kOut) (hl : s.isLocked = false)
    (hn : isnan (ted s.matched s.derivative) = true) : iterate s = .raised .numeric s.clearDecim := by
  simp [iterate, decimate, errorUpdate, h, hl, hn]

/-- The advance writes B when the branch index fits s32 (41_step.md R144). -/
theorem advance_fits (s : State) (h : branchFits (fmul (fadd s.tau s.del) (f32 s.npfb.toNat)) = true) :
    advance s = .again s.countOutput.advancePhase.roundBranch := by
  obtain h' | h' := advance_cases s
  · exact h'.2
  · rw [h] at h'
    cases h'.1

/-- The advance is BRANCH_RANGE when it does not (41_step.md R144). -/
theorem advance_outOfRange (s : State) (h : branchFits (fmul (fadd s.tau s.del) (f32 s.npfb.toNat)) = false) :
    advance s = .raised .branchRange s.countOutput.advancePhase := by
  obtain h' | h' := advance_cases s
  · rw [h] at h'
    cases h'.1
  · exact h'.2

/-- What it is for a soft branch index to fit (41_step.md R144). -/
theorem branchFits_iff (bf : Word) :
    branchFits bf = true ↔ isfinite bf = true ∧ -2 ^ 31 ≤ roundHA bf ∧ roundHA bf ≤ 2 ^ 31 - 1 := by
  simp [branchFits, and_assoc]

/-! ## The branch index as an integer -/

/-- A branch index that fits s32 is kept exactly. -/
theorem toInt_roundHA (bf : Word) (h : -2 ^ 31 ≤ roundHA bf) (h' : roundHA bf ≤ 2 ^ 31 - 1) :
    (BitVec.ofInt 32 (roundHA bf)).toInt = roundHA bf := by
  rw [BitVec.toInt_ofInt, Int.bmod_eq_of_le] <;> omega

/-- The correction of a branch index that reached NPFB is exact (41_step.md R145). -/
theorem toInt_sub_npfb (b npfb : Word) (h : (npfb.toNat : Int) ≤ b.toInt) : (b - npfb).toInt = b.toInt - npfb.toNat := by
  have hb := BitVec.toInt_lt (x := b)
  have hn : npfb.toInt = npfb.toNat := by rw [BitVec.toInt_eq_toNat_of_lt]; omega
  rw [BitVec.toInt_sub, hn, Int.bmod_eq_of_le] <;> omega

theorem ofInt_sub_npfb (i : Int) (npfb : Word) (h : (npfb.toNat : Int) ≤ 2 ^ 31 - 1) :
    BitVec.ofInt 32 i - npfb = BitVec.ofInt 32 (i - npfb.toNat) := by
  have hn : npfb.toInt = npfb.toNat := by rw [BitVec.toInt_eq_toNat_of_lt]; omega
  apply BitVec.eq_of_toInt_eq
  rw [BitVec.toInt_sub, BitVec.toInt_ofInt, BitVec.toInt_ofInt, hn]
  simp

/-- Steps 2c, 2d and 3 in one record, when the advance reaches NPFB (41_step.md R143 to R145). -/
theorem correct_advanced (s : State) (tau bf : Word) (ht : tau = fadd s.tau s.del) (hb : bf = fmul tau (f32 s.npfb.toNat))
    (h : (s.npfb.toNat : Int) ≤ 2 ^ 31 - 1) :
    s.countOutput.advancePhase.roundBranch.correct =
      { s with
        decim := s.decim + 1
        tau := fsub tau fone
        bf := fsub bf (f32 s.npfb.toNat)
        b := BitVec.ofInt 32 (roundHA bf - s.npfb.toNat) } := by
  rw [← ofInt_sub_npfb _ s.npfb h, hb, ht]
  rfl

/-- The last iteration of a STEP: the advance reaches NPFB, and the correction follows (41_step.md R131). -/
theorem outputLoop_last (room : Nat) (s s₁ : State) (tau bf : Word) (hi : iterate s = advance s₁) (h0 : 0 ≤ s.b.toInt)
    (h1 : s.b.toInt < s.npfb.toNat) (ht : tau = fadd s₁.tau s₁.del) (hb : bf = fmul tau (f32 s₁.npfb.toNat))
    (hf : isfinite bf = true) (h2 : (s₁.npfb.toNat : Int) ≤ roundHA bf) (h3 : roundHA bf ≤ 2 ^ 31 - 1) :
    outputLoop (room + 1) s =
      .completed
        { s₁ with
          decim := s₁.decim + 1
          tau := fsub tau fone
          bf := fsub bf (f32 s₁.npfb.toNat)
          b := BitVec.ofInt 32 (roundHA bf - s₁.npfb.toNat) }
        [s.outputSample] := by
  have hbf : fmul (fadd s₁.tau s₁.del) (f32 s₁.npfb.toNat) = bf := by rw [hb, ht]
  rw [advance_fits _ (hbf ▸ (branchFits_iff bf).2 ⟨hf, by omega, h3⟩)] at hi
  have hl : loopTest s₁.countOutput.advancePhase.roundBranch = .leave := by
    apply loopTest_leave
    have e : s₁.countOutput.advancePhase.roundBranch.b = BitVec.ofInt 32 (roundHA bf) := by rw [← hbf]; rfl
    rw [e, toInt_roundHA _ (by omega) h3]
    exact h2
  rw [outputLoop_again _ _ _ (loopTest_body _ h0 h1) hi, outputLoop_leave _ _ hl,
    correct_advanced s₁ tau bf ht hb (by omega)]
  rfl

end Sys2Proof.Machine
end

