-- ==== Sys2Proof/Machine/Assembly.lean ====
section
/-! DEFINITION. The assembly syntax of SSC (30_encoding.md R96): one line of text to the words of one command. It is
a tool beside the machine: no step uses it. Braces are written by their code points. -/

namespace Sys2Proof.Machine

/-- A lexical token of a line. -/
inductive Tok where
  | word (cs : List Char)
  | comma
  | openParen
  | closeParen
  | openBrace
  | closeBrace
deriving DecidableEq, Repr

/-- The pending word, if any, before more tokens; it is kept in reverse. -/
def flushWord (acc : List Char) (rest : List Tok) : List Tok := if acc.isEmpty then rest else .word acc.reverse :: rest

/-- The tokens of a line; a semicolon starts a comment (30_encoding.md R96). -/
def tokenize : (acc : List Char) → List Char → List Tok
  | acc, [] => flushWord acc []
  | acc, ch :: cs =>
    if ch.toNat = 59 then flushWord acc []
    else if ch.toNat = 32 ∨ ch.toNat = 9 then flushWord acc (tokenize [] cs)
    else if ch.toNat = 44 then flushWord acc (.comma :: tokenize [] cs)
    else if ch.toNat = 40 then flushWord acc (.openParen :: tokenize [] cs)
    else if ch.toNat = 41 then flushWord acc (.closeParen :: tokenize [] cs)
    else if ch.toNat = 123 then flushWord acc (.openBrace :: tokenize [] cs)
    else if ch.toNat = 125 then flushWord acc (.closeBrace :: tokenize [] cs)
    else tokenize (ch :: acc) cs

/-- The value of a digit in a base up to 16. -/
def digitValue (base : Nat) (ch : Char) : Option Nat :=
  let n := ch.toNat
  let v := if 48 ≤ n ∧ n ≤ 57 then some (n - 48)
    else if 65 ≤ n ∧ n ≤ 70 then some (n - 55)
    else if 97 ≤ n ∧ n ≤ 102 then some (n - 87)
    else none
  v.filter (· < base)

/-- The leading digits of the characters: their value after `acc`, how many there are, and the rest. -/
def readDigits (base : Nat) : (acc count : Nat) → List Char → Nat × Nat × List Char
  | acc, count, [] => (acc, count, [])
  | acc, count, ch :: cs =>
    match digitValue base ch with
    | some d => readDigits base (acc * base + d) (count + 1) cs
    | none => (acc, count, ch :: cs)

/-- A number made of digits to the end of the characters. -/
def wholeDigits (base : Nat) (cs : List Char) : Option Nat :=
  match readDigits base 0 0 cs with
  | (n, _ + 1, []) => some n
  | _ => none

/-- An integer operand that fits one word: decimal, or hexadecimal after 0x (30_encoding.md R96). -/
def parseInteger (cs : List Char) : Option Word :=
  let n := match cs with
    | '0' :: 'x' :: hex => wholeDigits 16 hex
    | _ => wholeDigits 10 cs
  (n.filter (· < 2 ^ 32)).map (BitVec.ofNat 32)

/-- The binary32 value nearest to ±digits·10^exp10, ties to even (30_encoding.md R96). -/
def realOfDecimal (neg : Bool) (digits : Nat) (exp10 : Int) : Word :=
  fpack neg (roundMag (digits * 10 ^ exp10.toNat * 2 ^ 149) (10 ^ (-exp10).toNat))

/-- The exponent part of a decimal literal, empty or e with an optional sign and digits. -/
def parseExponent : List Char → Option Int
  | [] => some 0
  | 'e' :: '-' :: cs => (wholeDigits 10 cs).map fun n => -(n : Int)
  | 'e' :: '+' :: cs => (wholeDigits 10 cs).map fun n => (n : Int)
  | 'e' :: cs => (wholeDigits 10 cs).map fun n => (n : Int)
  | _ => none

/-- An unsigned decimal literal after its sign. -/
def parseDecimal (neg : Bool) (cs : List Char) : Option Word :=
  match readDigits 10 0 0 cs with
  | (whole, n, '.' :: more) =>
    match readDigits 10 whole 0 more with
    | (digits, places, tail) =>
      if n + places = 0 then none
      else (parseExponent tail).map fun e => realOfDecimal neg digits (e - (places : Int))
  | (_, 0, _) => none
  | (whole, _ + 1, tail) => (parseExponent tail).map (realOfDecimal neg whole)

/-- A real operand: a raw bit pattern of eight hexadecimal digits after #0x, or a decimal literal (30_encoding.md
R96). -/
def parseReal (cs : List Char) : Option Word :=
  match cs with
  | '#' :: '0' :: 'x' :: hex => if hex.length = 8 then (wholeDigits 16 hex).map (BitVec.ofNat 32) else none
  | '-' :: rest => parseDecimal true rest
  | _ => parseDecimal false cs

/-- One sample operand to the end of the line. -/
def parseSample : NumKind → List Tok → Option Num
  | .real, [.word a] => (parseReal a).map .real
  | .complex, [.openParen, .word a, .comma, .word b, .closeParen] =>
    match parseReal a, parseReal b with
    | some re, some im => some (.complex re im)
    | _, _ => none
  | _, _ => none

/-- The items of a list of real numbers, to its closing brace and the end of the line. -/
def parseReals : List Tok → Option (List Num)
  | [.word a, .closeBrace] => (parseReal a).map fun v => [.real v]
  | .word a :: .comma :: rest =>
    match parseReal a, parseReals rest with
    | some v, some vs => some (.real v :: vs)
    | _, _ => none
  | _ => none

/-- The items of a list of complex numbers, to its closing brace and the end of the line. -/
def parseComplexes : List Tok → Option (List Num)
  | [.openParen, .word a, .comma, .word b, .closeParen, .closeBrace] =>
    match parseReal a, parseReal b with
    | some re, some im => some [.complex re im]
    | _, _ => none
  | .openParen :: .word a :: .comma :: .word b :: .closeParen :: .comma :: rest =>
    match parseReal a, parseReal b, parseComplexes rest with
    | some re, some im, some vs => some (.complex re im :: vs)
    | _, _, _ => none
  | _ => none

/-- A list of numbers between braces, to the end of the line (30_encoding.md R96). -/
def parseNums : NumKind → List Tok → Option (List Num)
  | _, [.openBrace, .closeBrace] => some []
  | .real, .openBrace :: rest => parseReals rest
  | .complex, .openBrace :: rest => parseComplexes rest
  | _, _ => none

/-- The names of the register index map, in index order (43_configuration.md R210). -/
def registerNames : List String :=
  ["TAU", "BF", "B", "DEL", "R", "Q", "Q_HAT", "Q_PRIME", "ALPHA", "BETA", "BT", "DECIM_COUNTER", "K", "K_OUT", "NPFB",
    "H_LEN", "L", "STATUS", "PARAMS", "DEL_NOM"]

/-- The operand of READ_REG: a name of the map, or an index that fits SUB (30_encoding.md R96). -/
def parseRegister (cs : List Char) : Option Byte :=
  match registerNames.findIdx? fun name => name.toList == cs with
  | some i => some (BitVec.ofNat 8 i)
  | none => ((parseInteger cs).filter fun w => w.toNat < 2 ^ 8).map fun w => BitVec.ofNat 8 w.toNat

/-- The command with a mnemonic and the tokens after it (30_encoding.md R96). -/
def parseCommand (c : Config) (mnemonic : List Char) (toks : List Tok) : Option Instr :=
  if mnemonic == "CONSTRUCT".toList then
    match toks with
    | .word k :: .comma :: .word npfb :: .comma :: rest =>
      match parseInteger k, parseInteger npfb, parseNums c.coefKind rest with
      | some k, some npfb, some coefs =>
        if coefs.length < 2 ^ 32 then
          some (.construct k npfb (BitVec.ofNat 32 coefs.length) (coefs.take (c.coefCount (BitVec.ofNat 32 coefs.length))))
        else none
      | _, _, _ => none
    | _ => none
  else if mnemonic == "CONSTRUCT_DESIGN".toList then
    match toks with
    | [.word ftype, .comma, .word k, .comma, .word m, .comma, .word ebw, .comma, .word npfb] =>
      match parseInteger ftype, parseInteger k, parseInteger m, parseReal ebw, parseInteger npfb with
      | some ftype, some k, some m, some ebw, some npfb => some (.constructDesign ftype k m ebw npfb)
      | _, _, _, _, _ => none
    | _ => none
  else if mnemonic == "STEP".toList then (parseSample c.sampleKind toks).map .step
  else if mnemonic == "EXECUTE".toList then
    ((parseNums c.sampleKind toks).filter fun xs => xs.length < 2 ^ 32).map .execute
  else
    match toks with
    | [] =>
      if mnemonic == "LOCK".toList then some .lock
      else if mnemonic == "UNLOCK".toList then some .unlock
      else if mnemonic == "GET_TAU".toList then some .getTau
      else if mnemonic == "RESET".toList then some .reset
      else none
    | [.word a] =>
      if mnemonic == "SET_BANDWIDTH".toList then (parseReal a).map .setBandwidth
      else if mnemonic == "SET_OUTPUT_RATE".toList then (parseInteger a).map .setOutputRate
      else if mnemonic == "SET_RATE".toList then (parseReal a).map .setRate
      else if mnemonic == "READ_REG".toList then (parseRegister a).map .readReg
      else none
    | _ => none

/-- The words a line of assembly encodes: none for a line that is blank or only a comment, `none` for a line that is no
command (30_encoding.md R96). -/
def assemble (c : Config) (line : List Char) : Option (List Word) :=
  match tokenize [] line with
  | [] => some []
  | .word mnemonic :: toks => (parseCommand c mnemonic toks).map encode
  | _ => none

end Sys2Proof.Machine
end

