-- ==== Sys2Proof/Tests/Slice0.lean ====
section
/-! SUPPORT. The model's own tests. Expected values come from spec/95_test_vectors.md (the vector is named beside each)
or are written out from an encoding table of the spec. -/

-- Kernel evaluations one after another: checked side by side, they ask for more memory than a checker may use.
set_option Elab.async false

namespace Sys2Proof.Tests

open Sys2Proof.Machine

/-! ## Decoding: words written out from 30_encoding.md R80 to R84 -/

/-- The complex instance with the suggested parameters. -/
abbrev cfg : Config := Config.suggested

/-- The instance with real samples. -/
abbrev realCfg : Config := { Config.suggested with sampleKind := .real }

/-- The instance with complex coefficients. -/
abbrev complexCfg : Config := { Config.suggested with coefKind := .complex }

/-- CONSTRUCT with two real coefficients, its word layout of R81 and its length of R83. -/
theorem test_decode_construct :
    decode cfg [0x01000000, 0x00000002, 0x00000004, 0x00000002, 0x3F800000, 0x40000000, 0x30000000] =
      .command (.construct 2 4 2 [.real 0x3F800000, .real 0x40000000]) 6 := by decide

/-- R83 and V-ENC-15: no coefficients follow an L above L_MAX. -/
theorem test_decode_construct_long :
    decode cfg [0x01000000, 0x00000002, 0x00000004, 0x00011170, 0x30000000] =
      .command (.construct 2 4 0x00011170 []) 4 := by decide

/-- R98: CONSTRUCT_DESIGN 1, 2, 3, 0.35, 32. -/
theorem test_decode_construct_design :
    decode cfg [0x02000000, 1, 2, 3, 0x3EB33333, 0x20] = .command (.constructDesign 1 2 3 0x3EB33333 32) 6 := by decide

/-- R98: STEP (1.0, -0.5). -/
theorem test_decode_step :
    decode cfg [0x10000000, 0x3F800000, 0xBF000000] = .command (.step (.complex 0x3F800000 0xBF000000)) 3 := by decide

/-- R98: STEP 0.5 with REAL samples. -/
theorem test_decode_step_real : decode realCfg [0x10000000, 0x3F000000] = .command (.step (.real 0x3F000000)) 2 := by
  decide

/-- R98: EXECUTE of 0.0, 1.0 with REAL samples. -/
theorem test_decode_execute :
    decode realCfg [0x11000000, 2, 0, 0x3F800000] = .command (.execute [.real 0, .real 0x3F800000]) 4 := by decide

/-- R98: SET_BANDWIDTH 0.02. -/
theorem test_decode_set_bandwidth : decode cfg [0x20000000, 0x3CA3D70A] = .command (.setBandwidth 0x3CA3D70A) 2 := by
  decide

/-- R98: SET_OUTPUT_RATE 2. -/
theorem test_decode_set_output_rate : decode cfg [0x21000000, 2] = .command (.setOutputRate 2) 2 := by decide

/-- R98: SET_RATE 0.75. -/
theorem test_decode_set_rate : decode cfg [0x22000000, 0x3F400000] = .command (.setRate 0x3F400000) 2 := by decide

/-- R98: the one-word commands. -/
theorem test_decode_one_word :
    decode cfg [0x30000000] = .command .lock 1 ∧ decode cfg [0x31000000] = .command .unlock 1 ∧
      decode cfg [0x40000000] = .command .getTau 1 ∧ decode cfg [0x41030000] = .command (.readReg 3) 1 ∧
      decode cfg [0x50000000] = .command .reset 1 := by decide

/-- V-ENC-1, V-ENC-2, V-ENC-4, V-ENC-5, V-ENC-7: illegal encodings at their lengths. -/
theorem test_decode_illegal :
    decode cfg [0x10010000, 0x3F800000, 0] = .illegal .nonzeroSub 0x10 3 ∧
      decode cfg [0x30000001] = .illegal .nonzeroReserved 0x30 1 ∧
      decode cfg [0x4100FFFF] = .illegal .nonzeroReserved 0x41 1 ∧
      decode cfg [0x0F000000, 0x30000000] = .illegal .unknownOpcode 0x0F 1 ∧
      decode cfg [0x11010000, 1, 0x3F800000, 0] = .illegal .nonzeroSub 0x11 4 := by decide

/-- 20_memory.md R64: a command that has not arrived whole is not decoded. -/
theorem test_decode_incomplete :
    decode cfg [] = .incomplete ∧ decode cfg [0x10000000, 0] = .incomplete ∧ decode cfg [0x01000000, 2, 4] = .incomplete := by
  decide

/-- V-ENC-13 and V-ENC-14: the lengths of EXECUTE with n = 4 and of CONSTRUCT with complex coefficients and L = 3. -/
theorem test_lengths :
    commandLength cfg 0x11000000 [4] = some 10 ∧ commandLength complexCfg 0x01000000 [2, 2, 3] = some 10 := by decide

/-- The opcode table's numbering: READ_REG DEL from its bits. -/
theorem test_decode_table_word : decodeTableWord 32 0x41030000 = some (.readReg 3) := by decide

/-- 20_memory.md R63: the least significant byte travels first, and a partial word is left. -/
theorem test_byte_order : wordsOfBytes [0x78, 0x56, 0x34, 0x12, 0xAA] = ([0x12345678], [0xAA]) := by decide

/-- 30_encoding.md R96 and R98: lines of assembly. -/
theorem test_assemble :
    assemble cfg "SET_BANDWIDTH 0.02 ; loop bandwidth".toList = some [0x20000000, 0x3CA3D70A] ∧
      assemble cfg "STEP (1.0, -0.5)".toList = some [0x10000000, 0x3F800000, 0xBF000000] ∧
      assemble cfg "READ_REG DEL".toList = some [0x41030000] ∧
      assemble cfg "CONSTRUCT_DESIGN 1, 2, 3, 0.35, 32".toList = some [0x02000000, 1, 2, 3, 0x3EB33333, 32] := by decide

/-! ## Well-formedness: one ill-formed term for each check -/

theorem test_ill_formed_construct_kind : (Instr.construct 2 4 1 [.complex 0 0]).wellFormed cfg = false := by decide

theorem test_ill_formed_construct_count : (Instr.construct 2 4 2 [.real 0]).wellFormed cfg = false := by decide

theorem test_ill_formed_step_kind : (Instr.step (.real 0)).wellFormed cfg = false := by decide

theorem test_ill_formed_execute_kind : (Instr.execute [.complex 0 0, .real 0]).wellFormed cfg = false := by decide

/-- The count word of EXECUTE holds at most 2^32 - 1. -/
theorem test_ill_formed_execute_count (xs : List Num) (h : xs.length = 2 ^ 32) :
    (Instr.execute xs).wellFormed cfg = false := by
  simp [Instr.wellFormed, h]

theorem test_well_formed : (Instr.construct 2 4 2 [.real 0, .real 1]).wellFormed cfg = true := by decide

/-- 00_scope.md R6: complex coefficients need complex samples, and each limit has its range. -/
theorem test_illegal_parameters :
    Config.legal { realCfg with coefKind := .complex } = false ∧ Config.legal { cfg with kMax := 1 } = false ∧
      Config.legal { cfg with kOutMax := 0 } = false ∧ Config.legal { cfg with npfbMax := 2 ^ 24 + 1 } = false ∧
      Config.legal { cfg with lMax := 0 } = false ∧ Config.legal { cfg with maxBurst := 2 ^ 31 } = false ∧
      cfg.legal = true := by decide

/-! ## Arithmetic -/

/-- 43_configuration.md R187: 1/(1/7) and 7/1 differ by one unit in the last place. -/
theorem test_fdiv_rounding : fdiv fone (fdiv fone 0x40E00000) = 0x40DFFFFF ∧ f32 7 = 0x40E00000 := by decide

/-- 00_scope.md R10: halves away from zero. -/
theorem test_round_half_away :
    roundHA 0x40200000 = 3 ∧ roundHA 0xBF000000 = -1 ∧ roundHA 0x3EFAE148 = 0 := by decide

/-- 00_scope.md R10: canonical NaN from ∞ - ∞ and 0·∞; V-CFG-9: 0.22·2^-149 rounds to +0; V-CFG-33: a subnormal
quotient. -/
theorem test_special_values :
    fsub 0x7F800000 0x7F800000 = 0x7FC00000 ∧ fmul 0 0xFF800000 = 0x7FC00000 ∧ fmul c022 1 = 0 ∧
      fdiv fone 0x7F7FFFFF = 0x00200000 ∧ fadd 0x80000000 0 = 0 := by decide

/-- V-EU-10 and V-EU-15: the clip keeps -0.0 and clips an infinity. -/
theorem test_clip : clip 0x80000000 = 0x80000000 ∧ clip 0x7F800000 = fone ∧ clip 0xC10C0000 = fnegOne := by decide

/-- 41_step.md R148, by hand: (2 - i)·(1 + i) = 3 + i. -/
theorem test_complex_product :
    smul (.complex 0x40000000 0xBF800000) (.complex 0x3F800000 0x3F800000) = .complex 0x40400000 0x3F800000 := by decide +kernel

/-! ## Single steps on small states -/

/-- The state an outcome goes on with. -/
def after : Result → State
  | .next s => s
  | .fault _ => State.reset
  | .refused _ => State.reset

/-- The outcome is a next state. -/
def goesOn : Result → Bool
  | .next _ => true
  | .fault _ => false
  | .refused _ => false

/-- An outcome that goes on is the next state `after` reads off it. -/
theorem eq_next_of_goesOn (o : Result) (h : goesOn o = true) : o = .next (after o) := by
  cases o
  · rfl
  · cases h
  · cases h

/-- The prototype of the vectors' start state S0: 1, 2, …, 9. -/
def prototype : List Num :=
  [.real 0x3F800000, .real 0x40000000, .real 0x40400000, .real 0x40800000, .real 0x40A00000, .real 0x40C00000,
    .real 0x40E00000, .real 0x41000000, .real 0x41100000]

/-- State S0 of the vectors: CONSTRUCT 2, 4, 1…9. -/
def s0 : State := State.reset.install 2 4 9 prototype

/-- V-CON-1: what CONSTRUCT leaves. -/
theorem test_construct :
    let t := after (exec (.construct 2 4 9 prototype) State.reset)
    t.output = [0x01000000] ∧ t.hLen = 2 ∧ t.r = 0x3F000000 ∧ t.del = 0x40000000 ∧ t.alpha = 0x3F7D70A4 ∧
      t.beta = 0x3B102DE0 ∧ t.dh.take 2 = [.real 0xBFE00000, .real 0x3F000000] ∧
      t.dh.drop 8 = [.real 0xBFE00000] ∧ t.wMf = [.complex 0 0, .complex 0 0] ∧ statusWord t = 1 := by decide +kernel

/-- V-CON-9b and V-CON-8: L above L_MAX is checked before k, and an infinite coefficient is rejected. -/
theorem test_construct_rejected :
    (after (exec (.construct 1025 4 70000 []) State.reset)).output = [0x01011200] ∧
      (after (exec (.construct 2 4 2 [.real 0x3F800000, .real 0x7F800000]) State.reset)).output = [0x01011900] := by
  decide +kernel

/-- The stub of V-DES: a routine that answers ones to one call. -/
def designState : State :=
  { State.reset with cfg := { cfg with design := .table [1] [⟨1, 4, 1, 0x3EB33333, List.replicate 9 (.real fone)⟩] } }

/-- 40_construction.md R120: a prototype of length 2·2·2·1 + 1 = 9 and H_LEN = 2·k·m = 4. -/
theorem test_construct_design :
    let t := after (exec (.constructDesign 1 2 1 0x3EB33333 2) designState)
    t.output = [0x02000000] ∧ t.l = 9 ∧ t.hLen = 4 ∧ t.h = List.replicate 9 (.real fone) := by decide +kernel

/-- V-DES-2, V-DES-4, V-DES-6 and V-DES-7. -/
theorem test_construct_design_rejected :
    (after (exec (.constructDesign 1 2 0 0x3EB33333 32) designState)).output = [0x02011600] ∧
      (after (exec (.constructDesign 1 2 3 0x7FC00000 32) designState)).output = [0x02011700] ∧
      (after (exec (.constructDesign 9 2 3 0x3EB33333 32) designState)).output = [0x02011800] ∧
      (after (exec (.constructDesign 1 64 16 0x3EB33333 32) designState)).output = [0x02011200] := by decide +kernel

/-- The instance of V-CON-11, with complex coefficients. -/
def s0Complex : State :=
  { State.reset with cfg := complexCfg }.install 2 2 3
    [.complex 0x3F800000 0, .complex 0 0x3F800000, .complex 0x40000000 0xBF800000]

/-- V-ST-1 row 1, and V-ST-4 row 3 with complex coefficients. -/
theorem test_step :
    let t := after (exec (.step (.complex 0x3F800000 0)) s0)
    let u := after (exec (.step (.complex 0x3F800000 0)) { s0Complex with decim := 1, wMf := [.complex 0 0x40000000], wDmf := [.complex 0 0x40000000] })
    (t.output = [0x10000000, 1, 0x3F000000, 0] ∧ t.tau = 0x3F800000 ∧ t.bf = 0x40800000 ∧ t.b = 4 ∧ t.decim = 1) ∧
      (u.output = [0x10000000, 1, 0x3F000000, 0] ∧ u.q = 0xBE800000 ∧ u.qHat = 0xBA102DE0 ∧ u.del = 0x3FFFEDFA ∧
        s0Complex.dh.take 2 = [.complex 0xBE800000 0x3E800000, .complex 0x3E000000 0xBE000000]) := by
  decide +kernel

/-- S0 as V-ST-3 leaves it before its third STEP: K_OUT = 4, DEL = 0.5, a boundary at the first of two outputs. -/
def s0TwoOutputs : State :=
  let hist : List Num := [.complex 0 0, .complex 0x3F800000 0]
  { (after (exec (.setOutputRate 4) s0)) with decim := 4, wMf := hist, wDmf := hist, output := [] }

/-- V-ST-3 row 3: two outputs, at branches 0 and 2, with the error update at the first. -/
theorem test_step_two_outputs :
    let t := after (exec (.step (.complex 0x40000000 0x3F800000)) s0TwoOutputs)
    t.output = [0x10000000, 2, 0x3F800000, 0x3F000000, 0x40400000, 0x3FC00000] ∧ t.tau = 0xBB902E00 ∧ t.bf = 0xBC902E00 ∧
      t.b = 0 ∧ t.decim = 2 ∧ t.del = 0x3EFEDFA4 ∧ t.qHat = 0xBB102DE0 ∧ s0TwoOutputs.del = 0x3F000000 := by decide +kernel

/-- V-ST-1 row 5, from the registers of row 4: an error update. -/
theorem test_step_update :
    let s := { s0 with tau := 0xBB102E00, bf := 0xBC102E00, b := 0, decim := 1, del := 0x3FFFB7E9, q := 0xBF800000, qHat := 0xBB102DE0, qPrime := 0xBB102DE0 }
    let t := after (exec (.step (.complex 0xBF800000 0x3F000000)) s)
    t.output = [0x10000000, 1, 0xBF000000, 0x3E800000] ∧ t.tau = 0x3F7E50E8 ∧ t.bf = 0x407E50E8 ∧ t.b = 4 ∧
      t.decim = 1 ∧ t.del = 0x3FFF708B ∧ t.q = 0xBF800000 ∧ t.qHat = 0xBB8F7554 := by decide +kernel

/-- V-EX-1. -/
theorem test_execute :
    let t := after (exec (.execute [.complex 0x3F800000 0, .complex 0 0, .complex 0x40000000 0x3F800000, .complex 0 0]) s0)
    t.output = [0x11000000, 2, 0x3F000000, 0, 0x3F800000, 0x3F000000] ∧ t.tau = 0xBB102E00 ∧ t.decim = 1 ∧
      t.del = 0x3FFFB7E9 ∧ t.qHat = 0xBB102DE0 := by decide +kernel

/-- V-EX-3: the batch stops at the first non-finite sample. -/
theorem test_execute_nonfinite :
    let t := after (exec (.execute [.complex 0x3F800000 0, .complex 0 0, .complex 0x40000000 0x7F800000, .complex 0x40A00000 0]) s0)
    t.output = [0x11050000, 1, 0x3F000000, 0] ∧ t.tau = 0 ∧ t.decim = 1 ∧ statusWord t = 1 := by decide +kernel

/-- V-CFG-8 and V-CFG-4. -/
theorem test_set_bandwidth :
    let t := after (exec (.setBandwidth 0x3CA3D70A) s0)
    t.output = [0x20000000] ∧ t.alpha = 0x3F7AE148 ∧ t.beta = 0x3B902DE0 ∧
      (after (exec (.setBandwidth 0x3F800001) s0)).output = [0x20011400] := by decide +kernel

/-- V-CFG-15, V-CFG-12 and the clamp of V-CFG-19. -/
theorem test_set_output_rate :
    let t := after (exec (.setOutputRate 3) { s0 with kOut := 4, decim := 4 })
    t.output = [0x21000000] ∧ t.r = 0x3FC00000 ∧ t.del = 0x3F2AAAAB ∧ t.delNom = 0x3F2AAAAB ∧ t.decim = 3 ∧
      (after (exec (.setOutputRate 0xFFFFFFFF) s0)).output = [0x21011300] := by decide +kernel

/-- V-CFG-29, V-CFG-27 and V-CFG-28. -/
theorem test_set_rate :
    let t := after (exec (.setRate 0x3F400000) s0)
    t.output = [0x22000000] ∧ t.r = 0x3F400000 ∧ t.del = 0x3FAAAAAB ∧
      (after (exec (.setRate 0x00200000) s0)).output = [0x22011500] ∧
      (after (exec (.setRate 0x00400000) s0)).del = 0x7F000000 := by decide +kernel

/-- V-LK-0. -/
theorem test_lock : statusWord (after (exec .lock { s0 with isLocked := true })) = 3 := by decide +kernel

/-- V-LK-0. -/
theorem test_unlock : statusWord (after (exec .unlock { s0 with isLocked := false })) = 1 := by decide +kernel

/-- V-RR-1. -/
theorem test_get_tau : (after (exec .getTau { s0 with tau := 0x3F800000 })).output = [0x40000000, 0x3F800000] := by
  decide +kernel

/-- V-CON-1's PARAMS, V-ENC-3 and V-UNC-4. -/
theorem test_read_reg :
    (after (exec (.readReg 0x12) s0)).output = [0x41000000, 1] ∧
      (after (exec (.readReg 0x14) s0)).output = [0x41020000] ∧
      (after (exec (.readReg 0x00) State.reset)).output = [0x41030000] := by decide +kernel

/-- Program P5: RESET restores DEL to DEL_NOM and keeps the lock and the bandwidth. -/
theorem test_reset :
    let t := after (exec .reset { s0 with delNom := 0x3A000000, tau := 0x3A000000, decim := 1, isLocked := true, alpha := 0x3F000000, faulted := true, faultCause := 0x10 })
    t.output = [0x50000000] ∧ t.del = 0x3A000000 ∧ t.tau = 0 ∧ t.decim = 0 ∧ t.alpha = 0x3F000000 ∧ statusWord t = 3 := by
  decide +kernel

/-- V-FLT-4's third STEP: the detector's NaN is the fault NUMERIC, and the infinite sample is delivered. -/
theorem test_numeric_fault :
    let s := { State.reset.install 2 1 3 [.real fone, .real fone, .real fone] with decim := 1, wMf := [.complex 0x7F61B1E6 0, .complex 0 0] }
    let t := after (exec (.step (.complex 0x7F61B1E6 0)) s)
    t.output = [0x10120000, 1, 0x7F800000, 0] ∧ statusWord t = 0x1205 := by decide +kernel

/-- V-LK-2's third STEP: under REST_OF_ITERATION a locked boundary emits its sample twice. -/
theorem test_rest_of_iteration :
    let s := { s0 with cfg := { cfg with lockSkip := .restOfIteration }, isLocked := true, decim := 1 }
    let t := after (exec (.step (.complex 0x40000000 0x3F800000)) s)
    t.output = [0x10000000, 2, 0x3F800000, 0x3F000000, 0x3F800000, 0x3F000000] ∧ t.b = 4 ∧ t.decim = 1 := by
  decide +kernel

/-- V-ENC-5: an unknown opcode takes one word; the next word is a new header. -/
theorem test_step_illegal :
    let t := after (step (s0.deliver [0x0F000000, 0x30000000]))
    t.output = [0x0F020000] ∧ t.input = [0x30000000] ∧ t.pos = 1 := by decide +kernel

/-- V-UNC-13, through the command stream and the opcode table's numbering. -/
theorem test_step_fetches :
    let t := after (step (State.reset.withFetchWord 32 0x11000000))
    t.output = [0x11030000, 0] ∧ t.pos = 2 ∧ t.input = [] := by decide +kernel

/-! ## Witnesses: concrete states and operands that meet the hypotheses of each statement, at the ends of its ranges -/

/-- S0 in the state a NUMERIC fault leaves, but for the unspecified registers. -/
def s0Faulted : State := { s0 with faulted := true, faultCause := 0x12 }

/-- S0 locked, at a decimation boundary. -/
def s0Locked : State := { s0 with isLocked := true, decim := 1 }

/-- V-FLT-4 before its third STEP: an unlocked boundary whose bank outputs overflow. -/
def s0Overflow : State :=
  { State.reset.install 2 1 3 [.real fone, .real fone, .real fone] with decim := 1, wMf := [.complex 0x7F61B1E6 0, .complex 0 0] }

/-- The finite sample (1.0, 0.0). -/
abbrev oneSample : Num := .complex 0x3F800000 0

theorem witness_DecodeEncodeWellFormed :
    (Instr.construct 2 4 2 [.real 0, .real 1]).wellFormed cfg = true ∧ (Instr.construct 2 4 0x00010001 []).wellFormed cfg = true ∧
      (Instr.execute []).wellFormed cfg = true := by decide

theorem witness_DecodedCommandIsItsEncoding : decode cfg [0x41FF0000, 0] = .command (.readReg 0xFF) 1 := by decide

theorem witness_IllegalEncodingsRejected :
    s0.cfg.legal = true ∧ (s0.deliver [0x51000000]).input = 0x51000000 :: [] ∧
      (0x51000000 : Word).toNat / 2 ^ 24 ∉ [0x01, 0x02, 0x10, 0x11, 0x20, 0x21, 0x22, 0x30, 0x31, 0x40, 0x41, 0x50] ∧
      commandLength cfg 0x30000001 [] = some 1 ∧ (0x30000001 : Word).toNat % 2 ^ 16 ≠ 0 ∧
      commandLength cfg 0x10010000 [0, 0] = some 3 ∧ (0x10010000 : Word).toNat / 2 ^ 16 % 2 ^ 8 ≠ 0 ∧
      commandLength cfg 0x41140000 [] = some 1 ∧ 0x14 ≤ (0x41140000 : Word).toNat / 2 ^ 16 % 2 ^ 8 ∧
      ¬ 0x14 ≤ (0x41130000 : Word).toNat / 2 ^ 16 % 2 ^ 8 := by decide +kernel

theorem witness_CommandLengths :
    commandLength cfg 0x01000000 [0, 0, 0x00010000] = some 65540 ∧ commandLength cfg 0x01000000 [0, 0, 0x00010001] = some 4 ∧
      commandLength cfg 0x11000000 [0] = some 2 ∧ commandLength cfg 0x00000000 [] = some 1 := by decide

theorem witness_StepRunsDecodedCommand :
    s0.cfg.legal = true ∧ decode s0.cfg (s0.deliver [0x30000000, 0x31000000]).input = .command .lock 1 ∧
      decode s0.cfg s0.input = .incomplete := by decide +kernel

theorem witness_StepRunsEncodedCommand :
    s0.cfg.legal = true ∧ (Instr.setRate 1).wellFormed s0.cfg = true ∧
      (s0.deliver [0x22000000, 1, 0x30000000]).input = encode (.setRate 1) ++ [0x30000000] := by decide +kernel

theorem witness_TruncatedCommandWaits :
    s0.cfg.legal = true ∧ (Instr.step oneSample).wellFormed s0.cfg = true ∧ 2 < (encode (.step oneSample)).length ∧
      (s0.deliver [0x10000000, 0x3F800000]).input = (encode (.step oneSample)).take 2 := by decide +kernel

theorem witness_LegalInstanceNeverStops : s0.cfg.legal = true ∧ Config.legal { s0.cfg with maxBurst := 0 } = false := by decide +kernel

theorem witness_EveryCommandAnswersOnce : s0.wf = true ∧ (Instr.step oneSample).wellFormed s0.cfg = true := by decide +kernel

theorem witness_RejectionChangesNothing :
    let s := s0.deliver [0x10000000, 0x7F800000, 0]
    s.cfg.legal = true ∧ decode s.cfg s.input = .command (.step (.complex 0x7F800000 0)) 3 ∧
      (after (step s)).output = s.output ++ [0x10050000, 0] ∧ goesOn (step s) = true ∧
      decode s.cfg [0x0F000000] = .illegal .unknownOpcode 0x0F 1 := by decide +kernel

theorem witness_PowerOnIsUnconfigured : decode State.reset.cfg (encode .reset ++ []) = .command .reset (encode .reset).length := by
  decide

theorem witness_UnconfiguredRejects :
    State.reset.configured = false ∧ (0x13 : Byte).toNat < 0x14 ∧ (0x13 : Byte) ≠ 0x11 ∧ (0x13 : Byte) ≠ 0x12 := by decide

theorem witness_FaultedRejects :
    s0Faulted.configured = true ∧ s0Faulted.faulted = true ∧ regWord s0Faulted 0x13 = some 0x40000000 := by decide +kernel

theorem witness_PowerOnValuesAreNeverRead :
    State.reset.configured = false ∧ State.reset ≠ { State.reset with k := 5, wMf := [.real 1] } := by decide

theorem witness_SmallBatches : s0.configured = true ∧ s0.faulted = false ∧ s0.cfg.maxBurst < 2 ^ 32 := by decide +kernel

theorem witness_ConstructInstalls :
    cfg.legal = true ∧ 2 ≤ (1024 : Word).toNat ∧ (1024 : Word).toNat ≤ cfg.kMax ∧ 1 ≤ (1 : Word).toNat ∧
      (1 : Word).toNat ≤ cfg.npfbMax ∧ (9 : Word).toNat ≤ cfg.lMax ∧ ∀ c ∈ prototype, numFinite c = true := by decide

theorem witness_ConstructRejectsInOrder :
    cfg.lMax < (0x00010001 : Word).toNat ∧ (1 : Word).toNat < 2 ∧ cfg.kMax < (1025 : Word).toNat ∧ (0 : Word).toNat = 0 ∧
      cfg.npfbMax < (1025 : Word).toNat ∧ ∃ c ∈ [Num.real 0x7F800000], numFinite c = false := by decide

theorem witness_ConstructDesignDelegates :
    let c := designState.cfg
    c.legal = true ∧ isnan 0x3EB33333 = false ∧ 0 ≤ fscaled 0x3EB33333 ∧ fscaled 0x3EB33333 ≤ 2 ^ 149 ∧
      ftypeAccepted c 1 = true ∧ 2 * 2 * 2 * 1 + 1 ≤ c.lMax ∧
      designCoefs c 1 (2 * 2) 1 0x3EB33333 = some (List.replicate 9 (.real fone)) ∧
      ∀ x ∈ List.replicate 9 (Num.real fone), numFinite x = true := by decide +kernel

theorem witness_ConstructDesignRejectsInOrder :
    let c := designState.cfg
    isnan 0x7FC00000 = true ∧ fscaled 0x80000001 < 0 ∧ 2 ^ 149 < fscaled 0x3F800001 ∧ ¬ fscaled 0x80000000 < 0 ∧
      ¬ 2 ^ 149 < fscaled 0x3F800000 ∧ ftypeAccepted c 2 = false ∧ designCoefs c 1 (2 * 2) 2 0x3EB33333 = none := by
  decide +kernel

theorem witness_DerivativeCoefficients :
    let p : List Num := [.real 0x3F800000, .real 0x40000000]
    p[(0 + 1) % p.length]? = some (.real 0x40000000) ∧ p[(0 + p.length - 1) % p.length]? = some (.real 0x40000000) ∧
      [Num.complex 1 2][(0 + 1) % 1]? = some (.complex 1 2) ∧ isfinite 0x7F7FFFFF = true ∧
      (0x01000000 : Word).toNat ≤ 2 ^ 24 := by decide

theorem witness_ConstructForgetsThePast :
    (Instr.construct 2 4 9 prototype).opcode = .construct ∧ s0.cfg = State.reset.cfg ∧ s0 ≠ State.reset := by decide +kernel

theorem witness_DefaultFilterBank :
    cfg.fb = .polyphase ∧ prototype.length = 8 + 1 ∧ prototype[1 * 4 + 3]? = some (.real 0x41000000) ∧
      [oneSample, oneSample][1]? = some oneSample := by decide

/-- A burst that completes, and one that is raised; the loop test at both ends of the bank. -/
theorem witness_StepRunsTheLoop :
    s0.configured = true ∧ s0.faulted = false ∧ numFinite oneSample = true ∧
      outputLoop s0.cfg.maxBurst (s0.push oneSample) =
        .completed { s0.push oneSample with tau := 0x3F800000, bf := 0x40800000, b := 4, decim := 1 } [.complex 0x3F000000 0] ∧
      outputLoop s0.cfg.maxBurst ({ s0 with b := 0xFFFFFFFF }.push oneSample) =
        .raised .branchRange ({ s0 with b := 0xFFFFFFFF }.push oneSample) [] ∧
      (s0.npfb.toNat : Int) ≤ (4 : Word).toInt ∧ (0xFFFFFFFF : Word).toInt < 0 ∧ (3 : Word).toInt < s0.npfb.toNat := by
  decide +kernel

theorem witness_StepWithoutOutput :
    let s := { s0 with b := 4 }
    s.configured = true ∧ s.faulted = false ∧ numFinite oneSample = true ∧ (s.npfb.toNat : Int) ≤ s.b.toInt := by decide +kernel

/-- Both ways of the statement: S0, and S0 locked at a boundary; the branch index ends of the range are 0 and 3. -/
theorem witness_StepOneOutput :
    s0.configured = true ∧ s0.faulted = false ∧ 1 ≤ s0.cfg.maxBurst ∧ 0 ≤ s0.b.toInt ∧ s0.b.toInt < s0.npfb.toNat ∧
      s0.decim ≠ s0.kOut ∧ s0Locked.decim = s0Locked.kOut ∧ s0Locked.isLocked = true ∧ s0Locked.cfg.lockSkip = .errorOnly ∧
      isfinite (fmul (fadd s0.tau s0.del) (f32 s0.npfb.toNat)) = true ∧
      (s0.npfb.toNat : Int) ≤ roundHA (fmul (fadd s0.tau s0.del) (f32 s0.npfb.toNat)) ∧
      roundHA (fmul (fadd s0.tau s0.del) (f32 s0.npfb.toNat)) ≤ 2 ^ 31 - 1 ∧ (3 : Word).toInt < s0.npfb.toNat := by
  decide +kernel

/-- An iteration inside a burst: an advance that stays in the bank, and advances to the least s32 and to the greatest
branch index of a binary32 value. -/
theorem witness_StepOneOutput_inside :
    s0.decim ≠ s0.kOut ∧ roundHA (fmul (fadd s0.tau 0x3F000000) (f32 s0.npfb.toNat)) = 2 ∧
      isfinite (fmul (fadd s0.tau 0x3F000000) (f32 s0.npfb.toNat)) = true ∧
      roundHA (fmul (fadd s0.tau 0xCE000000) (f32 s0.npfb.toNat)) = -2 ^ 31 ∧
      roundHA (fmul (fadd s0.tau 0x4DFFFFFF) (f32 s0.npfb.toNat)) = 2 ^ 31 - 128 := by decide +kernel

/-- V-ST-3's third STEP, whose error update stands inside a burst. -/
theorem witness_StepErrorUpdate_inside :
    let s := s0TwoOutputs.push (.complex 0x40000000 0x3F800000)
    let del := fadd (fdiv (f32 s.k.toNat) (f32 s.kOut.toNat)) (fadd (fmul fnegOne s.beta) (fmul s.qPrime s.alpha))
    s.decim = s.kOut ∧ s.isLocked = false ∧ s.b = 0 ∧ fbExecute s.cfg s.mf 0 = .complex 0x40000000 0x3F800000 ∧
      fbExecute s.cfg s.dmf 0 = .complex 0xC0600000 0xBFE00000 ∧
      fadd (fmul 0x40000000 0xC0600000) (fmul 0x3F800000 0xBFE00000) = 0xC10C0000 ∧ clip 0xC10C0000 = fnegOne ∧
      isfinite (fmul (fadd s.tau del) (f32 s.npfb.toNat)) = true ∧
      roundHA (fmul (fadd s.tau del) (f32 s.npfb.toNat)) = 2 := by decide +kernel

theorem witness_StepErrorUpdate :
    let s := { s0 with decim := 1 }
    let mf := fbExecute s.cfg (fbPush s.cfg s.mf oneSample) s.b.toNat
    let dmf := fbExecute s.cfg (fbPush s.cfg s.dmf oneSample) s.b.toNat
    let del := fadd (fdiv (f32 s.k.toNat) (f32 s.kOut.toNat)) (fadd (fmul (clip 0xBFE00000) s.beta) (fmul s.qPrime s.alpha))
    s.decim = s.kOut ∧ s.isLocked = false ∧ mf = .complex 0x3F800000 0 ∧ dmf = .complex 0xBFE00000 0 ∧
      fadd (fmul 0x3F800000 0xBFE00000) (fmul 0 0) = 0xBFE00000 ∧ isfinite (fmul (fadd s.tau del) (f32 s.npfb.toNat)) = true ∧
      (s.npfb.toNat : Int) ≤ roundHA (fmul (fadd s.tau del) (f32 s.npfb.toNat)) ∧
      roundHA (fmul (fadd s.tau del) (f32 s.npfb.toNat)) ≤ 2 ^ 31 - 1 := by decide +kernel

theorem witness_LockedLoopIsFrozen :
    s0Locked.isLocked = true ∧ (after (exec (.step oneSample) s0Locked)).faulted = false ∧
      (after (exec (.execute [oneSample]) s0Locked)).faulted = false := by decide +kernel

theorem witness_LockedBoundaryDuplicates :
    let s := { s0Locked with cfg := { cfg with lockSkip := .restOfIteration } }
    s.configured = true ∧ s.faulted = false ∧ 2 ≤ s.cfg.maxBurst ∧ s.decim = s.kOut ∧ 1 ≤ s.kOut.toNat ∧
      (s.npfb.toNat : Int) ≤ roundHA (fmul (fadd s.tau s.del) (f32 s.npfb.toNat)) := by decide +kernel

theorem witness_StepPushesSample :
    s0.configured = true ∧ s0.faulted = false ∧ numFinite oneSample = true ∧ s0.wMf = s0.wDmf := by decide +kernel

theorem witness_BurstIsBounded :
    (after (exec (.step oneSample) s0)).output = s0.output ++ [0x10000000, 1, 0x3F000000, 0] := by decide +kernel

theorem witness_FaultEntryKeepsConfiguration :
    s0Overflow.faulted = false ∧ (after (exec (.step (.complex 0x7F61B1E6 0)) s0Overflow)).faulted = true ∧
      (after (exec (.step oneSample) s0)).faulted = s0.faulted ∧
      (after (exec (.execute [oneSample]) s0Faulted)).faulted = s0Faulted.faulted := by decide +kernel

/-- The ends of s32: a soft branch index of 2^31, one below -2^31, and one that is infinite. -/
theorem witness_BranchRangeFaults :
    (0xFFFFFFFF : Word).toInt < 0 ∧ s0.decim ≠ s0.kOut ∧ 1 ≤ s0.cfg.maxBurst ∧
      2 ^ 31 - 1 < roundHA (fmul (fadd s0.tau 0x4E000000) (f32 s0.npfb.toNat)) ∧
      roundHA (fmul (fadd s0.tau 0xCE000001) (f32 s0.npfb.toNat)) < -2 ^ 31 ∧
      isfinite (fmul (fadd s0.tau 0x7F7FFFFF) (f32 s0.npfb.toNat)) = false := by decide +kernel

/-- The three boundary cases of an iteration, each with an advance that is no s32. -/
theorem witness_BranchRangeFaults_boundary :
    let s := { s0 with decim := 1, bt := 0, alpha := fone, beta := 0, qHat := 0x4E000000, qPrime := 0x4E000000 }
    let t := s.clearDecim.updateLoop (ted s.matched s.derivative)
    s0.afterBoundary s0 ∧ s0Locked.afterBoundary { s0Locked with decim := 0 } ∧ s.decim = s.kOut ∧ s.isLocked = false ∧
      isnan (ted s.matched s.derivative) = false ∧ t.qHat = 0x4E000000 ∧
      2 ^ 31 - 1 < roundHA (fmul (fadd t.tau t.del) (f32 t.npfb.toNat)) := by
  refine ⟨.inl ⟨by decide +kernel, rfl⟩, .inr (.inl ⟨by decide +kernel, by decide +kernel, by decide +kernel, rfl⟩), ?_⟩
  decide +kernel

theorem witness_StagnationOverflowsBurst :
    let s := { s0Locked with del := 0 }
    s.cfg.legal = true ∧ s.isLocked = true ∧ s.cfg.lockSkip = .errorOnly ∧ fadd s.tau s.del = s.tau ∧
      isfinite (fmul s.tau (f32 s.npfb.toNat)) = true ∧ s.b.toInt = roundHA (fmul s.tau (f32 s.npfb.toNat)) ∧
      s.b.toInt < s.npfb.toNat := by decide +kernel

theorem witness_NanDetectorFaults :
    let s := s0Overflow
    let x : Num := .complex 0x7F61B1E6 0
    s.decim = s.kOut ∧ s.isLocked = false ∧ numFinite x = true ∧
      fbExecute s.cfg (fbPush s.cfg s.mf x) s.b.toNat = .complex 0x7F800000 0 ∧
      fbExecute s.cfg (fbPush s.cfg s.dmf x) s.b.toNat = .complex 0 0 ∧
      isnan (fadd (fmul 0x7F800000 0) (fmul 0 0)) = true := by decide +kernel

theorem witness_NonfiniteSampleRejected :
    s0.configured = true ∧ s0.faulted = false ∧ fexp 0xFF800000 = 255 ∧ fexp 0x7FC00000 = 255 ∧ fexp 0x7F7FFFFF ≠ 255 := by
  decide +kernel

theorem witness_LockedHalfRate :
    let s := { s0 with isLocked := true }
    s.cfg.legal = true ∧ s.cfg.lockSkip = .errorOnly ∧ s.configured = true ∧ s.faulted = false ∧ 1 ≤ s.npfb.toNat ∧
      s.npfb.toNat ≤ s.cfg.npfbMax ∧ s.del = 0x40000000 ∧ s.tau = 0 ∧ s.bf = 0 ∧ s.b = 0 ∧ [oneSample, oneSample].length = 2 * 1 ∧
      ∀ x ∈ [oneSample, oneSample], numFinite x = true := by decide +kernel

theorem witness_ExecuteEqualsSteps :
    (∀ x ∈ [oneSample, oneSample], numFinite x = true) ∧ [oneSample, oneSample].length * s0.cfg.maxBurst < 2 ^ 32 ∧
      (after (exec (.execute [oneSample, oneSample]) s0)).output.head? = some 0x11000000 ∧
      (after (exec (.execute [oneSample]) s0Faulted)).output.head? = some 0x11040000 := by decide +kernel

theorem witness_ExecuteStopsAtNonFinite :
    s0.configured = true ∧ s0.faulted = false ∧ numFinite (.complex 0 0x7F800000) = false ∧
      (after (exec (.execute [oneSample]) s0)).faulted = false ∧
      (after (exec (.execute [.complex 0x7F61B1E6 0]) s0Overflow)).faulted = true := by decide +kernel

theorem witness_AdditionRoundsToNearest :
    isfinite 0x7F7FFFFF = true ∧ isfinite 0x80000001 = true ∧ isinf 0xFF800000 = true ∧ isinf 0x7F800000 = true ∧
      fsign 0xFF800000 ≠ fsign 0x7F800000 := by decide

theorem witness_MultiplicationRoundsToNearest :
    isfinite 0x7F7FFFFF = true ∧ isfinite 0x80000000 = true ∧ isinf 0x7F800000 = true ∧ isnan 0x80000001 = false ∧
      fmag 0x80000001 ≠ 0 := by decide

theorem witness_DivisionRoundsToNearest :
    isfinite 0x80000000 = true ∧ isfinite 0x00000001 = true ∧ fmag 0x00000001 ≠ 0 ∧ fmag 0x80000000 = 0 ∧
      isinf 0xFF800000 = true := by decide

theorem witness_NanExactly : isnan (fsub 0x7F800000 0x7F800000) = true := by decide

theorem witness_IntegersAreExact : 2 ^ 24 ≤ 2 ^ 24 ∧ isfinite (f32 (2 ^ 24)) = true := by decide

/-- A value half way between two integers. -/
theorem witness_RoundsHalvesAway :
    isfinite 0xBF000000 = true ∧ 2 * (fscaled 0xBF000000 - roundHA 0xBF000000 * 2 ^ 149).natAbs = 2 ^ 149 := by decide

/-- An infinity, the two ends of the interval and the value just beyond one. -/
theorem witness_ClipBoundsTheError :
    isnan 0x7F800000 = false ∧ ¬ 2 ^ 149 < fscaled 0x3F800000 ∧ 2 ^ 149 < fscaled 0x3F800001 ∧ ¬ fscaled 0xBF800000 < -2 ^ 149 := by
  decide

/-- -0.0, 1.0 and the value just beyond it. -/
theorem witness_SetBandwidthWrites :
    s0.configured = true ∧ s0.faulted = false ∧ fscaled 0x80000000 = 0 ∧ fscaled 0x3F800000 = 2 ^ 149 ∧
      2 ^ 149 < fscaled 0x3F800001 := by decide +kernel

theorem witness_SetOutputRateWrites :
    s0.configured = true ∧ s0.faulted = false ∧ (1024 : Word).toNat ≤ s0.cfg.kOutMax ∧ ¬ (1025 : Word).toNat ≤ s0.cfg.kOutMax := by
  decide +kernel

theorem witness_SetRateWrites :
    s0.configured = true ∧ s0.faulted = false ∧ isfinite (fdiv fone 0x00400000) = true ∧
      isfinite (fdiv fone 0x00200000) = false := by decide +kernel

theorem witness_LockSetsUnlockClears : s0Locked.configured = true ∧ s0Locked.faulted = false := by decide +kernel

theorem witness_ResetClears : s0Faulted.configured = true ∧ s0Faulted.faulted = true := by decide +kernel

theorem witness_ReadsAnswerRegisters : s0.configured = true ∧ (0x13 : Byte).toNat < 20 ∧ 0x14 ≤ (0x14 : Byte).toNat := by decide +kernel

theorem witness_ResetEqualsReconstruction : s0.wf = true ∧ s0.configured = true ∧ s0Faulted.wf = true := by decide +kernel

theorem witness_ConfigurationIsIdempotent :
    Instr.lock.opcode ∈ [Opcode.lock, .unlock, .setBandwidth, .setOutputRate, .setRate, .reset] ∧
      (Instr.readReg 0xFF).opcode ∈ [Opcode.getTau, .readReg] := by decide

theorem witness_ResponseDependsOnStateAlone :
    s0.arch = ({ s0 with input := [1], pos := 7, output := [2] } : State).arch := by decide +kernel

theorem witness_StepKeepsInvariant :
    let s := s0.deliver (encode (.step oneSample))
    s.wf = true ∧ goesOn (step s) = true ∧ (after (step s)).decim = 1 := by decide +kernel

theorem witness_ConstructionAloneChangesCoefficients :
    let s := s0.deliver (encode (.construct 3 2 1 [.real fone]))
    goesOn (step s) = true ∧ (after (step s)).k ≠ s.k := by decide +kernel

theorem witness_FaultIsLeftOnlyByResetOrConstruction :
    let s := s0Faulted.deliver (encode .reset)
    goesOn (step s) = true ∧ s.faulted = true ∧ (after (step s)).faulted = false := by decide +kernel

end Sys2Proof.Tests
end

section
/-! PROOFS. Which steps go on, and what no step but a construction changes. -/

namespace Sys2Proof.Machine

/-! ## Steps with legal parameters -/

/-- What a step with legal parameters does, by what stands at the front of the command stream (20_memory.md R69). -/
theorem step_cases (s : State) (h : s.cfg.legal = true) :
    (∃ i n, decode s.cfg s.input = .command i n ∧ step s = exec i (s.consume n)) ∨
      (∃ opc n, step s = .next ((s.consume n).reject opc .illegalCommand)) ∨ step s = .next s := by
  unfold step
  rw [if_neg (by simp [h])]
  cases decode s.cfg s.input with
  | command i n => exact .inl ⟨i, n, rfl, rfl⟩
  | illegal why opc n => exact .inr (.inl ⟨opc, n, rfl⟩)
  | incomplete => exact .inr (.inr rfl)

/-- Parameters outside 00_scope.md R6 are refused (log 1). -/
theorem step_of_not_legal (s : State) (h : s.cfg.legal = false) : step s = .refused .parametersNotAdmitted :=
  if_pos h

/-- A step that answers a next state had legal parameters (00_scope.md R6). -/
theorem legal_of_step_next (s t : State) (h : step s = .next t) : s.cfg.legal = true := by
  by_contra hl
  rw [step_of_not_legal s (by simpa using hl)] at h
  cases h

/-- Settles O10: the decoder's three answers each lead to a next state. -/
theorem legalInstanceNeverStops : Obligations.LegalInstanceNeverStops := by
  unfold Obligations.LegalInstanceNeverStops
  refine fun s => ⟨fun h => ?_, step_of_not_legal s⟩
  obtain ⟨i, n, -, e⟩ | ⟨opc, n, e⟩ | e := step_cases s h <;> rw [e]
  · exact exec_next i _
  · exact ⟨_, rfl⟩
  · exact ⟨_, rfl⟩

/-! ## What only a construction changes -/

/-- The parameters and everything INSTALL alone writes are the same, and CONFIGURED is not cleared (10_state.md R33,
R41; 70_reset_and_hazards.md R243). -/
def State.keepsInstance (s t : State) : Prop :=
  t.cfg = s.cfg ∧ t.configured = s.configured ∧ t.k = s.k ∧ t.npfb = s.npfb ∧ t.l = s.l ∧ t.hLen = s.hLen ∧
    t.h = s.h ∧ t.dh = s.dh

theorem State.keepsInstance_refl (s : State) : s.keepsInstance s := ⟨rfl, rfl, rfl, rfl, rfl, rfl, rfl, rfl⟩

/-- A command behind the common checks keeps what INSTALL wrote if its meaning on a ready block does. -/
theorem whenReady_keepsInstance (opc : Opcode) (s : State) (f : State → State) (h : s.keepsInstance (f s)) :
    s.keepsInstance (whenReady opc s f) := by
  obtain ⟨-, e⟩ | ⟨-, -, e⟩ | ⟨-, -, e⟩ := whenReady_cases opc s f <;> rw [e]
  · exact s.keepsInstance_refl
  · exact s.keepsInstance_refl
  · exact h

/-- STEP changes nothing that INSTALL wrote, whether it completes or faults (41_step.md R131, 60_exceptions.md R226). -/
theorem finishStep_stepCore_keepsInstance (room : Nat) (s : State) (x : Num) :
    s.keepsInstance (finishStep (stepCore room s x)) := by
  obtain ⟨t, ys, e, ht, -⟩ | ⟨c, t, ys, e, ht, -⟩ := stepCore_frame room s x
  · rw [e, ht]
    exact s.keepsInstance_refl
  · rw [e, ht]
    exact s.keepsInstance_refl

/-- Nor does EXECUTE (41_step.md R150). -/
theorem finishBatch_runBatch_keepsInstance (xs : List Num) (total : Nat) (s : State) :
    s.keepsInstance (finishBatch (runBatch xs total s)) := by
  have hf := runBatch_frame xs total s
  cases e : runBatch xs total s
  all_goals
    rw [e] at hf
    simp only [Batch.state] at hf
    rw [hf]
    exact s.keepsInstance_refl

/-- Everything CONSTRUCT can do: a configuration error, or an installation answered OK (40_construction.md R110). -/
theorem execConstruct_cases (k npfb l : Word) (coefs : List Num) (s : State) :
    (∃ d, execConstruct k npfb l coefs s = .next (s.configError .construct d)) ∨
      execConstruct k npfb l coefs s = .next ((s.install k npfb l coefs).respond Opcode.construct.code .ok []) := by
  unfold execConstruct
  split_ifs
  case neg => exact .inr rfl
  all_goals exact .inl ⟨_, rfl⟩

/-- Everything CONSTRUCT_DESIGN can do: the same two ways (40_construction.md R120). -/
theorem execConstructDesign_cases (ftype k m ebw npfb : Word) (s : State) :
    (∃ d, execConstructDesign ftype k m ebw npfb s = .next (s.configError .constructDesign d)) ∨
      ∃ l c, execConstructDesign ftype k m ebw npfb s =
        .next ((s.install k npfb l c).respond Opcode.constructDesign.code .ok []) := by
  unfold execConstructDesign
  repeat' split
  case h_2.isFalse.isFalse => exact .inr ⟨_, _, rfl⟩
  all_goals exact .inl ⟨_, rfl⟩

/-- An installation that answers OK keeps the parameters, sets CONFIGURED and sends its header (40_construction.md
R115). -/
theorem install_respond (s : State) (k npfb l : Word) (c : List Num) (opc : Byte) :
    ((s.install k npfb l c).respond opc .ok []).cfg = s.cfg ∧
      ((s.install k npfb l c).respond opc .ok []).configured = true ∧
      ((s.install k npfb l c).respond opc .ok []).output = s.output ++ [responseHeader opc .ok 0] := by
  simp [State.respond]

/-- Every command keeps what INSTALL wrote, or is a construction that answered OK, which keeps the parameters and leaves
the block configured. -/
theorem exec_keepsInstance_or_installs (i : Instr) (s t : State) (h : exec i s = .next t) :
    s.keepsInstance t ∨
      t.cfg = s.cfg ∧ t.configured = true ∧
        ((i.opcode = .construct ∧ t.output = s.output ++ [0x01000000]) ∨
          (i.opcode = .constructDesign ∧ t.output = s.output ++ [0x02000000])) := by
  cases i with
  | construct k npfb l coefs =>
    obtain ⟨d, e⟩ | e := execConstruct_cases k npfb l coefs s <;> cases e.symm.trans h
    · exact .inl s.keepsInstance_refl
    · obtain ⟨hcfg, hc, ho⟩ := install_respond s k npfb l coefs Opcode.construct.code
      exact .inr ⟨hcfg, hc, .inl ⟨rfl, ho⟩⟩
  | constructDesign ftype k m ebw npfb =>
    obtain ⟨d, e⟩ | ⟨l, c, e⟩ := execConstructDesign_cases ftype k m ebw npfb s <;> cases e.symm.trans h
    · exact .inl s.keepsInstance_refl
    · obtain ⟨hcfg, hc, ho⟩ := install_respond s k npfb l c Opcode.constructDesign.code
      exact .inr ⟨hcfg, hc, .inr ⟨rfl, ho⟩⟩
  | step x =>
    cases h
    refine .inl (whenReady_keepsInstance _ s _ ?_)
    split
    · exact s.keepsInstance_refl
    · exact finishStep_stepCore_keepsInstance _ s x
  | execute xs =>
    cases h
    exact .inl (whenReady_keepsInstance _ s _ (finishBatch_runBatch_keepsInstance xs 0 s))
  | setBandwidth _ | setOutputRate _ | setRate _ =>
    cases h
    refine .inl (whenReady_keepsInstance _ s _ ?_)
    split <;> exact s.keepsInstance_refl
  | lock | unlock | getTau =>
    cases h
    exact .inl (whenReady_keepsInstance _ s _ s.keepsInstance_refl)
  | readReg idx =>
    cases h
    left
    repeat' split
    all_goals exact s.keepsInstance_refl
  | reset =>
    cases h
    left
    split
    · exact s.keepsInstance_refl
    · simp [State.keepsInstance, State.respond]

/-- Settles O59: a rejected frame and a wait change nothing that INSTALL wrote, and of the commands only a construction
that answers OK does. -/
theorem constructionAloneChangesCoefficients : Obligations.ConstructionAloneChangesCoefficients := by
  unfold Obligations.ConstructionAloneChangesCoefficients
  intro s t h
  suffices hk : s.keepsInstance t ∨ t.cfg = s.cfg ∧ t.configured = true ∧
      ∃ i n, decode s.cfg s.input = .command i n ∧
        ((i.opcode = .construct ∧ t.output = s.output ++ [0x01000000]) ∨
          (i.opcode = .constructDesign ∧ t.output = s.output ++ [0x02000000])) by
    obtain ⟨hcfg, hc, hk, hn, hl, hh, hm, hd⟩ | ⟨hcfg, hc, hi⟩ := hk
    · exact ⟨hcfg, fun hs => hc.trans hs, .inl (by rw [hk, hn, hl, hh, hm, hd])⟩
    · exact ⟨hcfg, fun _ => hc, .inr hi⟩
  obtain ⟨i, n, hd, e⟩ | ⟨opc, n, e⟩ | e := step_cases s (legal_of_step_next s t h)
  · obtain hk | ⟨hcfg, hc, hi⟩ := exec_keepsInstance_or_installs i (s.consume n) t (e.symm.trans h)
    · exact .inl hk
    · rw [State.consume_output] at hi
      exact .inr ⟨hcfg, hc, i, n, hd, hi⟩
  · rw [e, Host.Outcome.next.injEq] at h
    exact .inl (h ▸ s.keepsInstance_refl)
  · rw [e, Host.Outcome.next.injEq] at h
    exact .inl (h ▸ s.keepsInstance_refl)

end Sys2Proof.Machine
end

section
/-! PROOFS. One iteration of the output loop without an error update (41_step.md R131, R142 to R146, R149). -/

namespace Sys2Proof.Machine

/-- An iteration without an error update advances from a state that differs in DECIM_COUNTER alone, and counting gives
the counter the statement names (41_step.md R143, R149). -/
theorem iterate_without_update (s : State) (decim : Word)
    (h : (s.decim ≠ s.kOut ∧ decim = s.decim + 1) ∨
      (s.decim = s.kOut ∧ s.isLocked = true ∧ s.cfg.lockSkip = .errorOnly ∧ decim = 1)) :
    ∃ d, iterate s = advance { s with decim := d } ∧ decim = d + 1 := by
  obtain ⟨hd, rfl⟩ | ⟨hd, hl, hk, rfl⟩ := h
  · exact ⟨s.decim, iterate_no_boundary s hd, rfl⟩
  · exact ⟨0, iterate_locked_error_only s hd hl hk, rfl⟩

/-- An advance whose branch index fits s32, as one record (41_step.md R143, R144). -/
theorem advance_eq (s : State) (tau bf : Word) (ht : tau = fadd s.tau s.del) (hb : bf = fmul tau (f32 s.npfb.toNat))
    (hf : branchFits bf = true) :
    advance s = .again { s with decim := s.decim + 1, tau := tau, bf := bf, b := BitVec.ofInt 32 (roundHA bf) } := by
  subst ht hb
  rw [advance_fits s hf]
  rfl

/-- An OK answer to a STEP that emitted one sample (41_step.md R130, 30_encoding.md R95). -/
theorem finishStep_completed_one (s : State) (y : Num) :
    finishStep (.completed s [y]) = s.answered (0x10000000 :: 1 :: y.words) := by
  rw [finishStep, State.respond_eq, burstPayload, List.flatMap_singleton]
  rfl

/-- Settles O27: the iteration is `advance` from the state step 2b leaves, and the last one of a STEP is
`outputLoop_last`. -/
theorem stepOneOutput : Obligations.StepOneOutput := by
  unfold Obligations.StepOneOutput
  refine ⟨fun _ _ _ => ⟨rfl, rfl⟩, ?_, ?_⟩
  · intro room s mf tau bf decim h0 h1 hd hmf ht hb hf hlo hhi
    obtain ⟨d, hi, rfl⟩ := iterate_without_update s decim hd
    rw [advance_eq { s with decim := d } tau bf ht hb ((branchFits_iff bf).2 ⟨hf, hlo, hhi⟩)] at hi
    rw [outputLoop_again room s _ (loopTest_body s h0 h1) hi, hmf]
    rfl
  · intro s x mf tau bf decim hc hfl hx hroom h0 h1 hd hmf ht hb hf hlo hhi
    obtain ⟨room, hr⟩ : ∃ room, s.cfg.maxBurst = room + 1 := ⟨s.cfg.maxBurst - 1, by omega⟩
    obtain ⟨d, hi, rfl⟩ := iterate_without_update (s.push x) decim hd
    rw [exec_step_ready s x hc hfl hx, hr, stepCore,
      outputLoop_last room (s.push x) _ tau bf hi h0 h1 ht hb hf hlo hhi, finishStep_completed_one,
      outputSample_push, hmf]
    rfl

end Sys2Proof.Machine
end

section
/-! PROOFS. Rounding to nearest, ties to even (00_scope.md R10): `roundMag` against exact quotients. -/

namespace Sys2Proof.Machine

/-! ## Rounding a quotient to an integer -/

/-- num/unit rounded to the nearest integer, ties to even: what `roundMag` does in its last kept place. -/
def roundQuot (num unit : Nat) : Nat :=
  if unit < 2 * (num % unit) ∨ (2 * (num % unit) = unit ∧ num / unit % 2 = 1) then num / unit + 1 else num / unit

/-- How many binary places above 2^-149 the last kept bit of num/den stands. -/
def lastPlace (num den : Nat) : Nat := Nat.log2 (num / den) - 23

theorem roundMag_eq (num den : Nat) :
    roundMag num den =
      min (lastPlace num den * 2 ^ 23 + roundQuot num (den * 2 ^ lastPlace num den)) 0x7F800000 := rfl

/-- The rounded quotient in terms of the quotient and the remainder. -/
theorem roundQuot_cases (num unit : Nat) (hu : 0 < unit) :
    ∃ q r, num = q * unit + r ∧ r < unit ∧ q = num / unit ∧
      ((roundQuot num unit = q ∧ 2 * r ≤ unit ∧ (2 * r = unit → q % 2 = 0)) ∨
        (roundQuot num unit = q + 1 ∧ unit ≤ 2 * r ∧ (2 * r = unit → q % 2 = 1))) := by
  refine ⟨num / unit, num % unit, (Nat.div_add_mod' num unit).symm, Nat.mod_lt _ hu, rfl, ?_⟩
  unfold roundQuot
  split_ifs with h
  · exact .inr ⟨rfl, by omega, by omega⟩
  · exact .inl ⟨rfl, by omega, by omega⟩

/-- Two different multiples of a unit stand at least a unit apart. -/
theorem unit_le_of_ne (u : Nat) (z z' : Int) (h : z ≠ z') : (u : Int) ≤ |z * u - z' * u| := by
  rw [← sub_mul, abs_mul, Nat.abs_cast]
  exact le_mul_of_one_le_left (Int.natCast_nonneg u) (Int.one_le_abs (sub_ne_zero.mpr h))

/-- The rounded quotient is at most half a unit away, exactly half a unit only when it is even. -/
theorem roundQuot_half (num unit : Nat) (hu : 0 < unit) :
    2 * |(roundQuot num unit : Int) * unit - num| ≤ unit ∧
      (2 * |(roundQuot num unit : Int) * unit - num| = unit → roundQuot num unit % 2 = 0) := by
  obtain ⟨q, r, hn, hr, -, ⟨e, h, he⟩ | ⟨e, h, he⟩⟩ := roundQuot_cases num unit hu
  · have hd : (roundQuot num unit : Int) * unit - num = -r := by rw [e, hn]; push_cast; ring
    rw [hd, abs_neg, Nat.abs_cast]
    omega
  · have hd : (roundQuot num unit : Int) * unit - num = (unit : Int) - r := by rw [e, hn]; push_cast; ring
    rw [hd, abs_of_nonneg (by omega)]
    omega

/-- No multiple of the unit is nearer than the rounded quotient, and another as near leaves it even. -/
theorem roundQuot_nearest (num unit : Nat) (hu : 0 < unit) (z : Int) :
    |(roundQuot num unit : Int) * unit - num| ≤ |z * unit - num| ∧
      (|(roundQuot num unit : Int) * unit - num| = |z * unit - num| → z ≠ roundQuot num unit →
        roundQuot num unit % 2 = 0) := by
  obtain ⟨hle, heven⟩ := roundQuot_half num unit hu
  by_cases hz : z = roundQuot num unit
  · exact ⟨by rw [hz], fun _ h => absurd hz h⟩
  · have hsep := unit_le_of_ne unit z (roundQuot num unit) hz
    have htri := abs_sub_le (z * unit) num ((roundQuot num unit : Int) * unit)
    rw [abs_sub_comm (num : Int)] at htri
    exact ⟨by omega, fun h _ => heven (by omega)⟩

/-! ## The last place kept -/

/-- Below the last kept place nothing is lost, and where places are dropped the significand has 24 bits. -/
theorem lastPlace_bounds (num den : Nat) :
    num / (den * 2 ^ lastPlace num den) < 2 ^ 24 ∧
      (0 < lastPlace num den → 2 ^ 23 ≤ num / (den * 2 ^ lastPlace num den)) := by
  rw [← Nat.div_div_eq_div_mul]
  unfold lastPlace
  generalize num / den = m
  constructor
  · rw [Nat.div_lt_iff_lt_mul (by positivity), ← pow_add]
    exact Nat.lt_log2_self.trans_le (Nat.pow_le_pow_right (by norm_num) (by omega))
  · intro ht
    rw [Nat.le_div_iff_mul_le (by positivity), ← pow_add, show 23 + (m.log2 - 23) = m.log2 by omega]
    exact Nat.log2_self_le (by rintro rfl; simp at ht)

/-! ## Magnitude bits -/

/-- The magnitude that magnitude bits stand for, in units of 2^-149. -/
def magOfBits (m : Nat) : Nat := if m / 2 ^ 23 = 0 then m % 2 ^ 23 else (2 ^ 23 + m % 2 ^ 23) * 2 ^ (m / 2 ^ 23 - 1)

theorem fmag_fpack_eq (neg : Bool) (m : Nat) (h : m < 2 ^ 31) : fmag (fpack neg m) = magOfBits m := fmag_fpack neg m h

/-- A significand of 24 bits at place t, a carry into the next binade, and a subnormal at place 0 all read as q·2^t. -/
theorem magOfBits_place (t q : Nat) (hq : q ≤ 2 ^ 24) (ht : 0 < t → 2 ^ 23 ≤ q) :
    magOfBits (t * 2 ^ 23 + q) = q * 2 ^ t := by
  unfold magOfBits
  obtain hlt | ⟨hlo, hhi⟩ | rfl : q < 2 ^ 23 ∨ (2 ^ 23 ≤ q ∧ q < 2 ^ 24) ∨ q = 2 ^ 24 := by omega
  · obtain rfl : t = 0 := by omega
    rw [if_pos (by omega)]
    omega
  · rw [if_neg (by omega), show (t * 2 ^ 23 + q) / 2 ^ 23 - 1 = t by omega,
      show 2 ^ 23 + (t * 2 ^ 23 + q) % 2 ^ 23 = q by omega]
  · rw [if_neg (by omega), show (t * 2 ^ 23 + 2 ^ 24) / 2 ^ 23 - 1 = t + 1 by omega,
      show 2 ^ 23 + (t * 2 ^ 23 + 2 ^ 24) % 2 ^ 23 = 2 ^ 23 by omega]
    ring

/-- Every magnitude is q·2^t for a significand of its own, which the magnitude bits show (00_scope.md R9). -/
theorem magOfBits_significand (m : Nat) :
    ∃ t q, m = t * 2 ^ 23 + q ∧ q < 2 ^ 24 ∧ (0 < t → 2 ^ 23 ≤ q) ∧ magOfBits m = q * 2 ^ t := by
  obtain ⟨t, q, hm, hq, ht⟩ : ∃ t q, m = t * 2 ^ 23 + q ∧ q < 2 ^ 24 ∧ (0 < t → 2 ^ 23 ≤ q) :=
    ⟨m / 2 ^ 23 - 1, m - (m / 2 ^ 23 - 1) * 2 ^ 23, by omega, by omega, by omega⟩
  exact ⟨t, q, hm, hq, ht, hm ▸ magOfBits_place t q hq.le ht⟩

/-- At any place t a magnitude is either a multiple of 2^t or below the magnitudes of 24-bit significands there. -/
theorem dvd_magOfBits_or_lt (m t : Nat) : 2 ^ t ∣ magOfBits m ∨ (0 < t ∧ magOfBits m < 2 ^ 23 * 2 ^ t) := by
  obtain ⟨t', q, -, hq, -, e⟩ := magOfBits_significand m
  rw [e]
  obtain h | h := le_or_gt t t'
  · exact .inl ((pow_dvd_pow 2 h).mul_left q)
  · refine .inr ⟨by omega, ?_⟩
    calc q * 2 ^ t' < 2 ^ 24 * 2 ^ t' := by gcongr
      _ = 2 ^ 23 * 2 ^ (t' + 1) := by ring
      _ ≤ 2 ^ 23 * 2 ^ t := by gcongr <;> omega

/-! ## The rounded magnitude -/

/-- The significand that `roundMag` keeps has at most 24 bits, or has carried into the 25th. -/
theorem roundQuot_lastPlace (num den : Nat) (hd : 0 < den) :
    roundQuot num (den * 2 ^ lastPlace num den) ≤ 2 ^ 24 ∧
      (0 < lastPlace num den → 2 ^ 23 ≤ roundQuot num (den * 2 ^ lastPlace num den)) := by
  obtain ⟨hlt, hge⟩ := lastPlace_bounds num den
  obtain ⟨q, r, -, -, hq, ⟨e, -⟩ | ⟨e, -⟩⟩ := roundQuot_cases num (den * 2 ^ lastPlace num den) (by positivity) <;>
    rw [e, hq] <;> omega

/-- Below overflow the rounded magnitude is the rounded significand at its place. -/
theorem magOfBits_roundMag (num den : Nat) (hd : 0 < den) (h : roundMag num den < 0x7F800000) :
    magOfBits (roundMag num den) = roundQuot num (den * 2 ^ lastPlace num den) * 2 ^ lastPlace num den := by
  obtain ⟨hle, hge⟩ := roundQuot_lastPlace num den hd
  rw [roundMag_eq] at h ⊢
  rw [min_eq_left (by omega)]
  exact magOfBits_place _ _ hle hge

/-- No magnitude is nearer to num/den than the rounded one, and another as near leaves its last bit even. -/
theorem roundMag_nearest (num den : Nat) (hd : 0 < den) (h : roundMag num den < 0x7F800000) (m : Nat) :
    |(magOfBits (roundMag num den) : Int) * den - num| ≤ |(magOfBits m : Int) * den - num| ∧
      (|(magOfBits (roundMag num den) : Int) * den - num| = |(magOfBits m : Int) * den - num| →
        magOfBits m ≠ magOfBits (roundMag num den) → roundMag num den % 2 = 0) := by
  have hlt : lastPlace num den * 2 ^ 23 + roundQuot num (den * 2 ^ lastPlace num den) < 0x7F800000 := by
    rw [roundMag_eq] at h; omega
  have hpar : roundMag num den % 2 = roundQuot num (den * 2 ^ lastPlace num den) % 2 := by
    rw [roundMag_eq]; omega
  rw [magOfBits_roundMag num den hd h, hpar]
  have hge := (lastPlace_bounds num den).2
  generalize hu : den * 2 ^ lastPlace num den = unit at *
  have hu0 : 0 < unit := by rw [← hu]; positivity
  have hr : ∀ z : Int, z * 2 ^ lastPlace num den * den = z * unit := fun z => by rw [← hu]; push_cast; ring
  push_cast
  rw [hr]
  obtain ⟨z, hz⟩ | ⟨ht, hsmall⟩ := dvd_magOfBits_or_lt m (lastPlace num den)
  · obtain ⟨hle, heven⟩ := roundQuot_nearest num unit hu0 z
    have e : (magOfBits m : Int) * den = z * unit := by rw [hz, ← hr]; push_cast; ring
    rw [e]
    refine ⟨hle, fun heq hne => heven heq fun hzr => hne ?_⟩
    rw [hz, mul_comm, Int.ofNat_inj.mp hzr]
  · have hlo : 2 ^ 23 * (unit : Int) ≤ num := by
      exact_mod_cast (Nat.le_div_iff_mul_le hu0).mp (hge ht)
    have hbelow : (magOfBits m : Int) * den < 2 ^ 23 * unit := by
      rw [← hr]
      exact_mod_cast Nat.mul_lt_mul_of_pos_right hsmall hd
    have hle := (roundQuot_nearest num unit hu0 (2 ^ 23)).1
    rw [abs_of_nonpos (a := 2 ^ 23 * (unit : Int) - num) (by omega)] at hle
    rw [abs_of_nonpos (a := (magOfBits m : Int) * den - num) (by omega)]
    exact ⟨by omega, fun heq => by omega⟩

/-- The same against every signed value: on the other side of zero only zero is as near as the rounded magnitude. -/
theorem roundMag_nearest_signed (num den : Nat) (hd : 0 < den) (h : roundMag num den < 0x7F800000) (m : Nat) (z : Int)
    (hz : z.natAbs = magOfBits m) :
    |(magOfBits (roundMag num den) : Int) * den - num| ≤ |z * den - num| ∧
      (|(magOfBits (roundMag num den) : Int) * den - num| = |z * den - num| → z ≠ magOfBits (roundMag num den) →
        roundMag num den % 2 = 0) := by
  obtain hpos | hneg : 0 ≤ z ∨ z < 0 := le_or_gt 0 z
  · obtain rfl : z = magOfBits m := by omega
    obtain ⟨hle, heven⟩ := roundMag_nearest num den hd h m
    exact ⟨hle, fun heq hne => heven heq (by exact_mod_cast hne)⟩
  · have hle := (roundMag_nearest num den hd h 0).1
    have hzero : |(magOfBits 0 : Int) * den - num| = num := by simp [magOfBits]
    have hopp : z * den < 0 := mul_neg_of_neg_of_pos hneg (by exact_mod_cast hd)
    rw [hzero] at hle
    rw [abs_of_neg (a := z * den - num) (by omega)]
    exact ⟨by omega, fun heq => by omega⟩

/-- Rounding overflows from half a unit beyond the largest finite magnitude on (00_scope.md R10). -/
theorem roundMag_overflow_iff (num den : Nat) (hd : 0 < den) :
    roundMag num den = 0x7F800000 ↔ (2 ^ 25 - 1) * 2 ^ 253 * den ≤ 2 * num := by
  obtain ⟨hlt, hge⟩ := lastPlace_bounds num den
  obtain ⟨hQ, -⟩ := roundQuot_lastPlace num den hd
  rw [roundMag_eq]
  generalize lastPlace num den = t at *
  obtain ⟨q, r, hn, hr, hq, hcases⟩ := roundQuot_cases num (den * 2 ^ t) (by positivity)
  rw [← hq] at hlt hge
  obtain ht | rfl | ht : t < 253 ∨ t = 253 ∨ 253 < t := by omega
  · have hu : den * 2 ^ t ≤ den * 2 ^ 252 := by gcongr <;> omega
    have hnum : num < 2 ^ 24 * (den * 2 ^ t) := by nlinarith
    constructor <;> intro h <;> omega
  · obtain ⟨unit, hu⟩ : ∃ unit, den * 2 ^ 253 = unit := ⟨_, rfl⟩
    rw [mul_assoc, mul_comm _ den]
    rw [hu] at hn hr hQ hcases ⊢
    obtain hlast | rfl : q + 2 ≤ 2 ^ 24 ∨ q = 2 ^ 24 - 1 := by omega
    · have hnum : num < (2 ^ 24 - 1) * unit := by
        have := Nat.mul_le_mul_right unit hlast
        rw [add_mul] at this
        omega
      constructor <;> intro h <;> omega
    · constructor <;> intro h <;> omega
  · have hu : den * 2 ^ 254 ≤ den * 2 ^ t := by gcongr <;> omega
    have hnum : 2 ^ 23 * (den * 2 ^ t) ≤ num := by
      have := hge (by omega)
      nlinarith
    constructor <;> intro h <;> omega

/-- A packed magnitude up to infinity is finite below infinity, and infinity at it. -/
theorem isfinite_fpack_iff (neg : Bool) (m : Nat) (h : m ≤ 0x7F800000) :
    isfinite (fpack neg m) = true ↔ m < 0x7F800000 := by
  rw [isfinite_iff, fexp_fpack neg m (by omega)]
  omega

@[simp] theorem isinf_finf (neg : Bool) : isinf (finf neg) = true := by cases neg <;> decide

/-- A value with the sign taken off that `neg` stands for. -/
def signedBy (neg : Bool) (z : Int) : Int := if neg then -z else z

@[simp] theorem signedBy_false (z : Int) : signedBy false z = z := rfl

@[simp] theorem signedBy_true (z : Int) : signedBy true z = -z := rfl

theorem natAbs_signedBy (neg : Bool) (z : Int) : (signedBy neg z).natAbs = z.natAbs := by
  cases neg <;> simp

/-- A value is its magnitude with its sign (00_scope.md R9). -/
theorem fscaled_eq_signedBy (v : Word) : fscaled v = signedBy (fsign v) (fmag v) := rfl

theorem natAbs_fscaled (v : Word) : (fscaled v).natAbs = fmag v := natAbs_signedBy _ _

theorem signedBy_injective (neg : Bool) (z z' : Int) (h : signedBy neg z = signedBy neg z') : z = z' := by
  cases neg <;> simpa using h

theorem signedBy_fscaled_fpack (neg : Bool) (m : Nat) (h : m < 2 ^ 31) :
    signedBy neg (fscaled (fpack neg m)) = magOfBits m := by
  rw [fscaled_eq_signedBy, fsign_fpack neg m h, fmag_fpack_eq neg m h]
  cases neg <;> simp

/-- Where `neg` is the sign of the exact value, distances to it are distances to its magnitude. -/
theorem natAbs_sub_signedBy (num : Int) (neg : Bool) (hs : num ≠ 0 → neg = decide (num < 0)) (den z : Int) :
    (z * den - num).natAbs = (signedBy neg z * den - num.natAbs).natAbs := by
  have hnum : (num.natAbs : Int) = signedBy neg num := by
    unfold signedBy
    by_cases h0 : num = 0
    · simp [h0]
    · rw [hs h0]
      obtain h | h : num < 0 ∨ 0 < num := by omega
      · simp [h, abs_of_neg]
      · simp [h.le, h.not_gt]
  rw [hnum]
  cases neg with
  | false => rw [signedBy_false, signedBy_false]
  | true =>
    rw [← Int.natAbs_neg]
    congr 1
    rw [signedBy_true, signedBy_true]
    ring

/-- A word's magnitude is that of its low 31 bits (00_scope.md R9). -/
theorem fmag_eq_magOfBits (v : Word) : fmag v = magOfBits (v.toNat % 2 ^ 31) := by
  conv_lhs => rw [← fpack_fields v]
  exact fmag_fpack_eq _ _ (Nat.mod_lt _ (by norm_num))

/-- The rounded magnitude with the sign of the exact value is the nearest binary32 value, ties to even, and an infinity
beyond the range (00_scope.md R10); an exact zero may have either sign. -/
theorem roundsTo_fpack (num : Int) (den : Nat) (neg : Bool) (hd : 0 < den) (hs : num ≠ 0 → neg = decide (num < 0)) :
    RoundsTo num den (fpack neg (roundMag num.natAbs den)) := by
  have hle := roundMag_le num.natAbs den
  unfold RoundsTo
  split
  case isTrue h =>
    rw [(roundMag_overflow_iff _ _ hd).mpr h]
    exact isinf_finf neg
  case isFalse h =>
    rw [← roundMag_overflow_iff _ _ hd] at h
    have hlt : roundMag num.natAbs den < 0x7F800000 := by omega
    refine ⟨(isfinite_fpack_iff _ _ hle).mpr hlt, fun v _ => ?_⟩
    have hpar : ffrac (fpack neg (roundMag num.natAbs den)) % 2 = roundMag num.natAbs den % 2 := by
      rw [ffrac_fpack _ _ (by omega)]
      omega
    have hmag : (fscaled v).natAbs = magOfBits (v.toNat % 2 ^ 31) := by rw [natAbs_fscaled, fmag_eq_magOfBits]
    obtain ⟨hn, heven⟩ := roundMag_nearest_signed num.natAbs den hd hlt (v.toNat % 2 ^ 31) (signedBy neg (fscaled v))
      (by rw [natAbs_signedBy, hmag])
    simp only [Int.abs_eq_natAbs, Int.ofNat_le, Int.ofNat_inj] at hn heven
    simp only [natAbs_sub_signedBy num neg hs, signedBy_fscaled_fpack neg _ (lt_of_le_of_lt hle (by norm_num)), hpar]
    refine ⟨hn, fun heq hne => heven heq fun h => hne (signedBy_injective neg _ _ ?_)⟩
    rw [h, signedBy_fscaled_fpack neg _ (by omega)]

end Sys2Proof.Machine
end

section
/-! PROOFS. The four operations against exact arithmetic (00_scope.md R10, log 11): what each answers for every class
of operands. -/

namespace Sys2Proof.Machine

/-! ## Classes of words -/

theorem isinf_iff (v : Word) : isinf v = true ↔ fexp v = 255 ∧ ffrac v = 0 := by simp [isinf]

theorem not_isnan_of_isinf (v : Word) (h : isinf v = true) : isnan v = false := by
  obtain ⟨-, hf⟩ := (isinf_iff v).mp h
  simp [isnan, hf]

theorem not_isinf_of_isfinite (v : Word) (h : isfinite v = true) : isinf v = false := by
  rw [isfinite_iff] at h
  simp [isinf, h]

/-- A word that is neither a NaN nor an infinity is finite. -/
theorem isfinite_of_not (v : Word) (hn : isnan v = false) (hi : isinf v = false) : isfinite v = true := by
  rw [isfinite_iff]
  intro he
  simp_all [isnan, isinf]

/-- A zero is finite. -/
theorem isfinite_of_fmag_zero (v : Word) (h : fmag v = 0) : isfinite v = true := by
  rw [isfinite_iff]
  intro he
  rw [fmag, if_neg (by omega)] at h
  revert h
  positivity

/-- An infinity is no zero. -/
theorem fmag_ne_zero_of_isinf (v : Word) (h : isinf v = true) : fmag v ≠ 0 := fun h0 => by
  rw [not_isinf_of_isfinite v (isfinite_of_fmag_zero v h0)] at h
  cases h

@[simp] theorem isnan_finf (neg : Bool) : isnan (finf neg) = false := isnan_fpack neg _ le_rfl

@[simp] theorem fsign_finf (neg : Bool) : fsign (finf neg) = neg := fsign_fpack neg _ (by norm_num)

@[simp] theorem isnan_fpack_roundMag (neg : Bool) (num den : Nat) : isnan (fpack neg (roundMag num den)) = false :=
  isnan_fpack neg _ (roundMag_le num den)

@[simp] theorem fsign_fpack_roundMag (neg : Bool) (num den : Nat) : fsign (fpack neg (roundMag num den)) = neg :=
  fsign_fpack neg _ ((roundMag_le num den).trans_lt (by norm_num))

/-! ## The negated word -/

@[simp] theorem fsign_fneg (v : Word) : fsign (fneg v) = !fsign v := fsign_fpack _ _ (Nat.mod_lt _ (by norm_num))

@[simp] theorem fexp_fneg (v : Word) : fexp (fneg v) = fexp v := by
  rw [fneg, fexp_fpack _ _ (Nat.mod_lt _ (by norm_num)), fexp]
  omega

@[simp] theorem ffrac_fneg (v : Word) : ffrac (fneg v) = ffrac v := by
  rw [fneg, ffrac_fpack _ _ (Nat.mod_lt _ (by norm_num)), ffrac]
  omega

@[simp] theorem isnan_fneg (v : Word) : isnan (fneg v) = isnan v := by simp [isnan]

@[simp] theorem isinf_fneg (v : Word) : isinf (fneg v) = isinf v := by simp [isinf]

@[simp] theorem isfinite_fneg (v : Word) : isfinite (fneg v) = isfinite v := by simp [isfinite]

@[simp] theorem fscaled_fneg (v : Word) : fscaled (fneg v) = -fscaled v := by
  have hm : fmag (fneg v) = fmag v := by simp [fmag]
  rw [fscaled_eq_signedBy, fscaled_eq_signedBy, hm, fsign_fneg]
  cases fsign v <;> simp

/-! ## Addition and subtraction -/

/-- The sum of finite values is rounded once, an exact zero included (00_scope.md R10). -/
theorem fadd_of_isfinite (a b : Word) (ha : isfinite a = true) (hb : isfinite b = true) :
    fadd a b =
      fpack (if fscaled a + fscaled b = 0 then fsign a && fsign b else decide (fscaled a + fscaled b < 0))
        (roundMag (fscaled a + fscaled b).natAbs 1) := by
  have hzero : roundMag 0 1 = 0 := by decide
  by_cases h : fscaled a + fscaled b = 0 <;>
    simp [fadd, not_isnan_of_isfinite, not_isinf_of_isfinite, ha, hb, h, hzero]

/-- An infinite operand that meets no NaN and no infinity of the other sign is the sum. -/
theorem fadd_of_isinf_left (a b : Word) (ha : isinf a = true) (hb : isnan b = false)
    (h : isinf b = true → fsign a = fsign b) : fadd a b = a := by
  unfold fadd
  simp only [not_isnan_of_isinf a ha, ha, hb]
  cases hi : isinf b <;> simp_all

theorem fadd_of_isinf_right (a b : Word) (ha : isfinite a = true) (hb : isinf b = true) : fadd a b = b := by
  simp [fadd, not_isnan_of_isfinite a ha, not_isnan_of_isinf b hb, not_isinf_of_isfinite a ha, hb]

/-- One rounding of a finite sum, and its sign. -/
theorem fadd_rounds (a b : Word) (ha : isfinite a = true) (hb : isfinite b = true) :
    RoundsTo (fscaled a + fscaled b) 1 (fadd a b) ∧
      fsign (fadd a b) =
        (if fscaled a + fscaled b = 0 then fsign a && fsign b else decide (fscaled a + fscaled b < 0)) := by
  rw [fadd_of_isfinite a b ha hb]
  exact ⟨roundsTo_fpack _ 1 _ one_pos fun h => if_neg h, fsign_fpack_roundMag ..⟩

/-- Settles O41: subtraction is addition of the negated operand. -/
theorem additionRoundsToNearest : Obligations.AdditionRoundsToNearest := by
  unfold Obligations.AdditionRoundsToNearest
  refine ⟨fun a b ha hb => ?_, fun a b ha => ⟨fun hb => ?_, fun hb => ⟨fun hs => ?_, fun hs => ?_⟩⟩⟩
  · obtain ⟨hadd, hsign⟩ := fadd_rounds a b ha hb
    obtain ⟨hsub, hsign'⟩ := fadd_rounds a (fneg b) ha (by rwa [isfinite_fneg])
    rw [fscaled_fneg, fsign_fneg, ← sub_eq_add_neg] at hsign'
    rw [fscaled_fneg, ← sub_eq_add_neg] at hsub
    exact ⟨hadd, hsign, hsub, hsign'⟩
  · have hbn := not_isnan_of_isfinite b hb
    have hbi := not_isinf_of_isfinite b hb
    have hsub : fsub b a = fneg a := fadd_of_isinf_right b (fneg a) hb (by rwa [isinf_fneg])
    refine ⟨fadd_of_isinf_left a b ha hbn (by simp [hbi]), fadd_of_isinf_right b a hb ha,
      fadd_of_isinf_left a (fneg b) ha (by rwa [isnan_fneg]) (by simp [hbi]), ?_, ?_⟩
    · rw [hsub, isinf_fneg, ha]
    · rw [hsub, fsign_fneg]
  · exact fadd_of_isinf_left a b ha (not_isnan_of_isinf b hb) fun _ => hs
  · refine fadd_of_isinf_left a (fneg b) ha (by rw [isnan_fneg, not_isnan_of_isinf b hb]) fun _ => ?_
    rw [fsign_fneg]
    exact Bool.eq_not_of_ne hs

/-! ## Multiplication -/

/-- The product of finite values is rounded once (00_scope.md R10). -/
theorem fmul_of_isfinite (a b : Word) (ha : isfinite a = true) (hb : isfinite b = true) :
    fmul a b = fpack (fsign a != fsign b) (roundMag (fmag a * fmag b) (2 ^ 149)) := by
  simp [fmul, not_isnan_of_isfinite, not_isinf_of_isfinite, ha, hb]

/-- An infinity times anything but a zero or a NaN is an infinity. -/
theorem fmul_of_isinf (a b : Word) (ha : isnan a = false) (hb : isnan b = false) (h : isinf a = true ∨ isinf b = true)
    (ha0 : fmag a ≠ 0) (hb0 : fmag b ≠ 0) : fmul a b = finf (fsign a != fsign b) := by
  obtain h | h := h <;> simp [fmul, ha, hb, h, ha0, hb0]

/-- The sign of an exact nonzero product or quotient is the product of the signs. -/
theorem bne_fsign_eq (a b : Word) (h : fscaled a * fscaled b ≠ 0) :
    (fsign a != fsign b) = decide (fscaled a * fscaled b < 0) := by
  have hab : 0 < (fmag a : Int) * fmag b := by
    have ha := natAbs_fscaled a
    have hb := natAbs_fscaled b
    rw [← ha, ← hb, ← Int.natCast_mul, ← Int.natAbs_mul]
    omega
  unfold fscaled
  cases fsign a <;> cases fsign b <;> simp <;> omega

/-- Settles O42: the exact product has magnitude `fmag a * fmag b` and the product of the signs. -/
theorem multiplicationRoundsToNearest : Obligations.MultiplicationRoundsToNearest := by
  unfold Obligations.MultiplicationRoundsToNearest
  refine ⟨fun a b ha hb => ?_, fun a b ha hb hb0 => ?_⟩
  · rw [fmul_of_isfinite a b ha hb, ← natAbs_fscaled a, ← natAbs_fscaled b, ← Int.natAbs_mul]
    exact ⟨roundsTo_fpack _ _ _ (by positivity) (bne_fsign_eq a b), fsign_fpack_roundMag ..⟩
  · have han := not_isnan_of_isinf a ha
    have ha0 := fmag_ne_zero_of_isinf a ha
    rw [fmul_of_isinf a b han hb (.inl ha) ha0 hb0, fmul_of_isinf b a hb han (.inr ha) hb0 ha0]
    exact ⟨isinf_finf _, fsign_finf _, by rw [bne_comm]⟩

/-! ## Division -/

/-- The quotient of finite values is rounded once (00_scope.md R10). -/
theorem fdiv_of_isfinite (a b : Word) (ha : isfinite a = true) (hb : isfinite b = true) (hb0 : fmag b ≠ 0) :
    fdiv a b = fpack (fsign a != fsign b) (roundMag (fmag a * 2 ^ 149) (fmag b)) := by
  simp [fdiv, not_isnan_of_isfinite, not_isinf_of_isfinite, ha, hb, hb0]

/-- An infinity by a finite value. -/
theorem fdiv_of_isinf_left (a b : Word) (ha : isinf a = true) (hb : isfinite b = true) :
    fdiv a b = finf (fsign a != fsign b) := by
  simp [fdiv, not_isnan_of_isinf a ha, not_isnan_of_isfinite b hb, ha, not_isinf_of_isfinite b hb]

/-- A finite value by an infinity. -/
theorem fdiv_of_isinf_right (a b : Word) (ha : isfinite a = true) (hb : isinf b = true) :
    fdiv a b = fpack (fsign a != fsign b) 0 := by
  simp [fdiv, not_isnan_of_isfinite a ha, not_isnan_of_isinf b hb, not_isinf_of_isfinite a ha, hb]

/-- A finite nonzero value by a zero. -/
theorem fdiv_of_zero (a b : Word) (ha : isfinite a = true) (ha0 : fmag a ≠ 0) (hb0 : fmag b = 0) :
    fdiv a b = finf (fsign a != fsign b) := by
  have hb := isfinite_of_fmag_zero b hb0
  simp [fdiv, not_isnan_of_isfinite, not_isinf_of_isfinite, ha, hb, ha0, hb0]

/-- The exact quotient of a by a nonzero b over the magnitude of b, as the sign of b moves to the numerator. -/
theorem bne_fsign_eq_div (a b : Word) (h : (if fsign b then -fscaled a else fscaled a) * 2 ^ 149 ≠ 0) :
    (fsign a != fsign b) = decide ((if fsign b then -fscaled a else fscaled a) * 2 ^ 149 < 0) := by
  unfold fscaled at h ⊢
  cases fsign a <;> cases fsign b <;> simp at h ⊢ <;> omega

/-- Settles O43: the exact quotient has magnitude `fmag a * 2 ^ 149 / fmag b` and the product of the signs. -/
theorem divisionRoundsToNearest : Obligations.DivisionRoundsToNearest := by
  unfold Obligations.DivisionRoundsToNearest
  refine ⟨fun a b ha hb hb0 => ?_, fun a b => ⟨?_, fun ha hb => ?_⟩⟩
  · have hmag : ((if fsign b then -fscaled a else fscaled a) * 2 ^ 149).natAbs = fmag a * 2 ^ 149 := by
      rw [Int.natAbs_mul, ← natAbs_fscaled a]
      split <;> simp
    rw [fdiv_of_isfinite a b ha hb hb0, ← hmag]
    exact ⟨roundsTo_fpack _ _ _ (Nat.pos_of_ne_zero hb0) (bne_fsign_eq_div a b), fsign_fpack_roundMag ..⟩
  · rintro (⟨ha, hb⟩ | ⟨ha, ha0, hb0⟩)
    · rw [fdiv_of_isinf_left a b ha hb]
      exact ⟨isinf_finf _, fsign_finf _⟩
    · rw [fdiv_of_zero a b ha ha0 hb0]
      exact ⟨isinf_finf _, fsign_finf _⟩
  · rw [fdiv_of_isinf_right a b ha hb]
    exact ⟨by cases (fsign a != fsign b) <;> decide, fsign_fpack _ 0 (by norm_num)⟩

/-! ## NaN results -/

theorem fadd_of_isnan (a b : Word) (h : isnan a = true ∨ isnan b = true) : fadd a b = qnan := by simp [fadd, h]

theorem fmul_of_isnan (a b : Word) (h : isnan a = true ∨ isnan b = true) : fmul a b = qnan := by simp [fmul, h]

theorem fdiv_of_isnan (a b : Word) (h : isnan a = true ∨ isnan b = true) : fdiv a b = qnan := by simp [fdiv, h]

/-- Infinities of opposite signs have no sum. -/
theorem fadd_of_opposite_isinf (a b : Word) (ha : isinf a = true) (hb : isinf b = true) (h : fsign a ≠ fsign b) :
    fadd a b = qnan := by
  simp [fadd, not_isnan_of_isinf, ha, hb, h]

/-- A zero times an infinity has no product. -/
theorem fmul_of_zero_isinf (a b : Word) (h : (isinf a = true ∧ fmag b = 0) ∨ (fmag a = 0 ∧ isinf b = true)) :
    fmul a b = qnan := by
  obtain ⟨hi, h0⟩ | ⟨h0, hi⟩ := h <;> simp [fmul, hi, h0]

/-- Neither two infinities nor two zeros have a quotient. -/
theorem fdiv_of_alike (a b : Word) (h : (isinf a = true ∧ isinf b = true) ∨ (fmag a = 0 ∧ fmag b = 0)) :
    fdiv a b = qnan := by
  obtain ⟨ha, hb⟩ | ⟨ha, hb⟩ := h
  · simp [fdiv, ha, hb]
  · simp [fdiv, not_isinf_of_isfinite, isfinite_of_fmag_zero, ha, hb]

/-- A sum is NaN on a NaN operand and on infinities of opposite signs. -/
theorem isnan_fadd_iff (a b : Word) :
    isnan (fadd a b) = true ↔
      isnan a = true ∨ isnan b = true ∨ (isinf a = true ∧ isinf b = true ∧ fsign a ≠ fsign b) := by
  constructor
  · intro h
    by_contra hc
    push Not at hc
    obtain ⟨hna, hnb, hopp⟩ := hc
    rw [ne_eq, Bool.not_eq_true] at hna hnb
    cases hia : isinf a with
    | true =>
      rw [fadd_of_isinf_left a b hia hnb (hopp hia), hna] at h
      cases h
    | false =>
      have ha := isfinite_of_not a hna hia
      cases hib : isinf b with
      | true =>
        rw [fadd_of_isinf_right a b ha hib, hnb] at h
        cases h
      | false =>
        rw [fadd_of_isfinite a b ha (isfinite_of_not b hnb hib), isnan_fpack_roundMag] at h
        cases h
  · rintro (h | h | ⟨ha, hb, h⟩)
    · rw [fadd_of_isnan a b (.inl h), isnan_qnan]
    · rw [fadd_of_isnan a b (.inr h), isnan_qnan]
    · rw [fadd_of_opposite_isinf a b ha hb h, isnan_qnan]

/-- A product is NaN on a NaN operand and on a zero times an infinity. -/
theorem isnan_fmul_iff (a b : Word) :
    isnan (fmul a b) = true ↔
      isnan a = true ∨ isnan b = true ∨ (isinf a = true ∧ fmag b = 0) ∨ (fmag a = 0 ∧ isinf b = true) := by
  constructor
  · intro h
    by_contra hc
    push Not at hc
    obtain ⟨hna, hnb, hb0, ha0⟩ := hc
    rw [ne_eq, Bool.not_eq_true] at hna hnb
    by_cases hi : isinf a = true ∨ isinf b = true
    · have hne : fmag a ≠ 0 ∧ fmag b ≠ 0 := by
        obtain hi | hi := hi
        · exact ⟨fmag_ne_zero_of_isinf a hi, hb0 hi⟩
        · exact ⟨fun h0 => ha0 h0 hi, fmag_ne_zero_of_isinf b hi⟩
      rw [fmul_of_isinf a b hna hnb hi hne.1 hne.2, isnan_finf] at h
      cases h
    · push Not at hi
      obtain ⟨hia, hib⟩ := hi
      rw [ne_eq, Bool.not_eq_true] at hia hib
      rw [fmul_of_isfinite a b (isfinite_of_not a hna hia) (isfinite_of_not b hnb hib), isnan_fpack_roundMag] at h
      cases h
  · rintro (h | h | h)
    · rw [fmul_of_isnan a b (.inl h), isnan_qnan]
    · rw [fmul_of_isnan a b (.inr h), isnan_qnan]
    · rw [fmul_of_zero_isinf a b h, isnan_qnan]

/-- A quotient is NaN on a NaN operand, on two infinities and on two zeros. -/
theorem isnan_fdiv_iff (a b : Word) :
    isnan (fdiv a b) = true ↔
      isnan a = true ∨ isnan b = true ∨ (isinf a = true ∧ isinf b = true) ∨ (fmag a = 0 ∧ fmag b = 0) := by
  constructor
  · intro h
    by_contra hc
    push Not at hc
    obtain ⟨hna, hnb, hinf, hzero⟩ := hc
    rw [ne_eq, Bool.not_eq_true] at hna hnb
    cases hia : isinf a with
    | true =>
      have hb := isfinite_of_not b hnb (by simpa using hinf hia)
      rw [fdiv_of_isinf_left a b hia hb, isnan_finf] at h
      cases h
    | false =>
      have ha := isfinite_of_not a hna hia
      cases hib : isinf b with
      | true =>
        rw [fdiv_of_isinf_right a b ha hib, isnan_fpack _ 0 (by norm_num)] at h
        cases h
      | false =>
        by_cases hb0 : fmag b = 0
        · rw [fdiv_of_zero a b ha (fun h0 => hzero h0 hb0) hb0, isnan_finf] at h
          cases h
        · rw [fdiv_of_isfinite a b ha (isfinite_of_not b hnb hib) hb0, isnan_fpack_roundMag] at h
          cases h
  · rintro (h | h | h)
    · rw [fdiv_of_isnan a b (.inl h), isnan_qnan]
    · rw [fdiv_of_isnan a b (.inr h), isnan_qnan]
    · rw [fdiv_of_alike a b h, isnan_qnan]

/-- Settles O44: subtraction is addition of the negated operand, and every result is canonical. -/
theorem nanExactly : Obligations.NanExactly := by
  unfold Obligations.NanExactly
  refine fun a b => ⟨isnan_fadd_iff a b, ?_, isnan_fmul_iff a b, isnan_fdiv_iff a b, fun r hr => ?_⟩
  · rw [fsub, isnan_fadd_iff, isnan_fneg, isinf_fneg, fsign_fneg]
    simp
  · have hcanon : CanonicalResult r := by
      simp only [List.mem_cons, List.not_mem_nil, or_false] at hr
      obtain rfl | rfl | rfl | rfl := hr
      · exact fadd_canonical a b
      · exact fsub_canonical a b
      · exact fmul_canonical a b
      · exact fdiv_canonical a b
    exact CanonicalResult_nan r hcanon

/-! ## Exact results -/

/-- A magnitude that fits its place is rounded to itself. -/
theorem roundMag_exact (t q den : Nat) (hd : 0 < den) (hq : q < 2 ^ 24) (ht : 0 < t → 2 ^ 23 ≤ q)
    (hfin : t ≤ 253) :
    roundMag (q * 2 ^ t * den) den = t * 2 ^ 23 + q := by
  have hplace : lastPlace (q * 2 ^ t * den) den = t := by
    rw [lastPlace, Nat.mul_div_cancel _ hd]
    obtain rfl | ht0 := Nat.eq_zero_or_pos t
    · have : q.log2 < 24 := by
        obtain rfl | h0 := Nat.eq_zero_or_pos q
        · simp
        · exact (Nat.log2_lt h0.ne').mpr hq
      simp
      omega
    · have hlog : (q * 2 ^ t).log2 = 23 + t := by
        have hq23 := ht ht0
        rw [Nat.log2_eq_iff (Nat.mul_ne_zero (by omega) (by positivity)), show 23 + t + 1 = 24 + t by omega, pow_add,
          pow_add]
        exact ⟨Nat.mul_le_mul_right _ hq23, Nat.mul_lt_mul_of_pos_right hq (by positivity)⟩
      omega
  have hquot : roundQuot (q * 2 ^ t * den) (den * 2 ^ t) = q := by
    rw [show q * 2 ^ t * den = q * (den * 2 ^ t) by ring, roundQuot, Nat.mul_mod_left,
      Nat.mul_div_cancel _ (by positivity), if_neg (by simp; omega)]
  rw [roundMag_eq, hplace, hquot]
  omega

/-- The magnitude bits of a finite value are what its magnitude rounds to. -/
theorem roundMag_fmag (v : Word) (den : Nat) (hd : 0 < den) (h : isfinite v = true) :
    roundMag (fmag v * den) den = v.toNat % 2 ^ 31 := by
  obtain ⟨t, q, hm, hq, ht, e⟩ := magOfBits_significand (v.toNat % 2 ^ 31)
  have hlt : v.toNat % 2 ^ 31 < 0x7F800000 := by
    rw [isfinite_iff, fexp] at h
    omega
  rw [fmag_eq_magOfBits, e, roundMag_exact t q den hd hq ht (by omega), hm]

/-- Dividing a finite value by 1.0 keeps it. -/
theorem fdiv_fone (v : Word) (h : isfinite v = true) : fdiv v fone = v := by
  have hmag : fmag fone = 2 ^ 149 := by decide
  have hsign : fsign fone = false := by decide
  rw [fdiv_of_isfinite v fone h (by decide) (by rw [hmag]; positivity), hmag, hsign, Bool.bne_false,
    roundMag_fmag v _ (by positivity) h, fpack_fields]

/-- A positive integer up to 2^24 has a significand of 24 bits. -/
theorem exists_significand (n : Nat) (h0 : n ≠ 0) (h : n ≤ 2 ^ 24) :
    ∃ t q, n * 2 ^ 149 = q * 2 ^ t ∧ 2 ^ 23 ≤ q ∧ q < 2 ^ 24 ∧ t ≤ 150 := by
  obtain rfl | hlt := h.eq_or_lt
  · exact ⟨150, 2 ^ 23, by norm_num⟩
  · have hlog : n.log2 ≤ 23 := by
      have := (Nat.log2_lt h0).mpr hlt
      omega
    refine ⟨126 + n.log2, n * 2 ^ (23 - n.log2), ?_, ?_, ?_, by omega⟩
    · rw [mul_assoc, ← pow_add]
      congr 2
      omega
    · calc 2 ^ 23 = 2 ^ n.log2 * 2 ^ (23 - n.log2) := by rw [← pow_add]; congr 1; omega
        _ ≤ n * 2 ^ (23 - n.log2) := Nat.mul_le_mul_right _ (Nat.log2_self_le h0)
    · calc n * 2 ^ (23 - n.log2) < 2 ^ (n.log2 + 1) * 2 ^ (23 - n.log2) :=
            Nat.mul_lt_mul_of_pos_right Nat.lt_log2_self (by positivity)
        _ = 2 ^ 24 := by rw [← pow_add]; congr 1; omega

/-- f32 of an integer up to 2^24 is a positive-signed finite word of exactly that value (00_scope.md R10, R18). -/
theorem f32_exact (n : Nat) (h : n ≤ 2 ^ 24) :
    isfinite (f32 n) = true ∧ fsign (f32 n) = false ∧ fscaled (f32 n) = n * 2 ^ 149 := by
  obtain rfl | h0 := eq_or_ne n 0
  · have hval : fscaled (f32 0) = 0 := by decide
    exact ⟨by decide, by decide, by rw [hval, Nat.cast_zero, zero_mul]⟩
  · obtain ⟨t, q, e, hlo, hhi, ht⟩ := exists_significand n h0 h
    have hbits : f32 n = fpack false (t * 2 ^ 23 + q) := by
      have hr := roundMag_exact t q 1 one_pos hhi (fun _ => hlo) (by omega)
      rw [mul_one] at hr
      rw [f32, if_neg h0, e, hr]
    rw [hbits]
    refine ⟨(isfinite_fpack_iff _ _ (by omega)).mpr (by omega), fsign_fpack _ _ (by omega), ?_⟩
    have hv := signedBy_fscaled_fpack false (t * 2 ^ 23 + q) (by omega)
    rw [magOfBits_place t q hhi.le (fun _ => hlo), ← e] at hv
    rw [signedBy_false] at hv
    exact_mod_cast hv

/-- Settles O45: f32(1) is 1.0. -/
theorem integersAreExact : Obligations.IntegersAreExact := by
  unfold Obligations.IntegersAreExact
  intro n h
  obtain ⟨hfin, hsign, hval⟩ := f32_exact n h
  have hone : f32 1 = fone := by decide
  exact ⟨hfin, hsign, hval, by rw [hone, fdiv_fone _ hfin]⟩

/-! ## Rounding to an integer -/

/-- roundHA rounds the magnitude and keeps the sign (00_scope.md R10). -/
theorem roundHA_eq_signedBy (v : Word) :
    roundHA v = signedBy (fsign v) ((2 * fmag v + 2 ^ 149) / 2 ^ 150 : Nat) := rfl

theorem natAbs_roundHA (v : Word) : (roundHA v).natAbs = (2 * fmag v + 2 ^ 149) / 2 ^ 150 := by
  rw [roundHA_eq_signedBy, natAbs_signedBy, Int.natAbs_natCast]

/-- The distance to the rounded integer is that of the magnitudes. -/
theorem natAbs_sub_roundHA (v : Word) :
    (fscaled v - roundHA v * 2 ^ 149).natAbs = ((fmag v : Int) - ((roundHA v).natAbs : Int) * 2 ^ 149).natAbs := by
  rw [natAbs_roundHA, roundHA_eq_signedBy, fscaled_eq_signedBy]
  cases fsign v with
  | false => rw [signedBy_false, signedBy_false]
  | true =>
    rw [signedBy_true, signedBy_true]
    omega

/-- Settles O46: the division in `roundHA` leaves a difference from minus a half on and below a half. -/
theorem roundsHalvesAway : Obligations.RoundsHalvesAway := by
  unfold Obligations.RoundsHalvesAway
  intro v _
  rw [natAbs_sub_roundHA, natAbs_fscaled, natAbs_roundHA]
  omega

end Sys2Proof.Machine
end

section
/-! PROOFS. Decoding against the encoder (30_encoding.md R80 to R83): a decoded command is well formed, and an encoded
one decodes to itself. -/

namespace Sys2Proof

/-! ## A decoded command is well formed -/

/-- A decoded command is its frame's operands under a listed opcode (30_encoding.md R81, R86). -/
theorem decode_command (c : Config) (ws : List Word) (i : Instr) (n : Nat) (h : decode c ws = .command i n) :
    ∃ hd ops opc, ws = hd :: ops ∧ Opcode.ofCode (headerOpc hd) = some opc ∧
      decodeOperands c opc (headerSub hd) ops = some i := by
  cases ws with
  | nil => cases h
  | cons hd ops =>
    refine ⟨hd, ops, ?_⟩
    simp only [decode] at h
    split at h
    · cases h
    split at h
    · cases h
    unfold decodeFrame at h
    split at h
    · cases h
    next opc ho =>
    refine ⟨opc, rfl, ho, ?_⟩
    split_ifs at h
    split at h
    next j hj =>
      cases h
      exact hj
    · cases h

/-- The operands read from a frame have the shape and number of 30_encoding.md R81. -/
theorem decodeOperands_wellFormed (c : Config) (opc : Opcode) (sub : Byte) (ops : List Word) (i : Instr)
    (h : decodeOperands c opc sub ops = some i) : i.wellFormed c = true := by
  unfold decodeOperands at h
  split at h
  case h_1 k npfb l rest =>
    obtain ⟨coefs, hc, rfl⟩ := Option.map_eq_some_iff.mp h
    obtain ⟨hl, hk, -⟩ := takeNums_eq _ _ _ _ hc
    simp [Instr.wellFormed, hl, hk]
  case h_3 =>
    obtain ⟨⟨x, rest⟩, hx, rfl⟩ := Option.map_eq_some_iff.mp h
    simp [Instr.wellFormed, (takeNum_eq _ _ _ _ hx).1]
  case h_4 n rest =>
    obtain ⟨xs, hx, rfl⟩ := Option.map_eq_some_iff.mp h
    obtain ⟨hl, hk, -⟩ := takeNums_eq _ _ _ _ hx
    simp [Instr.wellFormed, hk, hl, n.isLt]
  all_goals cases h
  all_goals rfl

/-- The decoder answers well-formed commands only (30_encoding.md R81, R83). -/
theorem decode_wellFormed (c : Config) (ws : List Word) (i : Instr) (n : Nat) (h : decode c ws = .command i n) :
    i.wellFormed c = true := by
  obtain ⟨hd, ops, opc, -, -, ho⟩ := decode_command c ws i n h
  exact decodeOperands_wellFormed c opc _ ops i ho

/-! ## An encoded command decodes to itself -/

/-- The length of an encoded command, for all twelve (30_encoding.md R83). -/
theorem encode_length_announced (i : Instr) : Laws.EncodeLength.Statement i := by
  cases i with
  | construct k npfb l coefs => exact Laws.EncodeLength.construct k npfb l coefs
  | constructDesign ftype k m ebw npfb => exact Laws.EncodeLength.constructDesign ftype k m ebw npfb
  | step x => exact Laws.EncodeLength.step x
  | execute xs => exact Laws.EncodeLength.execute xs
  | setBandwidth bt => exact Laws.EncodeLength.setBandwidth bt
  | setOutputRate ko => exact Laws.EncodeLength.setOutputRate ko
  | setRate rate => exact Laws.EncodeLength.setRate rate
  | lock => exact Laws.EncodeLength.lock
  | unlock => exact Laws.EncodeLength.unlock
  | getTau => exact Laws.EncodeLength.getTau
  | readReg idx => exact Laws.EncodeLength.readReg idx
  | reset => exact Laws.EncodeLength.reset

/-- The operand words of an encoded command give the command back, and SUB is zero outside READ_REG (30_encoding.md
R81, R82). -/
theorem decodeOperands_encode (c : Config) (i : Instr) (hd : Word) (ops rest : List Word) (h : i.wellFormed c = true)
    (he : encode i = hd :: ops) :
    decodeOperands c i.opcode (headerSub hd) (ops ++ rest) = some i ∧ ¬ (headerSub hd ≠ 0 ∧ i.opcode ≠ .readReg) := by
  cases i with
  | construct k npfb l coefs =>
    obtain ⟨rfl, rfl⟩ := List.cons.inj he
    simp only [Instr.wellFormed, Bool.and_eq_true, beq_iff_eq] at h
    obtain ⟨hk, hl⟩ := h
    simp [Instr.opcode, decodeOperands, ← hl, takeNums_flatMap _ _ _ hk]
  | step x =>
    obtain ⟨rfl, rfl⟩ := List.cons.inj he
    simp only [Instr.wellFormed, beq_iff_eq] at h
    simp [Instr.opcode, decodeOperands, ← h, takeNum_words]
  | execute xs =>
    obtain ⟨rfl, rfl⟩ := List.cons.inj he
    simp only [Instr.wellFormed, Bool.and_eq_true, decide_eq_true_eq] at h
    obtain ⟨hk, hl⟩ := h
    have hn : (BitVec.ofNat 32 xs.length).toNat = xs.length := Nat.mod_eq_of_lt hl
    simp [-BitVec.toNat_ofNat, hn, Instr.opcode, decodeOperands, takeNums_flatMap _ _ _ hk]
  | constructDesign | setBandwidth | setOutputRate | setRate | lock | unlock | getTau | readReg | reset =>
    obtain ⟨rfl, rfl⟩ := List.cons.inj he
    simp [Instr.opcode, decodeOperands]

/-- A well-formed command decodes from its encoding, whatever follows (30_encoding.md R80, R81, R83). -/
theorem decode_encode_append (c : Config) (i : Instr) (rest : List Word) (h : i.wellFormed c = true) :
    decode c (encode i ++ rest) = .command i (encode i).length := by
  obtain ⟨hd, ops, he, hopc, hrsv, hlen⟩ := encode_length_announced i c rest h
  obtain ⟨hops, hsub⟩ := decodeOperands_encode c i hd ops rest h he
  have hfit : ¬ (ops ++ rest).length + 1 < (encode i).length := by simp [he]
  rw [he] at hlen hfit ⊢
  simp only [List.cons_append, decode, hlen]
  rw [if_neg hfit, decodeFrame, hopc, Opcode.ofCode_code]
  simp only [hrsv, hops]
  rw [if_neg (by simp), if_neg hsub]

end Sys2Proof
end

section
/-! PROOFS. Which command a step runs (10_state.md R17, 20_memory.md R64, R69). -/

namespace Sys2Proof.Machine

/-- A whole command at the front of the stream is consumed and executed (20_memory.md R69). -/
theorem step_of_command (s : State) (i : Instr) (n : Nat) (hl : s.cfg.legal = true)
    (h : decode s.cfg s.input = .command i n) : step s = exec i (s.consume n) := by
  simp [step, hl, h]

/-- The block waits while words of the command are missing (20_memory.md R64, log 3). -/
theorem step_of_incomplete (s : State) (hl : s.cfg.legal = true) (h : decode s.cfg s.input = .incomplete) :
    step s = .next s := by
  simp [step, hl, h]

/-- Settles O7, by the decoder's two answers. -/
theorem stepRunsDecodedCommand : Obligations.StepRunsDecodedCommand := by
  unfold Obligations.StepRunsDecodedCommand
  exact fun s hl => ⟨fun i n h => step_of_command s i n hl h, step_of_incomplete s hl⟩

/-- Settles O8: what the host sent encoded decodes to itself, and consuming its length leaves the words after it. -/
theorem stepRunsEncodedCommand : Obligations.StepRunsEncodedCommand := by
  unfold Obligations.StepRunsEncodedCommand
  intro s i rest hl hw hin
  have hd : decode s.cfg s.input = .command i (encode i).length := by rw [hin, decode_encode_append s.cfg i rest hw]
  have hrest : s.input.drop (encode i).length = rest := by rw [hin, List.drop_left]
  rw [step_of_command s i _ hl hd, State.consume, hrest]

end Sys2Proof.Machine
end

section
/-! PROOFS. The parts of the machine's invariant, and which operations on a state keep each of them (10_state.md R18,
R36 to R41). -/

namespace Sys2Proof.Machine

/-! ## The parts of the invariant -/

/-- What the invariant says of a configured block apart from the loop registers and the fault record: it holds while the
block is faulted too (60_exceptions.md R226). -/
def State.persistentWf (s : State) : Bool :=
  s.configWf && s.rateWf && s.bandwidthWf && s.memoriesWf && s.coefficientsWf && s.wMf == s.wDmf

/-- A block with legal parameters that a construction has configured, faulted or not. -/
def State.installedWf (s : State) : Prop := s.cfg.legal = true ∧ s.configured = true ∧ s.persistentWf = true

/-- The loop invariants that hold at every loop test, also where B is about to be found negative (10_state.md R41 items
3, 6 and 7). -/
def State.filterWf (s : State) : Prop :=
  inErrorRange s.q = true ∧ s.decim.toNat ≤ s.kOut.toNat ∧ s.qPrime = s.qHat

/-- What holds at every loop test of a STEP: the invariant of a ready block without B ≥ 0. -/
def State.loopingWf (s : State) : Prop :=
  s.installedWf ∧ s.faulted = false ∧ s.faultCause = 0 ∧ s.filterWf

/-- A ready block with the invariant. -/
def State.readyWf (s : State) : Prop := s.wf = true ∧ s.configured = true ∧ s.faulted = false

theorem State.persistentWf_iff (s : State) :
    s.persistentWf = true ↔
      s.configWf = true ∧ s.rateWf = true ∧ s.bandwidthWf = true ∧ s.memoriesWf = true ∧ s.coefficientsWf = true ∧
        s.wMf = s.wDmf := by
  simp [State.persistentWf, and_assoc]

theorem State.loopWf_iff (s : State) : s.loopWf = true ↔ 0 ≤ s.b.toInt ∧ s.filterWf := by
  simp [State.loopWf, State.filterWf, and_assoc]

theorem State.faultWf_of_not_faulted (s : State) (h : s.faulted = false) : s.faultWf = true ↔ s.faultCause = 0 := by
  simp [State.faultWf, h]

/-- The invariant of a configured block (10_state.md R18). -/
theorem State.wf_iff_of_configured (s : State) (hc : s.configured = true) :
    s.wf = true ↔ s.installedWf ∧ s.faultWf = true ∧ (s.faulted = true ∨ s.loopWf = true) := by
  simp [State.wf, State.installedWf, State.persistentWf, hc, and_assoc, and_left_comm]

/-- The invariant asks for legal parameters whatever the state (00_scope.md R6). -/
theorem State.legal_of_wf (s : State) (h : s.wf = true) : s.cfg.legal = true := by
  simp only [State.wf, Bool.and_eq_true] at h
  exact h.1.1

/-- A ready block with the invariant is one that may enter the output loop, with B ≥ 0 (10_state.md R41). -/
theorem State.readyWf_iff (s : State) : s.readyWf ↔ s.loopingWf ∧ 0 ≤ s.b.toInt := by
  constructor
  · rintro ⟨hw, hc, hf⟩
    obtain ⟨hi, hcause, hl⟩ := (s.wf_iff_of_configured hc).mp hw
    obtain ⟨hb, hfilter⟩ := s.loopWf_iff.mp (hl.resolve_left (by simp [hf]))
    exact ⟨⟨hi, hf, (s.faultWf_of_not_faulted hf).mp hcause, hfilter⟩, hb⟩
  · rintro ⟨⟨hi, hf, hcause, hfilter⟩, hb⟩
    obtain ⟨-, hc, -⟩ := id hi
    exact ⟨(s.wf_iff_of_configured hc).mpr
      ⟨hi, (s.faultWf_of_not_faulted hf).mpr hcause, .inr (s.loopWf_iff.mpr ⟨hb, hfilter⟩)⟩, hc, hf⟩

theorem State.wf_of_loopingWf (s : State) (h : s.loopingWf) (hb : 0 ≤ s.b.toInt) : s.wf = true :=
  (s.readyWf_iff.mpr ⟨h, hb⟩).1

theorem State.installedWf_of_wf (s : State) (h : s.wf = true) (hc : s.configured = true) : s.installedWf :=
  ((s.wf_iff_of_configured hc).mp h).1

/-- K_OUT is at least 1 (10_state.md R20). -/
theorem State.one_le_kOut (s : State) (h : s.installedWf) : 1 ≤ s.kOut.toNat := by
  obtain ⟨-, -, hi⟩ := h
  obtain ⟨hcfg, -⟩ := s.persistentWf_iff.mp hi
  simp only [State.configWf, kOutInRange, Bool.and_eq_true, decide_eq_true_eq] at hcfg
  omega

/-! ## The streams -/

/-- The invariant is no matter of the streams or the command position (70_reset_and_hazards.md R258). -/
theorem State.wf_consume (s : State) (n : Nat) : (s.consume n).wf = s.wf := rfl

/-- A response keeps the invariant. -/
theorem State.wf_respond (s : State) (opc : Byte) (st : Status) (payload : List Word) :
    (s.respond opc st payload).wf = s.wf := rfl

/-- A rejection keeps the invariant (60_exceptions.md R223). -/
theorem State.wf_reject (s : State) (opc : Byte) (st : Status) : (s.reject opc st).wf = s.wf := rfl

/-- A configuration error keeps the invariant (60_exceptions.md R223). -/
theorem State.wf_configError (s : State) (opc : Opcode) (d : Detail) : (s.configError opc d).wf = s.wf := rfl

/-- A command behind the common checks keeps the invariant if its meaning on a ready block does (43_configuration.md
R179). -/
theorem whenReady_wf (opc : Opcode) (s : State) (f : State → State) (h : s.wf = true) (hf : s.readyWf → (f s).wf = true) :
    (whenReady opc s f).wf = true := by
  obtain ⟨-, e⟩ | ⟨-, -, e⟩ | ⟨hc, hn, e⟩ := whenReady_cases opc s f <;> rw [e]
  · rwa [State.wf_reject]
  · rwa [State.wf_reject]
  · exact hf ⟨h, hc, hn⟩

/-! ## Faults -/

theorem faultCode_cases (c : FaultCause) : faultCode c = 0x10 ∨ faultCode c = 0x11 ∨ faultCode c = 0x12 := by
  cases c <;> decide

/-- Fault entry restores the invariant, whatever the loop registers were: nothing is asked of them while faulted
(60_exceptions.md R226). -/
theorem State.enterFault_wf (s : State) (c : FaultCause) (h : s.installedWf) : (s.enterFault c).wf = true := by
  obtain ⟨-, hc, -⟩ := id h
  have hi : (s.enterFault c).installedWf := h
  have hcause : (s.enterFault c).faultWf = true := by simpa [State.faultWf, or_assoc] using faultCode_cases c
  exact ((s.enterFault c).wf_iff_of_configured hc).mpr ⟨hi, hcause, .inl rfl⟩

/-! ## The loop filter and the counters -/

/-- A clipped error that is no NaN lies in [-1, 1] (42_error_loop.md R163). -/
theorem inErrorRange_clip (t : Word) (h : isnan t = false) : inErrorRange (clip t) = true := by
  have h1 : isnan fone = false := by decide
  have h2 : isnan fnegOne = false := by decide
  unfold clip
  split_ifs with hhi hlo
  · decide
  · decide
  · rw [flt_iff] at hhi hlo
    simp only [h, h1, h2, true_and, not_lt] at hhi hlo
    simp [inErrorRange, fle_iff, h, h1, h2, hhi, hlo]

theorem State.clearDecim_filterWf (s : State) (h : s.filterWf) : s.clearDecim.filterWf := by
  obtain ⟨hq, -, hp⟩ := h
  exact ⟨hq, Nat.zero_le _, hp⟩

/-- The loop filter leaves Q in range and Q_PRIME = Q_HAT (42_error_loop.md R163, R164). -/
theorem State.updateLoop_filterWf (s : State) (t : Word) (h : s.filterWf) (hn : isnan t = false) :
    (s.updateLoop t).filterWf := by
  obtain ⟨-, hd, -⟩ := h
  exact ⟨inErrorRange_clip t hn, hd, rfl⟩

/-- The counter goes up to K_OUT at most and does not wrap (41_step.md R143, log 13). -/
theorem State.countOutput_filterWf (s : State) (h : s.filterWf) (hd : s.decim.toNat < s.kOut.toNat) :
    s.countOutput.filterWf := by
  obtain ⟨hq, -, hp⟩ := h
  refine ⟨hq, ?_, hp⟩
  have := s.kOut.isLt
  have e : (s.decim + 1).toNat = s.decim.toNat + 1 := by
    rw [BitVec.toNat_add]
    exact Nat.mod_eq_of_lt (by simp; omega)
  simp only [State.countOutput_decim, State.countOutput_kOut]
  omega

/-- Step 2b leaves the counter below K_OUT for step 2c (41_step.md R143), and one iteration keeps the loop filter's
invariants. -/
theorem iterate_filterWf (s s' : State) (hk : 1 ≤ s.kOut.toNat) (h : s.filterWf) (hi : iterate s = .again s') :
    s'.filterWf := by
  obtain ⟨e, -⟩ | ⟨e, -⟩ | ⟨s₁, e, hs₁⟩ := iterate_cases s
  · cases e.symm.trans hi
    exact s.clearDecim_filterWf h
  · cases e.symm.trans hi
  · have hcount : s₁.filterWf ∧ s₁.decim.toNat < s₁.kOut.toNat := by
      obtain ⟨rfl, hd⟩ | ⟨rfl, -⟩ | ⟨rfl, -, -, hn⟩ := hs₁
      · obtain ⟨-, hle, -⟩ := id h
        exact ⟨h, lt_of_le_of_ne hle fun he => hd (BitVec.eq_of_toNat_eq he)⟩
      · exact ⟨s.clearDecim_filterWf h, hk⟩
      · exact ⟨s.clearDecim.updateLoop_filterWf _ (s.clearDecim_filterWf h) hn, hk⟩
    obtain ⟨-, ea⟩ | ⟨-, ea⟩ := advance_cases s₁
    · cases (e.trans ea).symm.trans hi
      exact s₁.countOutput_filterWf hcount.1 hcount.2
    · cases (e.trans ea).symm.trans hi

/-! ## The output loop -/

/-- The output loop does not touch what a construction installed (10_state.md R18). -/
theorem State.installedWf_of_loopFrame (s t : State) (h : s.loopFrame t) (hs : s.installedWf) : t.installedWf := by
  rw [h]
  exact hs

/-- An iteration that goes back to the loop test keeps what holds there. -/
theorem iterate_loopingWf (s s' : State) (h : s.loopingWf) (hi : iterate s = .again s') : s'.loopingWf := by
  obtain ⟨hinst, hf, hcause, hfilter⟩ := h
  have hframe := (iterate_loopFrame s).1 s' hi
  have hfilter' := iterate_filterWf s s' (s.one_le_kOut hinst) hfilter hi
  refine ⟨s.installedWf_of_loopFrame s' hframe hinst, ?_, ?_, hfilter'⟩
  · rw [hframe]; exact hf
  · rw [hframe]; exact hcause

/-- The symbol-boundary correction leaves B ≥ 0, since the loop is left at B ≥ NPFB only (41_step.md R141, R145). -/
theorem State.correct_readyWf (s : State) (h : s.loopingWf) (hl : loopTest s = .leave) : s.correct.readyWf := by
  have hb : (s.npfb.toNat : Int) ≤ s.b.toInt := by
    obtain ⟨-, hb⟩ | ⟨e, -⟩ | ⟨e, -⟩ := loopTest_cases s
    · exact hb
    · cases e.symm.trans hl
    · cases e.symm.trans hl
  refine s.correct.readyWf_iff.mpr ⟨h, ?_⟩
  rw [State.correct_b, toInt_sub_npfb _ _ hb]
  omega

/-- A burst that completed leaves a ready block with the invariant; one that raised leaves what was
installed, for fault entry. -/
def Burst.endsWf : Burst → Prop
  | .completed s _ => s.readyWf
  | .raised _ s _ => s.installedWf

/-- The output loop ends well from every state that may enter it (41_step.md R131). -/
theorem outputLoop_endsWf (room : Nat) (s : State) (h : s.loopingWf) : (outputLoop room s).endsWf := by
  obtain ⟨t, ys, e, ht, hl, -⟩ | ⟨c, t, ys, e, -, hr⟩ :=
    outputLoop_cases State.loopingWf (fun a b ha _ hi => iterate_loopingWf a b ha hi) room s h <;> rw [e]
  · exact t.correct_readyWf ht hl
  · obtain ⟨-, ht, -⟩ | ⟨-, ht, -⟩ | ⟨u, hu, -, hi⟩ := hr
    · exact ht.1
    · exact ht.1
    · exact u.installedWf_of_loopFrame t ((iterate_loopFrame u).2 c t hi) hu.1

/-! ## The banks -/

/-- What a push leaves in a history is no matter of the bank's coefficients (00_scope.md R7, 10_state.md R39). -/
theorem fbPush_hist_congr (c : Config) (a b : Bank) (x : Num) (hl : a.hLen = b.hLen) (hh : a.hist = b.hist) :
    (fbPush c a x).hist = (fbPush c b x).hist := by
  unfold fbPush
  cases c.fb <;> simp [hl, hh]

/-- A push of a sample of SAMPLE_KIND keeps the memories in form and the histories equal (10_state.md R38, R39). -/
theorem State.push_persistentWf (s : State) (x : Num) (hx : x.kind = s.cfg.sampleKind) (h : s.persistentWf = true) :
    (s.push x).persistentWf = true := by
  obtain ⟨hcfg, hr, hbw, hm, hco, hw⟩ := s.persistentWf_iff.mp h
  exact (s.push x).persistentWf_iff.mpr
    ⟨hcfg, hr, hbw, s.push_memoriesWf x hx hm, hco, fbPush_hist_congr s.cfg s.mf s.dmf x rfl hw⟩

/-- Clearing the histories keeps them in form and equal (10_state.md R38, R39). -/
theorem State.clearHistories_persistentWf (s : State) (h : s.persistentWf = true) : s.clearHistories.persistentWf = true := by
  obtain ⟨hcfg, hr, hbw, hm, hco, -⟩ := s.persistentWf_iff.mp h
  exact s.clearHistories.persistentWf_iff.mpr ⟨hcfg, hr, hbw, s.clearHistories_memoriesWf hm, hco, rfl⟩

/-- A ready block may enter the output loop once the banks have taken the sample (41_step.md R140). -/
theorem State.push_loopingWf (s : State) (x : Num) (hx : x.kind = s.cfg.sampleKind) (h : s.readyWf) :
    (s.push x).loopingWf := by
  obtain ⟨⟨⟨hl, hc, hi⟩, hrest⟩, -⟩ := s.readyWf_iff.mp h
  exact ⟨⟨hl, hc, s.push_persistentWf x hx hi⟩, hrest⟩

end Sys2Proof.Machine
end

section
/-! PROOFS. Every command keeps the machine's invariant (10_state.md R18, R36 to R41; 20_memory.md R61). -/

namespace Sys2Proof.Machine

/-! ## STEP and EXECUTE -/

/-- STEP_CORE ends well from a ready block (41_step.md R131). -/
theorem stepCore_endsWf (room : Nat) (s : State) (x : Num) (hx : x.kind = s.cfg.sampleKind) (h : s.readyWf) :
    (stepCore room s x).endsWf :=
  outputLoop_endsWf room (s.push x) (s.push_loopingWf x hx h)

/-- A STEP's answer has the invariant, after a fault by fault entry (60_exceptions.md R226). -/
theorem finishStep_wf (burst : Burst) (h : burst.endsWf) : (finishStep burst).wf = true := by
  cases burst with
  | completed s ys => exact h.1
  | raised c s ys => exact s.enterFault_wf c h

/-- A batch that did not fault leaves a ready block with the invariant; one that raised leaves what was
installed, for fault entry. -/
def Batch.endsWf : Batch → Prop
  | .completed s _ => s.readyWf
  | .nonfinite s _ => s.readyWf
  | .raised _ s _ => s.installedWf

theorem Batch.endsWf_prepend (front : List Num) (batch : Batch) (h : batch.endsWf) : (batch.prepend front).endsWf := by
  cases batch <;> exact h

/-- EXECUTE's sample loop ends well: each STEP_CORE that completes leaves a ready block for the next (41_step.md
R150). -/
theorem runBatch_endsWf (xs : List Num) (total : Nat) (s : State) (hxs : numsOfKind s.cfg.sampleKind xs = true)
    (h : s.readyWf) : (runBatch xs total s).endsWf := by
  induction xs generalizing total s with
  | nil => exact h
  | cons x xs ih =>
    obtain ⟨hx, hxs⟩ := (numsOfKind_cons _ x xs).mp hxs
    have hcore := stepCore_endsWf (roomFor s.cfg total) s x hx h
    unfold runBatch
    split
    · exact h
    · obtain ⟨t, ys, e, ht, -⟩ | ⟨c, t, ys, e, -⟩ := stepCore_frame (roomFor s.cfg total) s x
      · have hcfg : t.cfg = s.cfg := by rw [ht]; rfl
        rw [e] at hcore
        simp only [e]
        exact Batch.endsWf_prepend _ _ (ih _ t (hcfg ▸ hxs) hcore)
      · rw [e] at hcore
        simp only [e]
        exact hcore

/-- An EXECUTE's answer has the invariant, after a fault by fault entry (60_exceptions.md R226). -/
theorem finishBatch_wf (batch : Batch) (h : batch.endsWf) : (finishBatch batch).wf = true := by
  cases batch with
  | completed s ys => exact h.1
  | nonfinite s ys => exact h.1
  | raised c s ys => exact s.enterFault_wf c h

/-! ## The configuration commands and RESET -/

/-- SET_BANDWIDTH with an accepted operand (43_configuration.md R180). -/
theorem State.writeBandwidth_wf (s : State) (bt : Word) (hbt : inUnitInterval bt = true) (h : s.readyWf) :
    (s.writeBandwidth bt).wf = true := by
  obtain ⟨⟨⟨hl, hc, hi⟩, hrest⟩, hb⟩ := s.readyWf_iff.mp h
  obtain ⟨hcfg, hr, -, hm, hco, hw⟩ := s.persistentWf_iff.mp hi
  have hbw : (s.writeBandwidth bt).bandwidthWf = true := by simp [State.bandwidthWf, hbt]
  have hi' := (s.writeBandwidth bt).persistentWf_iff.mpr ⟨hcfg, hr, hbw, hm, hco, hw⟩
  exact (s.writeBandwidth bt).wf_of_loopingWf ⟨⟨hl, hc, hi'⟩, hrest⟩ hb

/-- The clamp leaves DECIM_COUNTER at most the new K_OUT (43_configuration.md R191). -/
theorem State.clampDecim_le (s : State) (ko : Word) : (s.clampDecim ko).decim.toNat ≤ ko.toNat := by
  rw [State.clampDecim_decim]
  split <;> omega

/-- SET_OUTPUT_RATE with an accepted operand: the clamp keeps DECIM_COUNTER ≤ K_OUT (43_configuration.md R186, R191). -/
theorem State.writeOutputRate_clampDecim_wf (s : State) (ko : Word) (hko : kOutInRange s.cfg ko = true) (h : s.readyWf) :
    ((s.writeOutputRate ko).clampDecim ko).wf = true := by
  obtain ⟨⟨⟨hl, hc, hi⟩, hf, hcause, hq, -, hp⟩, hb⟩ := s.readyWf_iff.mp h
  obtain ⟨hcfg, -, hbw, hm, hco, hw⟩ := s.persistentWf_iff.mp hi
  have hcfg' : ((s.writeOutputRate ko).clampDecim ko).configWf = true := by
    simp only [State.configWf, Bool.and_eq_true] at hcfg ⊢
    obtain ⟨⟨⟨⟨⟨hk, hn⟩, -⟩, hl1⟩, hl2⟩, hh⟩ := hcfg
    exact ⟨⟨⟨⟨⟨hk, hn⟩, hko⟩, hl1⟩, hl2⟩, hh⟩
  have hr : ((s.writeOutputRate ko).clampDecim ko).rateWf = true := by simp [State.rateWf]
  have hi' := ((s.writeOutputRate ko).clampDecim ko).persistentWf_iff.mpr ⟨hcfg', hr, hbw, hm, hco, hw⟩
  have hd := (s.writeOutputRate ko).clampDecim_le ko
  exact State.wf_of_loopingWf _ ⟨⟨hl, hc, hi'⟩, hf, hcause, hq, hd, hp⟩ hb

/-- SET_RATE with an accepted operand (43_configuration.md R193). -/
theorem State.writeRate_wf (s : State) (rate : Word) (hrate : rateInRange rate = true) (h : s.readyWf) :
    (s.writeRate rate).wf = true := by
  obtain ⟨⟨⟨hl, hc, hi⟩, hrest⟩, hb⟩ := s.readyWf_iff.mp h
  obtain ⟨hcfg, -, hbw, hm, hco, hw⟩ := s.persistentWf_iff.mp hi
  have hr : (s.writeRate rate).rateWf = true := by simp [State.rateWf, hrate]
  have hi' := (s.writeRate rate).persistentWf_iff.mpr ⟨hcfg, hr, hbw, hm, hco, hw⟩
  exact (s.writeRate rate).wf_of_loopingWf ⟨⟨hl, hc, hi'⟩, hrest⟩ hb

/-- The cleared loop registers satisfy the loop invariants (10_state.md R18, columns CON and RST). -/
theorem State.filterWf_of_cleared (s : State) (hq : s.q = posZero) (hd : s.decim = 0) (hp : s.qPrime = s.qHat) :
    s.filterWf := by
  refine ⟨?_, ?_, hp⟩
  · rw [hq]; decide
  · rw [hd]; exact Nat.zero_le _

/-- RESET restores the whole invariant on any configured block that has it, faulted or not (43_configuration.md
R212). -/
theorem State.resetLoop_wf (s : State) (h : s.installedWf) : s.resetLoop.wf = true := by
  obtain ⟨hl, hc, hi⟩ := h
  have hi' : s.resetLoop.persistentWf = true := s.clearLoop.restoreStep.clearHistories_persistentWf hi
  have hfilter := s.resetLoop.filterWf_of_cleared rfl rfl rfl
  exact s.resetLoop.wf_of_loopingWf ⟨⟨hl, hc, hi'⟩, rfl, rfl, hfilter⟩ (by simp)

/-! ## The constructions -/

/-- The operands of a construction pass its checks (40_construction.md R110, R120). -/
def Installable (c : Config) (k npfb l : Word) (coefs : List Num) : Prop :=
  kInRange c k = true ∧ npfbInRange c npfb = true ∧ 1 ≤ l.toNat ∧ l.toNat ≤ c.lMax ∧
    Memory.wf c.coefKind l.toNat coefs = true ∧ coefs.all numFinite = true

/-- An installation with legal operands gives a ready block with the invariant, whatever the state was
(40_construction.md R115). -/
theorem State.install_wf (s : State) (k npfb l : Word) (coefs : List Num) (hlegal : s.cfg.legal = true)
    (h : Installable s.cfg k npfb l coefs) : (s.install k npfb l coefs).wf = true := by
  obtain ⟨hk, hn, hl1, hl2, hm, hfin⟩ := h
  have hko : kOutInRange s.cfg 1#32 = true := by
    simp only [Config.legal, Bool.and_eq_true, decide_eq_true_eq] at hlegal
    simp [kOutInRange, hlegal]
  have hcfg : (s.install k npfb l coefs).configWf = true := by simp [State.configWf, hk, hn, hko, hl1, hl2]
  have hr : (s.install k npfb l coefs).rateWf = true := by simp [State.rateWf]
  have hbt : inUnitInterval f001 = true := by decide
  have hbw : (s.install k npfb l coefs).bandwidthWf = true := by simp [State.bandwidthWf, hbt]
  have hco : (s.install k npfb l coefs).coefficientsWf = true := by
    simp only [State.coefficientsWf, State.install_h, State.install_dh, State.install_l, State.install_npfb, hfin,
      beq_self_eq_true, Bool.and_self]
  have hi := (s.install k npfb l coefs).persistentWf_iff.mpr ⟨hcfg, hr, hbw, s.install_memoriesWf k npfb l coefs hm, hco, rfl⟩
  have hfilter := (s.install k npfb l coefs).filterWf_of_cleared rfl rfl rfl
  exact (s.install k npfb l coefs).wf_of_loopingWf ⟨⟨hlegal, rfl, hi⟩, rfl, rfl, hfilter⟩ (by simp)

/-- CONSTRUCT installs checked operands only (40_construction.md R110). -/
theorem execConstruct_installable (k npfb l : Word) (coefs : List Num) (s : State)
    (hw : (Instr.construct k npfb l coefs).wellFormed s.cfg = true) :
    (∃ d, execConstruct k npfb l coefs s = .next (s.configError .construct d)) ∨
      (Installable s.cfg k npfb l coefs ∧
        execConstruct k npfb l coefs s = .next ((s.install k npfb l coefs).respond Opcode.construct.code .ok [])) := by
  unfold execConstruct
  split_ifs with hlmax hk hl hn hfin
  case neg =>
    simp only [Instr.wellFormed, Bool.and_eq_true, beq_iff_eq, Config.coefCount, if_pos (not_lt.mp hlmax)] at hw
    obtain ⟨hkind, hlen⟩ := hw
    have hl1 : l.toNat ≠ 0 := fun h0 => hl (BitVec.eq_of_toNat_eq h0)
    refine .inr ⟨⟨by simpa using hk, by simpa using hn, by omega, by omega, ?_, by simpa using hfin⟩, rfl⟩
    rw [Memory.wf_iff, ← numsOfKind_mem]
    exact ⟨hlen, hkind⟩
  all_goals exact .inl ⟨_, rfl⟩

/-- DESIGN's coefficients are of COEF_KIND (40_construction.md R121, log 8). -/
theorem kind_of_designCoefs (c : Config) (ftype : Word) (n m : Nat) (ebw : Word) (coefs : List Num)
    (h : designCoefs c ftype n m ebw = some coefs) : ∀ x ∈ coefs, x.kind = c.coefKind := by
  suffices hm : ∃ cs : List Num, coefs = cs.map (asKind c.coefKind) by
    obtain ⟨cs, rfl⟩ := hm
    simp
  unfold designCoefs at h
  split at h
  · obtain ⟨cs, -, e⟩ := Option.map_eq_some_iff.mp h
    exact ⟨cs, e.symm⟩
  · obtain ⟨row, -, e⟩ := Option.map_eq_some_iff.mp h
    exact ⟨row.coefficients, e.symm⟩

/-- CONSTRUCT_DESIGN installs checked operands only; with legal parameters its length fits a word (40_construction.md
R120). -/
theorem execConstructDesign_installable (ftype k m ebw npfb : Word) (s : State) (hlegal : s.cfg.legal = true) :
    (∃ d, execConstructDesign ftype k m ebw npfb s = .next (s.configError .constructDesign d)) ∨
      ∃ l coefs, Installable s.cfg k npfb l coefs ∧
        execConstructDesign ftype k m ebw npfb s =
          .next ((s.install k npfb l coefs).respond Opcode.constructDesign.code .ok []) := by
  unfold execConstructDesign
  split_ifs with hk hm hebw hn hft hlmax
  case neg =>
    split
    · exact .inl ⟨_, rfl⟩
    next coefs hd =>
    split_ifs with hlen hfin
    case neg =>
      simp only [Config.legal, Bool.and_eq_true, decide_eq_true_eq] at hlegal
      obtain ⟨⟨-, -, hl31⟩, -⟩ := hlegal
      have hl : (BitVec.ofNat 32 (designLength k m npfb)).toNat = designLength k m npfb :=
        Nat.mod_eq_of_lt (by omega)
      have hpos : 1 ≤ designLength k m npfb := Nat.le_add_left 1 _
      refine .inr ⟨_, coefs, ⟨by simpa using hk, by simpa using hn, by omega, by omega, ?_, by simpa using hfin⟩, rfl⟩
      rw [Memory.wf_iff, hl]
      exact ⟨not_not.mp hlen, kind_of_designCoefs _ _ _ _ _ _ hd⟩
    all_goals exact .inl ⟨_, rfl⟩
  all_goals exact .inl ⟨_, rfl⟩

/-! ## Every command -/

/-- Every well-formed command keeps the invariant. -/
theorem exec_wf (i : Instr) (s t : State) (h : s.wf = true) (hw : i.wellFormed s.cfg = true) (he : exec i s = .next t) :
    t.wf = true := by
  cases i with
  | construct k npfb l coefs =>
    obtain ⟨d, e⟩ | ⟨hi, e⟩ := execConstruct_installable k npfb l coefs s hw <;> cases e.symm.trans he
    · rwa [State.wf_configError]
    · rw [State.wf_respond]
      exact s.install_wf k npfb l coefs (s.legal_of_wf h) hi
  | constructDesign ftype k m ebw npfb =>
    obtain ⟨d, e⟩ | ⟨l, coefs, hi, e⟩ := execConstructDesign_installable ftype k m ebw npfb s (s.legal_of_wf h) <;>
      cases e.symm.trans he
    · rwa [State.wf_configError]
    · rw [State.wf_respond]
      exact s.install_wf k npfb l coefs (s.legal_of_wf h) hi
  | step x =>
    cases he
    refine whenReady_wf _ s _ h fun hr => ?_
    split
    · rwa [State.wf_reject]
    · exact finishStep_wf _ (stepCore_endsWf _ s x (by simpa [Instr.wellFormed] using hw) hr)
  | execute xs =>
    cases he
    simp only [Instr.wellFormed, Bool.and_eq_true] at hw
    exact whenReady_wf _ s _ h fun hr => finishBatch_wf _ (runBatch_endsWf xs 0 s hw.1 hr)
  | setBandwidth bt =>
    cases he
    refine whenReady_wf _ s _ h fun hr => ?_
    split
    · rwa [State.wf_configError]
    next hbt => exact s.writeBandwidth_wf bt (by simpa using hbt) hr
  | setOutputRate ko =>
    cases he
    refine whenReady_wf _ s _ h fun hr => ?_
    split
    · rwa [State.wf_configError]
    next hko => exact s.writeOutputRate_clampDecim_wf ko (by simpa using hko) hr
  | setRate rate =>
    cases he
    refine whenReady_wf _ s _ h fun hr => ?_
    split
    · rwa [State.wf_configError]
    next hrate => exact s.writeRate_wf rate (by simpa using hrate) hr
  | lock | unlock | getTau =>
    cases he
    exact whenReady_wf _ s _ h fun _ => h
  | readReg idx =>
    cases he
    repeat' split
    all_goals exact h
  | reset =>
    cases he
    split
    · rwa [State.wf_reject]
    next hc => exact s.resetLoop_wf (s.installedWf_of_wf h (by simpa using hc))

/-- Settles O58: consuming words, waiting and rejecting an illegal frame leave the invariant's fields alone, and a
decoded command is well formed, so `exec_wf` covers it. -/
theorem stepKeepsInvariant : Obligations.StepKeepsInvariant := by
  unfold Obligations.StepKeepsInvariant
  intro s t h hs
  obtain ⟨i, n, hd, e⟩ | ⟨opc, n, e⟩ | e := step_cases s (legal_of_step_next s t hs)
  · rw [← s.wf_consume n] at h
    exact exec_wf i (s.consume n) t h (decode_wellFormed s.cfg s.input i n hd) (e.symm.trans hs)
  · cases e.symm.trans hs
    rwa [State.wf_reject, State.wf_consume]
  · cases e.symm.trans hs
    exact h

end Sys2Proof.Machine
end

section
/-! PROOFS. The byte transport beside the machine (20_memory.md R63, R64, log 17). -/

namespace Sys2Proof

/-- The bytes of a word are its four bit fields, least significant first (20_memory.md R63). -/
theorem bytesOfWord_eq_extractLsb' (w : Word) :
    bytesOfWord w = [w.extractLsb' 0 8, w.extractLsb' 8 8, w.extractLsb' 16 8, w.extractLsb' 24 8] := by
  have field (k : Nat) : BitVec.ofNat 8 (w.toNat / 2 ^ k) = w.extractLsb' k 8 :=
    BitVec.eq_of_toNat_eq (by simp [Nat.shiftRight_eq_div_pow])
  rw [← field 0, ← field 8, ← field 16, ← field 24, pow_zero, Nat.div_one]
  rfl

/-- Four bytes carry the word they were cut from (20_memory.md R63). -/
theorem wordOfBytes_bytesOfWord (w : Word) :
    wordOfBytes (BitVec.ofNat 8 w.toNat) (BitVec.ofNat 8 (w.toNat / 2 ^ 8)) (BitVec.ofNat 8 (w.toNat / 2 ^ 16))
      (BitVec.ofNat 8 (w.toNat / 2 ^ 24)) = w := by
  have := w.isLt
  apply BitVec.eq_of_toNat_eq
  simp only [wordOfBytes, BitVec.toNat_ofNat]
  omega

/-- Bytes that make up no whole word are left (20_memory.md R64). -/
theorem wordsOfBytes_of_short (left : List Byte) (h : left.length < 4) : wordsOfBytes left = ([], left) := by
  match left, h with
  | [], _ | [_], _ | [_, _], _ | [_, _, _], _ => rfl

/-- Reading takes a whole word off the front of the bytes. -/
theorem wordsOfBytes_bytesOfWord_append (w : Word) (bs : List Byte) :
    wordsOfBytes (bytesOfWord w ++ bs) = (w :: (wordsOfBytes bs).1, (wordsOfBytes bs).2) := by
  simp only [bytesOfWord, List.cons_append, List.nil_append, wordsOfBytes, wordOfBytes_bytesOfWord]

/-- Settles O6, the reading by induction on the words sent. -/
theorem byteTransportCarriesWords : Obligations.ByteTransportCarriesWords := by
  unfold Obligations.ByteTransportCarriesWords
  refine ⟨bytesOfWord_eq_extractLsb', fun ws left hl => ?_⟩
  induction ws with
  | nil => exact wordsOfBytes_of_short left hl
  | cons w ws ih => rw [List.flatMap_cons, List.append_assoc, wordsOfBytes_bytesOfWord_append, ih]

end Sys2Proof
end

section
/-! PROOFS. A command whose words have not all arrived (20_memory.md R64, 70_reset_and_hazards.md R251). -/

namespace Sys2Proof

/-- The first words of a command announce its length or, before the count word, none: never another length
(30_encoding.md R83). -/
theorem commandLength_take (c : Config) (h : Word) (ops : List Word) (m n : Nat) (hn : commandLength c h ops = some n) :
    commandLength c h (ops.take m) = none ∨ commandLength c h (ops.take m) = some n := by
  unfold commandLength at hn ⊢
  cases ho : Opcode.ofCode (headerOpc h) with
  | none => exact .inr (by rwa [ho] at hn)
  | some opc =>
    cases opc with
    | construct | execute =>
      simp only [ho] at hn
      simp only [List.getElem?_take]
      split
      · exact .inr hn
      · exact .inl rfl
    | _ => exact .inr (by rwa [ho] at hn)

/-- An encoded command with its last words missing is incomplete (20_memory.md R64). -/
theorem decode_take_encode (c : Config) (i : Instr) (m : Nat) (h : i.wellFormed c = true) (hm : m < (encode i).length) :
    decode c ((encode i).take m) = .incomplete := by
  obtain ⟨hd, ops, he, -, -, hlen⟩ := encode_length_announced i c [] h
  rw [List.append_nil] at hlen
  cases m with
  | zero => rfl
  | succ m =>
    have hshort : (ops.take m).length + 1 < (encode i).length := by
      rw [List.length_take]
      omega
    rw [he, List.take_succ_cons, decode]
    obtain e | e := commandLength_take c hd ops m _ hlen <;> simp only [e]
    rw [if_pos hshort]

end Sys2Proof

namespace Sys2Proof.Machine

/-- Settles O9: a command with words missing is incomplete, and with the words sent next the stream holds the whole encoding. -/
theorem truncatedCommandWaits : Obligations.TruncatedCommandWaits := by
  unfold Obligations.TruncatedCommandWaits
  intro s i m hl hw hm hin
  refine ⟨step_of_incomplete s hl (hin ▸ decode_take_encode s.cfg i m hw hm), ?_⟩
  have hwhole : (s.deliver ((encode i).drop m)).input = encode i ++ [] := by
    rw [State.deliver_input, hin, List.take_append_drop, List.append_nil]
  exact stepRunsEncodedCommand (s.deliver ((encode i).drop m)) i [] hl hw hwhole

end Sys2Proof.Machine
end

section
/-! PROOFS. Commands that may be repeated (20_memory.md R66). -/

namespace Sys2Proof.Machine

/-- A response is no part of the registers and memories (10_state.md R18). -/
theorem State.arch_answered (s : State) (ws : List Word) : (s.answered ws).arch = s.arch := rfl

/-- The first common check (43_configuration.md R179). -/
theorem whenReady_unconfigured (opc : Opcode) (s : State) (f : State → State) (hc : s.configured = false) :
    whenReady opc s f = s.reject opc.code .notConfigured := by simp [whenReady, hc]

/-- The second common check (43_configuration.md R179). -/
theorem whenReady_faulted (opc : Opcode) (s : State) (f : State → State) (hc : s.configured = true)
    (hf : s.faulted = true) : whenReady opc s f = s.reject opc.code .faulted := by simp [whenReady, hc, hf]

/-- Behind the common checks a command may be repeated if its meaning on a ready block keeps the block ready and may be
repeated: a rejection leaves what rejects it the next time (43_configuration.md R179). -/
theorem whenReady_arch_idem (opc : Opcode) (s : State) (f : State → State) (hc : (f s).configured = s.configured)
    (hf : (f s).faulted = s.faulted) (h : (f (f s)).arch = (f s).arch) :
    (whenReady opc (whenReady opc s f) f).arch = (whenReady opc s f).arch := by
  obtain ⟨hn, e⟩ | ⟨hn, hn', e⟩ | ⟨hn, hn', e⟩ := whenReady_cases opc s f
  · rw [e, whenReady_unconfigured opc (s.reject opc.code .notConfigured) f hn, State.reject_eq, State.arch_answered]
  · rw [e, whenReady_faulted opc (s.reject opc.code .faulted) f hn hn', State.reject_eq, State.arch_answered]
  · rwa [e, whenReady_ready opc (f s) f (hc.trans hn) (hf.trans hn')]

/-- A configuration command on a ready block: its operand check, then what it writes (43_configuration.md R180, R186,
R193). -/
def checkedWrite (opc : Opcode) (d : Detail) (accepts : Config → Bool) (write : State → State) (s : State) : State :=
  if accepts s.cfg = false then s.configError opc d else (write s).respond opc.code .ok []

/-- It may be repeated if what it writes may be written twice. -/
theorem whenReady_checkedWrite_arch_idem (opc : Opcode) (d : Detail) (accepts : Config → Bool) (write : State → State)
    (s : State) (hcfg : (write s).cfg = s.cfg) (hc : (write s).configured = s.configured)
    (hf : (write s).faulted = s.faulted) (hw : (write ((write s).respond opc.code .ok [])).arch = (write s).arch) :
    (whenReady opc (whenReady opc s (checkedWrite opc d accepts write)) (checkedWrite opc d accepts write)).arch =
      (whenReady opc s (checkedWrite opc d accepts write)).arch := by
  cases ha : accepts s.cfg with
  | false =>
    have e (t : State) (ht : t.cfg = s.cfg) : checkedWrite opc d accepts write t = t.configError opc d :=
      if_pos (ht ▸ ha)
    apply whenReady_arch_idem <;> rw [e s rfl]
    · rfl
    · rfl
    · rw [e (s.configError opc d) rfl, State.configError_eq, State.arch_answered]
  | true =>
    have e (t : State) (ht : t.cfg = s.cfg) :
        checkedWrite opc d accepts write t = (write t).respond opc.code .ok [] := if_neg (by simp [ht, ha])
    apply whenReady_arch_idem <;> rw [e s rfl]
    · exact hc
    · exact hf
    · rw [e ((write s).respond opc.code .ok []) hcfg, State.respond_eq, State.arch_answered, hw, State.respond_eq,
        State.arch_answered]

/-- The counter is lowered once (43_configuration.md R191). -/
theorem State.clampDecim_idem (s : State) (ko : Word) : (s.clampDecim ko).clampDecim ko = s.clampDecim ko := by
  have hle := s.clampDecim_le ko
  generalize s.clampDecim ko = t at hle
  rw [State.clampDecim, if_neg (not_lt.mpr hle)]

/-- RESET writes the same values over again (43_configuration.md R212). -/
theorem State.resetLoop_answered_arch (s : State) (ws : List Word) :
    (s.resetLoop.answered ws).resetLoop.arch = s.resetLoop.arch := by
  simp [State.arch]

/-- The six configuration commands, rejected or accepted, leave the same registers and memories twice as once
(20_memory.md R66). -/
theorem exec_arch_idem (i : Instr) (s : State)
    (h : i.opcode ∈ [Opcode.lock, .unlock, .setBandwidth, .setOutputRate, .setRate, .reset]) :
    ∃ t u, exec i s = .next t ∧ exec i t = .next u ∧ u.arch = t.arch := by
  cases i with
  | setBandwidth bt =>
    exact ⟨_, _, rfl, rfl, whenReady_checkedWrite_arch_idem .setBandwidth .btRange (fun _ => inUnitInterval bt)
      (·.writeBandwidth bt) s rfl rfl rfl rfl⟩
  | setOutputRate ko =>
    refine ⟨_, _, rfl, rfl, whenReady_checkedWrite_arch_idem .setOutputRate .kOutRange (kOutInRange · ko)
      (fun s => (s.writeOutputRate ko).clampDecim ko) s rfl rfl rfl ?_⟩
    show (((s.writeOutputRate ko).clampDecim ko).clampDecim ko).arch = ((s.writeOutputRate ko).clampDecim ko).arch
    rw [State.clampDecim_idem]
  | setRate rate =>
    exact ⟨_, _, rfl, rfl, whenReady_checkedWrite_arch_idem .setRate .rateRange (fun _ => rateInRange rate)
      (·.writeRate rate) s rfl rfl rfl rfl⟩
  | lock | unlock => exact ⟨_, _, rfl, rfl, whenReady_arch_idem _ s _ rfl rfl rfl⟩
  | reset =>
    refine ⟨_, _, rfl, rfl, ?_⟩
    cases hc : s.configured with
    | false => simp only [if_true, State.reject_eq, State.answered_configured, hc, State.arch_answered]
    | true =>
      simp only [Bool.true_eq_false, if_false, State.respond_eq, State.answered_configured,
        State.resetLoop_configured, hc, State.arch_answered, State.resetLoop_answered_arch]
  | construct | constructDesign | step | execute | getTau | readReg => simp [Instr.opcode] at h

/-- The two reads leave the registers and memories as they found them (43_configuration.md R204, R207). -/
theorem exec_arch_of_read (i : Instr) (s : State) (h : i.opcode ∈ [Opcode.getTau, .readReg]) :
    ∃ t, exec i s = .next t ∧ t.arch = s.arch := by
  cases i with
  | getTau =>
    refine ⟨_, rfl, ?_⟩
    obtain ⟨-, e⟩ | ⟨-, -, e⟩ | ⟨-, -, e⟩ :=
      whenReady_cases .getTau s fun s => s.respond Opcode.getTau.code .ok [s.tau]
    all_goals rw [e]; rfl
  | readReg idx =>
    refine ⟨_, rfl, ?_⟩
    repeat' split
    all_goals rfl
  | construct | constructDesign | step | execute | setBandwidth | setOutputRate | setRate | lock | unlock | reset =>
    simp [Instr.opcode] at h

/-- Settles O55: what a configuration command writes may be written twice, and a read writes nothing. -/
theorem configurationIsIdempotent : Obligations.ConfigurationIsIdempotent := by
  unfold Obligations.ConfigurationIsIdempotent
  exact fun i s => ⟨exec_arch_idem i s, exec_arch_of_read i s⟩

end Sys2Proof.Machine
end

section
/-! PROOFS. The response of a command (20_memory.md R70, 30_encoding.md R95, 60_exceptions.md R215, R216). -/

namespace Sys2Proof.Machine

/-! ## The header -/

theorem toNat_append_byte {n : Nat} (x : BitVec n) (b : Byte) : (x ++ b).toNat = x.toNat * 2 ^ 8 + b.toNat := by
  rw [BitVec.toNat_append, ← Nat.shiftLeft_add_eq_or_of_lt b.isLt, Nat.shiftLeft_eq]

/-- The response header by its four bytes (30_encoding.md R95). -/
theorem responseHeader_eq_append (opc : Byte) (st : Status) (d : Byte) :
    responseHeader opc st d = opc ++ statusCode st ++ d ++ (0 : Byte) := by
  apply BitVec.eq_of_toNat_eq
  simp only [responseHeader_toNat, toNat_append_byte, show (0 : Byte).toNat = 0 from rfl]
  omega

theorem statusCode_listed (st : Status) :
    (statusCode st).toNat ∈ [0x00, 0x01, 0x02, 0x03, 0x04, 0x05, 0x10, 0x11, 0x12] := by
  cases st <;> decide

theorem statusCode_eq_configError_iff (st : Status) : statusCode st = 0x01 ↔ st = .configError := by
  cases st <;> decide

theorem statusCode_eq_ok_iff (st : Status) : statusCode st = 0x00 ↔ st = .ok := by
  cases st <;> decide

/-- The DETAIL codes stand between 0x10 and 0x1A (60_exceptions.md R216). -/
theorem detailCode_range (d : Detail) : 0x10 ≤ (detailCode d).toNat ∧ (detailCode d).toNat ≤ 0x1A := by
  cases d <;> decide

/-! ## The payload -/

/-- A burst of fewer than 2^32 samples of SAMPLE_KIND is its count and its words (30_encoding.md R95). -/
theorem payloadFramed_burst (c : Config) (opc : Opcode) (st : Byte) (ys : List Num) (ho : opc = .step ∨ opc = .execute)
    (hk : numsOfKind c.sampleKind ys = true) (hl : ys.length < 2 ^ 32) : payloadFramed c opc st (burstPayload ys) := by
  have hn : (BitVec.ofNat 32 ys.length).toNat = ys.length := Nat.mod_eq_of_lt hl
  rw [payloadFramed, if_pos ho]
  exact ⟨_, _, rfl, by rw [flatMap_words_length _ _ hk, hn, Config.sampleWords]⟩

/-- The payload of a rejection is framed (60_exceptions.md R223). -/
theorem payloadFramed_reject (c : Config) (opc : Opcode) (st : Status) (h : st ≠ .ok) :
    payloadFramed c opc (statusCode st) (rejectPayload opc.code) := by
  have hs : statusCode st ≠ 0x00 := fun e => h ((statusCode_eq_ok_iff st).mp e)
  by_cases ho : opc = .step ∨ opc = .execute
  · have e : rejectPayload opc.code = [0] := by obtain rfl | rfl := ho <;> rfl
    rw [payloadFramed, if_pos ho, e]
    exact ⟨0, [], rfl, by simp⟩
  · have e : rejectPayload opc.code = [] := by revert ho; cases opc <;> decide
    rw [payloadFramed, if_neg ho, if_neg (fun hr => hs hr.2), e]

/-- A register read back is one word (43_configuration.md R204, R207). -/
theorem payloadFramed_read (c : Config) (opc : Opcode) (w : Word) (ho : opc = .getTau ∨ opc = .readReg) :
    payloadFramed c opc (statusCode .ok) [w] := by
  obtain rfl | rfl := ho <;> simp [payloadFramed, statusCode]

/-! ## Exactly one response -/

/-- From `s` to `t` exactly one framed response to the opcode was sent and no word was consumed (20_memory.md R70). -/
def State.answersOnce (s : State) (opc : Opcode) (t : State) : Prop :=
  ∃ ws, t.output = s.output ++ ws ∧ responseFramed s.cfg opc ws ∧ t.input = s.input ∧ t.pos = s.pos

/-- The streams and the command position are the same. -/
def State.sameStreams (s t : State) : Prop := t.input = s.input ∧ t.pos = s.pos ∧ t.output = s.output

theorem State.sameStreams_refl (s : State) : s.sameStreams s := ⟨rfl, rfl, rfl⟩

/-- A command that left the streams alone and then responds has answered once. -/
theorem State.answersOnce_respond (s t : State) (opc : Opcode) (st : Status) (payload : List Word) (h : s.sameStreams t)
    (hst : st ≠ .configError) (hp : payloadFramed s.cfg opc (statusCode st) payload) :
    s.answersOnce opc (t.respond opc.code st payload) := by
  obtain ⟨hi, hpos, ho⟩ := h
  refine ⟨responseHeader opc.code st 0 :: payload, congrArg (· ++ _) ho, ?_, hi, hpos⟩
  refine ⟨statusCode st, 0, payload, by rw [responseHeader_eq_append], statusCode_listed st, ?_, hp⟩
  rw [if_neg (mt (statusCode_eq_configError_iff st).mp hst)]

theorem State.answersOnce_reject (s : State) (opc : Opcode) (st : Status) (hst : st ≠ .configError) (hok : st ≠ .ok) :
    s.answersOnce opc (s.reject opc.code st) :=
  s.answersOnce_respond s opc st _ s.sameStreams_refl hst (payloadFramed_reject s.cfg opc st hok)

/-- A configuration error has no payload: neither STEP nor EXECUTE answers one (60_exceptions.md R222). -/
theorem State.answersOnce_configError (s : State) (opc : Opcode) (d : Detail) (ho : ¬ (opc = .step ∨ opc = .execute)) :
    s.answersOnce opc (s.configError opc d) := by
  refine ⟨_, rfl, ⟨statusCode .configError, detailCode d, [], by rw [responseHeader_eq_append],
    statusCode_listed _, ?_, ?_⟩, rfl, rfl⟩
  · rw [if_pos ((statusCode_eq_configError_iff _).mpr rfl)]
    exact detailCode_range d
  · rw [payloadFramed, if_neg ho, if_neg (fun hr => absurd hr.2 (by decide))]

/-- A command behind the common checks answers once if its meaning on a ready block does (43_configuration.md R179). -/
theorem whenReady_answersOnce (opc : Opcode) (s : State) (f : State → State)
    (h : s.configured = true → s.answersOnce opc (f s)) : s.answersOnce opc (whenReady opc s f) := by
  obtain ⟨-, e⟩ | ⟨-, -, e⟩ | ⟨hc, -, e⟩ := whenReady_cases opc s f <;> rw [e]
  · exact s.answersOnce_reject opc _ (by decide) (by decide)
  · exact s.answersOnce_reject opc _ (by decide) (by decide)
  · exact h hc

/-! ## The samples of a burst -/

/-- The taps of one branch lie within the prototype: NPFB · H_LEN ≤ L (10_state.md R23, 41_step.md R148). -/
theorem State.npfb_mul_hLen_le (s : State) (h : s.configWf = true) : s.npfb.toNat * s.hLen.toNat ≤ s.l.toNat := by
  simp only [State.configWf, Bool.and_eq_true, beq_iff_eq] at h
  obtain ⟨-, hh⟩ := h
  have hle : s.hLen.toNat ≤ (s.l.toNat - 1) / s.npfb.toNat := by
    rw [hh, branchLength, BitVec.toNat_ofNat]
    exact Nat.mod_le _ _
  calc s.npfb.toNat * s.hLen.toNat ≤ s.npfb.toNat * ((s.l.toNat - 1) / s.npfb.toNat) := Nat.mul_le_mul_left _ hle
    _ ≤ s.l.toNat - 1 := Nat.mul_div_le _ _
    _ ≤ s.l.toNat := Nat.sub_le _ _

/-- Where a sample is due the branch index is one of the NPFB branches (10_state.md R28, 41_step.md R141). -/
theorem State.branch_lt_npfb (s : State) (ht : loopTest s = .body) : s.branch < s.npfb.toNat := by
  obtain ⟨e, -⟩ | ⟨e, -⟩ | ⟨-, h0, h1⟩ := loopTest_cases s
  · cases e.symm.trans ht
  · cases e.symm.trans ht
  · rw [BitVec.toInt_eq_toNat_cond] at h0 h1
    rw [State.branch]
    omega

/-- A sample due has SAMPLE_KIND (41_step.md R142, R148). -/
theorem State.kind_outputSample (s : State) (h : s.installedWf) (ht : loopTest s = .body) :
    s.outputSample.kind = s.cfg.sampleKind := by
  obtain ⟨hlegal, -, hp⟩ := h
  obtain ⟨hcfg, -, -, hm, -⟩ := s.persistentWf_iff.mp hp
  have hkinds : s.cfg.coefKind = .complex → s.cfg.sampleKind = .complex := by
    simp only [Config.legal, Bool.and_eq_true, Bool.or_eq_true, beq_iff_eq] at hlegal
    obtain ⟨⟨⟨⟨⟨hk | hk, -⟩, -⟩, -⟩, -⟩, -⟩ := hlegal
    · simp [hk]
    · exact fun _ => hk
  simp only [State.memoriesWf, Bool.and_eq_true] at hm
  obtain ⟨⟨⟨hh, -⟩, hw⟩, -⟩ := hm
  rw [State.outputSample, kind_sdiv]
  exact kind_fbExecute s.cfg s.mf s.branch s.l.toNat hkinds hh hw (s.branch_lt_npfb ht) (s.npfb_mul_hLen_le hcfg)

/-- The samples a burst has emitted. -/
def Burst.samples : Burst → List Num
  | .completed _ ys => ys
  | .raised _ _ ys => ys

@[simp] theorem Burst.samples_emit (y : Num) (burst : Burst) : (burst.emit y).samples = y :: burst.samples := by
  cases burst <;> rfl

/-- Every sample of the output loop has SAMPLE_KIND (41_step.md R131). -/
theorem outputLoop_samples_kind (room : Nat) (s : State) (h : s.installedWf) :
    numsOfKind s.cfg.sampleKind (outputLoop room s).samples = true := by
  induction room generalizing s with
  | zero =>
    cases ht : loopTest s with
    | leave => rw [outputLoop_leave 0 s ht]; rfl
    | outOfRange => rw [outputLoop_outOfRange 0 s ht]; rfl
    | body => rw [outputLoop_full s ht]; rfl
  | succ room ih =>
    cases ht : loopTest s with
    | leave => rw [outputLoop_leave _ s ht]; rfl
    | outOfRange => rw [outputLoop_outOfRange _ s ht]; rfl
    | body =>
      have hy := s.kind_outputSample h ht
      cases hi : iterate s with
      | raised c s' =>
        rw [outputLoop_raised room s s' c ht hi]
        exact (numsOfKind_cons _ _ _).mpr ⟨hy, rfl⟩
      | again s' =>
        have hframe := (iterate_loopFrame s).1 s' hi
        have hcfg : s'.cfg = s.cfg := by rw [hframe]
        rw [outputLoop_again room s s' ht hi, Burst.samples_emit, numsOfKind_cons]
        exact ⟨hy, hcfg ▸ ih s' (s.installedWf_of_loopFrame s' hframe h)⟩

/-- A sample of SAMPLE_KIND pushed keeps what a construction installed (41_step.md R140). -/
theorem State.push_installedWf (s : State) (x : Num) (hx : x.kind = s.cfg.sampleKind) (h : s.installedWf) :
    (s.push x).installedWf := by
  obtain ⟨hl, hc, hi⟩ := h
  exact ⟨hl, hc, s.push_persistentWf x hx hi⟩

theorem stepCore_samples_kind (room : Nat) (s : State) (x : Num) (hx : x.kind = s.cfg.sampleKind) (h : s.installedWf) :
    numsOfKind s.cfg.sampleKind (stepCore room s x).samples = true :=
  outputLoop_samples_kind room (s.push x) (s.push_installedWf x hx h)

/-- The samples a batch has emitted. -/
def Batch.samples : Batch → List Num
  | .completed _ ys => ys
  | .nonfinite _ ys => ys
  | .raised _ _ ys => ys

@[simp] theorem Batch.samples_prepend (front : List Num) (batch : Batch) :
    (batch.prepend front).samples = front ++ batch.samples := by
  cases batch <;> rfl

theorem numsOfKind_append (kd : NumKind) (xs ys : List Num) :
    numsOfKind kd (xs ++ ys) = true ↔ numsOfKind kd xs = true ∧ numsOfKind kd ys = true := by simp [numsOfKind]

/-- Every sample of an EXECUTE has SAMPLE_KIND, and there are fewer than 2^32 in all (41_step.md R150). -/
theorem runBatch_samples (xs : List Num) (total : Nat) (s : State) (hxs : numsOfKind s.cfg.sampleKind xs = true)
    (h : s.installedWf) (ht : total < 2 ^ 32) :
    numsOfKind s.cfg.sampleKind (runBatch xs total s).samples = true ∧
      total + (runBatch xs total s).samples.length < 2 ^ 32 := by
  induction xs generalizing total s with
  | nil => exact ⟨rfl, ht⟩
  | cons x xs ih =>
    obtain ⟨hx, hxs⟩ := (numsOfKind_cons _ x xs).mp hxs
    have hk := stepCore_samples_kind (roomFor s.cfg total) s x hx h
    have hroom : roomFor s.cfg total ≤ 2 ^ 32 - 1 - total := Nat.min_le_right _ _
    unfold runBatch
    split
    · exact ⟨rfl, ht⟩
    · obtain ⟨t, ys, e, hf, hy⟩ | ⟨c, t, ys, e, -, hy⟩ := stepCore_frame (roomFor s.cfg total) s x
      · have hcfg : t.cfg = s.cfg := by rw [hf]; rfl
        have hinst := (s.push x).installedWf_of_loopFrame t hf (s.push_installedWf x hx h)
        obtain ⟨hk', hl'⟩ := ih (total + ys.length) t (hcfg ▸ hxs) hinst (by omega)
        rw [e] at hk
        simp only [e, Batch.samples_prepend, List.length_append]
        exact ⟨(numsOfKind_append _ _ _).mpr ⟨hk, hcfg ▸ hk'⟩, by omega⟩
      · rw [e] at hk
        simp only [e, Batch.samples]
        exact ⟨hk, by omega⟩

/-! ## STEP and EXECUTE -/

theorem faultStatus_ne_configError (c : FaultCause) : faultStatus c ≠ .configError := by cases c <;> decide

/-- A STEP on a configured block answers its burst in one response (41_step.md R130, 60_exceptions.md R226). -/
theorem finishStep_stepCore_answersOnce (s : State) (x : Num) (hx : x.kind = s.cfg.sampleKind) (h : s.installedWf) :
    s.answersOnce .step (finishStep (stepCore s.cfg.maxBurst s x)) := by
  have hk := stepCore_samples_kind s.cfg.maxBurst s x hx h
  have hmax : s.cfg.maxBurst ≤ 2 ^ 31 - 1 := by
    obtain ⟨hl, -⟩ := h
    simp only [Config.legal, Bool.and_eq_true, decide_eq_true_eq] at hl
    omega
  obtain ⟨t, ys, e, ht, hy⟩ | ⟨c, t, ys, e, ht, hy⟩ := stepCore_frame s.cfg.maxBurst s x <;> rw [e] at hk ⊢
  · have hs : s.sameStreams t := by rw [ht]; exact s.sameStreams_refl
    exact s.answersOnce_respond t .step .ok _ hs (by decide) (payloadFramed_burst _ _ _ ys (.inl rfl) hk (by omega))
  · have hs : s.sameStreams (t.enterFault c) := by rw [ht]; exact s.sameStreams_refl
    exact s.answersOnce_respond _ .step _ _ hs (faultStatus_ne_configError c)
      (payloadFramed_burst _ _ _ ys (.inl rfl) hk (by omega))

theorem State.sameStreams_of_batchFrame (s t : State) (h : s.batchFrame t) : s.sameStreams t := by
  rw [h]
  exact s.sameStreams_refl

/-- An EXECUTE on a configured block answers all its samples in one response (41_step.md R150, 60_exceptions.md R224). -/
theorem finishBatch_runBatch_answersOnce (s : State) (xs : List Num) (hxs : numsOfKind s.cfg.sampleKind xs = true)
    (h : s.installedWf) : s.answersOnce .execute (finishBatch (runBatch xs 0 s)) := by
  obtain ⟨hk, hl⟩ := runBatch_samples xs 0 s hxs h (by norm_num)
  rw [zero_add] at hl
  have hs := s.sameStreams_of_batchFrame _ (runBatch_frame xs 0 s)
  have hp (st : Byte) := payloadFramed_burst s.cfg .execute st _ (.inr rfl) hk hl
  cases e : runBatch xs 0 s <;> rw [e] at hs hp
  case completed t ys => exact s.answersOnce_respond t .execute .ok _ hs (by decide) (hp _)
  case nonfinite t ys => exact s.answersOnce_respond t .execute .inputNonfinite _ hs (by decide) (hp _)
  case raised c t ys =>
    exact s.answersOnce_respond (t.enterFault c) .execute _ _ hs (faultStatus_ne_configError c) (hp _)

/-! ## Every command -/

/-- An OK without a payload, as the constructions and the configuration commands send it (30_encoding.md R95). -/
theorem State.answersOnce_ok (s t : State) (opc : Opcode) (h : s.sameStreams t)
    (ho : opc ∉ [Opcode.step, .execute, .getTau, .readReg]) : s.answersOnce opc (t.respond opc.code .ok []) := by
  refine s.answersOnce_respond t opc .ok [] h (by decide) ?_
  simp only [List.mem_cons, List.not_mem_nil, or_false, not_or] at ho
  simp [payloadFramed, ho]

theorem State.sameStreams_install (s : State) (k npfb l : Word) (c : List Num) :
    s.sameStreams (s.install k npfb l c) := by
  simp [State.sameStreams]

theorem State.sameStreams_resetLoop (s : State) : s.sameStreams s.resetLoop := by
  simp [State.sameStreams]

/-- Every well-formed command answers one framed response. -/
theorem exec_answersOnce (i : Instr) (s t : State) (h : s.wf = true) (hw : i.wellFormed s.cfg = true)
    (he : exec i s = .next t) : s.answersOnce i.opcode t := by
  cases i with
  | construct k npfb l coefs =>
    obtain ⟨d, e⟩ | e := execConstruct_cases k npfb l coefs s <;> cases e.symm.trans he
    · exact s.answersOnce_configError .construct d (by decide)
    · exact s.answersOnce_ok _ .construct (s.sameStreams_install k npfb l coefs) (by decide)
  | constructDesign ftype k m ebw npfb =>
    obtain ⟨d, e⟩ | ⟨l, c, e⟩ := execConstructDesign_cases ftype k m ebw npfb s <;> cases e.symm.trans he
    · exact s.answersOnce_configError .constructDesign d (by decide)
    · exact s.answersOnce_ok _ .constructDesign (s.sameStreams_install k npfb l c) (by decide)
  | step x =>
    cases he
    refine whenReady_answersOnce _ s _ fun hc => ?_
    split
    · exact s.answersOnce_reject .step _ (by decide) (by decide)
    · exact finishStep_stepCore_answersOnce s x (by simpa [Instr.wellFormed] using hw) (s.installedWf_of_wf h hc)
  | execute xs =>
    cases he
    simp only [Instr.wellFormed, Bool.and_eq_true] at hw
    exact whenReady_answersOnce _ s _ fun hc => finishBatch_runBatch_answersOnce s xs hw.1 (s.installedWf_of_wf h hc)
  | setBandwidth _ | setOutputRate _ | setRate _ =>
    cases he
    refine whenReady_answersOnce _ s _ fun _ => ?_
    split
    · exact s.answersOnce_configError _ _ (by simp [Instr.opcode])
    · exact s.answersOnce_ok _ _ ⟨rfl, rfl, rfl⟩ (by simp [Instr.opcode])
  | lock | unlock =>
    cases he
    exact whenReady_answersOnce _ s _ fun _ => s.answersOnce_ok _ _ ⟨rfl, rfl, rfl⟩ (by simp [Instr.opcode])
  | getTau =>
    cases he
    exact whenReady_answersOnce _ s _ fun _ =>
      s.answersOnce_respond s .getTau .ok _ s.sameStreams_refl (by decide) (payloadFramed_read _ _ _ (.inl rfl))
  | readReg idx =>
    cases he
    repeat' split
    · exact s.answersOnce_reject .readReg _ (by decide) (by decide)
    · exact s.answersOnce_reject .readReg _ (by decide) (by decide)
    · exact s.answersOnce_respond s .readReg .ok _ s.sameStreams_refl (by decide) (payloadFramed_read _ _ _ (.inr rfl))
  | reset =>
    cases he
    split
    · exact s.answersOnce_reject .reset _ (by decide) (by decide)
    · exact s.answersOnce_ok _ .reset s.sameStreams_resetLoop (by decide)

/-- Settles O11: `exec_answersOnce` on the next state that every command has. -/
theorem everyCommandAnswersOnce : Obligations.EveryCommandAnswersOnce := by
  unfold Obligations.EveryCommandAnswersOnce
  intro i s h hw
  obtain ⟨t, he⟩ := exec_next i s
  obtain ⟨ws, hout, hframed, hin, hpos⟩ := exec_answersOnce i s t h hw he
  exact ⟨t, ws, he, hout, hframed, hin, hpos⟩

end Sys2Proof.Machine
end

section
/-! PROOFS. The encoding against the decoder (30_encoding.md R80 to R86): the header's fields, whole frames, and lengths. -/

namespace Sys2Proof

/-! ## The fields of a header -/

@[simp] theorem headerOpc_toNat (h : Word) : (headerOpc h).toNat = h.toNat / 2 ^ 24 := by
  have := h.isLt
  simp only [headerOpc, BitVec.toNat_ofNat]
  omega

@[simp] theorem headerSub_toNat (h : Word) : (headerSub h).toNat = h.toNat / 2 ^ 16 % 2 ^ 8 := by
  simp only [headerSub, BitVec.toNat_ofNat]

@[simp] theorem headerRsv_toNat (h : Word) : (headerRsv h).toNat = h.toNat % 2 ^ 16 := by
  simp only [headerRsv, BitVec.toNat_ofNat]

theorem Opcode.code_inj (a b : Opcode) : a.code = b.code ↔ a = b :=
  ⟨fun h => Option.some.inj (by rw [← Opcode.ofCode_code a, h, Opcode.ofCode_code]), congrArg Opcode.code⟩

/-- A byte outside the opcode table names no command (30_encoding.md R84). -/
theorem Opcode.ofCode_eq_none (b : Byte)
    (h : b.toNat ∉ [0x01, 0x02, 0x10, 0x11, 0x20, 0x21, 0x22, 0x30, 0x31, 0x40, 0x41, 0x50]) : Opcode.ofCode b = none := by
  cases hb : Opcode.ofCode b with
  | none => rfl
  | some opc =>
    rw [← Opcode.code_of_ofCode b opc hb] at h
    exact absurd (by cases opc <;> decide) h

/-- The opcode of a header from its bits 31:24 (30_encoding.md R80, R84). -/
theorem headerOpc_eq_code (h : Word) (opc : Opcode) (ho : h.toNat / 2 ^ 24 = opc.code.toNat) : headerOpc h = opc.code :=
  BitVec.eq_of_toNat_eq (by rw [headerOpc_toNat, ho])

theorem ofCode_headerOpc (h : Word) (opc : Opcode) (ho : h.toNat / 2 ^ 24 = opc.code.toNat) :
    Opcode.ofCode (headerOpc h) = some opc := by
  rw [headerOpc_eq_code h opc ho, Opcode.ofCode_code]

/-- The reserved bits of a header under an opcode: RSV, and SUB outside READ_REG, are to be zero (30_encoding.md R85). -/
def reservedBitsSet (h : Word) (opc : Opcode) : Prop := headerRsv h ≠ 0 ∨ (headerSub h ≠ 0 ∧ opc ≠ .readReg)

theorem reservedBitsSet_iff (h : Word) (opc : Opcode) :
    reservedBitsSet h opc ↔ h.toNat % 2 ^ 16 ≠ 0 ∨ (h.toNat / 2 ^ 16 % 2 ^ 8 ≠ 0 ∧ opc ≠ .readReg) := by
  simp [reservedBitsSet, ← BitVec.toNat_inj]

/-- A header without reserved bits is the one the encoder writes (30_encoding.md R80, R96). -/
theorem header_of_not_reservedBitsSet (h : Word) (opc : Opcode) (ho : headerOpc h = opc.code)
    (hr : ¬ reservedBitsSet h opc) : header opc (headerSub h) = h ∧ (opc ≠ .readReg → headerSub h = 0) := by
  simp only [reservedBitsSet, not_or, not_and, not_not] at hr
  obtain ⟨hrsv, hsub⟩ := hr
  refine ⟨header_of_fields h opc ho hrsv, fun hopc => ?_⟩
  by_contra hne
  exact hopc (hsub hne)

/-! ## Frames -/

/-- What the decoder does with a header: it waits for the words of its frame, then decodes the frame (30_encoding.md R83,
R86). -/
theorem decode_cons (c : Config) (h : Word) (ops : List Word) :
    decode c (h :: ops) = .incomplete ∨
      ∃ n, commandLength c h ops = some n ∧ n ≤ ops.length + 1 ∧ decode c (h :: ops) = decodeFrame c h ops n := by
  simp only [decode]
  cases commandLength c h ops with
  | none => exact .inl rfl
  | some n =>
    by_cases hn : ops.length + 1 < n
    · exact .inl (if_pos hn)
    · exact .inr ⟨n, rfl, by omega, if_neg hn⟩

theorem decode_of_whole_frame (c : Config) (h : Word) (ops : List Word) (n : Nat) (hl : commandLength c h ops = some n)
    (hn : n ≤ ops.length + 1) : decode c (h :: ops) = decodeFrame c h ops n := by
  simp only [decode, hl, if_neg (Nat.not_lt.mpr hn)]

/-- An unknown opcode takes its header alone (30_encoding.md R83, R85). -/
theorem decode_of_unknown_opcode (c : Config) (h : Word) (ops : List Word) (ho : Opcode.ofCode (headerOpc h) = none) :
    decode c (h :: ops) = .illegal .unknownOpcode (headerOpc h) 1 := by
  rw [decode_of_whole_frame c h ops 1 (by simp [commandLength, ho]) (by omega)]
  simp only [decodeFrame, ho]

/-- A frame with reserved bits set is illegal whatever its payload (30_encoding.md R85). -/
theorem decodeFrame_of_reservedBitsSet (c : Config) (h : Word) (ops : List Word) (n : Nat) (opc : Opcode)
    (ho : Opcode.ofCode (headerOpc h) = some opc) (hr : reservedBitsSet h opc) :
    ∃ why, decodeFrame c h ops n = .illegal why (headerOpc h) n := by
  simp only [decodeFrame, ho]
  by_cases hrsv : headerRsv h = 0
  · have hsub := hr.resolve_left (not_not_intro hrsv)
    exact ⟨.nonzeroSub, by rw [if_neg (not_not_intro hrsv), if_pos hsub]⟩
  · exact ⟨.nonzeroReserved, if_pos hrsv⟩

/-- A frame without reserved bits is the command its operands make (30_encoding.md R81, R82). -/
theorem decodeFrame_of_operands (c : Config) (h : Word) (ops : List Word) (n : Nat) (opc : Opcode) (i : Instr)
    (ho : Opcode.ofCode (headerOpc h) = some opc) (hr : ¬ reservedBitsSet h opc)
    (hi : decodeOperands c opc (headerSub h) ops = some i) : decodeFrame c h ops n = .command i n := by
  obtain ⟨hrsv, hsub⟩ := not_or.mp hr
  simp only [decodeFrame, ho, hi, if_neg hrsv, if_neg hsub]

/-- A decoded command's header has no reserved bit set (30_encoding.md R85). -/
theorem not_reservedBitsSet_of_decode (c : Config) (h : Word) (ops : List Word) (opc : Opcode) (i : Instr) (n : Nat)
    (ho : Opcode.ofCode (headerOpc h) = some opc) (hd : decode c (h :: ops) = .command i n) : ¬ reservedBitsSet h opc := by
  intro hr
  obtain e | ⟨m, -, -, e⟩ := decode_cons c h ops
  · cases e.symm.trans hd
  · obtain ⟨why, hw⟩ := decodeFrame_of_reservedBitsSet c h ops m opc ho hr
    cases (e.trans hw).symm.trans hd

/-! ## The operands of a frame -/

/-- The operands read under an opcode make a command with that opcode, whose encoding they are: the header with the SUB
field they were read with, then the words they came from (30_encoding.md R81, R82). -/
theorem decodeOperands_eq_some (c : Config) (opc : Opcode) (sub : Byte) (ops : List Word) (i : Instr)
    (h : decodeOperands c opc sub ops = some i) :
    i.opcode = opc ∧ ((opc ≠ .readReg → sub = 0) → ∃ rest, header opc sub :: ops = encode i ++ rest) := by
  unfold decodeOperands at h
  split at h
  case h_1 k npfb l rest =>
    obtain ⟨coefs, hc, rfl⟩ := Option.map_eq_some_iff.mp h
    obtain ⟨-, -, rest', rfl⟩ := takeNums_eq _ _ _ _ hc
    exact ⟨rfl, fun hs => ⟨rest', by rw [hs (by decide)]; rfl⟩⟩
  case h_3 =>
    obtain ⟨⟨x, rest⟩, hx, rfl⟩ := Option.map_eq_some_iff.mp h
    obtain ⟨-, rfl⟩ := takeNum_eq _ _ _ _ hx
    exact ⟨rfl, fun hs => ⟨rest, by rw [hs (by decide)]; rfl⟩⟩
  case h_4 n rest =>
    obtain ⟨xs, hx, rfl⟩ := Option.map_eq_some_iff.mp h
    obtain ⟨hl, -, rest', rfl⟩ := takeNums_eq _ _ _ _ hx
    exact ⟨rfl, fun hs => ⟨rest', by rw [hs (by decide), encode, hl, BitVec.ofNat_toNat, BitVec.setWidth_eq]; rfl⟩⟩
  case h_11 => cases h; exact ⟨rfl, fun _ => ⟨ops, rfl⟩⟩
  case h_13 => cases h
  all_goals cases h; exact ⟨rfl, fun hs => ⟨_, by rw [hs (by decide)]; rfl⟩⟩

/-- A whole frame holds the operands of its opcode (30_encoding.md R83). -/
theorem decodeOperands_of_whole_frame (c : Config) (h : Word) (opc : Opcode) (ops : List Word) (n : Nat)
    (ho : Opcode.ofCode (headerOpc h) = some opc) (hl : commandLength c h ops = some n) (hn : n ≤ ops.length + 1) :
    ∃ i, decodeOperands c opc (headerSub h) ops = some i := by
  unfold commandLength at hl
  rw [ho] at hl
  cases opc with
  | construct =>
    match ops with
    | [] | [_] | [_, _] => cases hl
    | k :: npfb :: l :: rest =>
      cases hl
      obtain ⟨coefs, hc⟩ := takeNums_isSome c.coefKind (c.coefCount l) rest
        (by simp [Config.coefWords] at hn; omega)
      exact ⟨_, by rw [decodeOperands, hc]; rfl⟩
  | constructDesign =>
    cases hl
    match ops with
    | [] | [_] | [_, _] | [_, _, _] | [_, _, _, _] => simp at hn
    | _ :: _ :: _ :: _ :: _ :: _ => exact ⟨_, rfl⟩
  | step =>
    cases hl
    obtain ⟨xs, hx⟩ := takeNums_isSome c.sampleKind 1 ops (by simp [Config.sampleWords] at hn; omega)
    cases hp : takeNum c.sampleKind ops with
    | none => simp [takeNums, hp] at hx
    | some p => exact ⟨.step p.1, by rw [decodeOperands, hp]; rfl⟩
  | execute =>
    match ops with
    | [] => cases hl
    | m :: rest =>
      cases hl
      obtain ⟨xs, hx⟩ := takeNums_isSome c.sampleKind m.toNat rest (by simp [Config.sampleWords] at hn; omega)
      exact ⟨_, by rw [decodeOperands, hx]; rfl⟩
  | setBandwidth | setOutputRate | setRate =>
    cases hl
    match ops with
    | [] => simp at hn
    | _ :: _ => exact ⟨_, rfl⟩
  | lock | unlock | getTau | readReg | reset => exact ⟨_, rfl⟩

/-- A whole frame without reserved bits is a command of its opcode (30_encoding.md R85). -/
theorem decode_of_legal_frame (c : Config) (h : Word) (ops : List Word) (opc : Opcode) (n : Nat)
    (ho : Opcode.ofCode (headerOpc h) = some opc) (hl : commandLength c h ops = some n) (hn : n ≤ ops.length + 1)
    (hr : ¬ reservedBitsSet h opc) :
    ∃ i, decode c (h :: ops) = .command i n ∧ decodeOperands c opc (headerSub h) ops = some i := by
  obtain ⟨i, hi⟩ := decodeOperands_of_whole_frame c h opc ops n ho hl hn
  exact ⟨i, by rw [decode_of_whole_frame c h ops n hl hn, decodeFrame_of_operands c h ops n opc i ho hr hi], hi⟩

/-- What a command was decoded from starts with its encoding (30_encoding.md R80, R81). -/
theorem eq_encode_append_of_decode (c : Config) (ws : List Word) (i : Instr) (n : Nat) (h : decode c ws = .command i n) :
    ∃ rest, ws = encode i ++ rest := by
  obtain ⟨hd, ops, opc, rfl, ho, hi⟩ := decode_command c ws i n h
  obtain ⟨heq, hsub⟩ := header_of_not_reservedBitsSet hd opc (Opcode.code_of_ofCode _ opc ho).symm
    (not_reservedBitsSet_of_decode c hd ops opc i n ho h)
  obtain ⟨rest, hrest⟩ := (decodeOperands_eq_some c opc _ ops i hi).2 hsub
  exact ⟨rest, by rw [← hrest, heq]⟩

/-- A command decodes from the words of its encoding alone. -/
theorem decode_of_encode_eq (c : Config) (i : Instr) (ws : List Word) (hw : i.wellFormed c = true) (he : encode i = ws) :
    decode c ws = .command i ws.length := by
  have h := decode_encode_append c i [] hw
  rwa [List.append_nil, he] at h

/-! ## The statements about the decoder -/

/-- Settles O1: the length announced by the header reaches the end of the encoding, and its operands read back. -/
theorem decodeEncodeWellFormed : Obligations.DecodeEncodeWellFormed := by
  unfold Obligations.DecodeEncodeWellFormed
  exact decode_encode_append

/-- Settles O2: the words start with the encoding, so by the round trip the length is the encoding's. -/
theorem decodedCommandIsItsEncoding : Obligations.DecodedCommandIsItsEncoding := by
  unfold Obligations.DecodedCommandIsItsEncoding
  intro c ws i n h
  have hw := decode_wellFormed c ws i n h
  obtain ⟨rest, rfl⟩ := eq_encode_append_of_decode c ws i n h
  obtain ⟨-, rfl⟩ := Decoded.command.inj ((decode_encode_append c i rest hw).symm.trans h)
  exact ⟨hw, rfl, by rw [List.drop_left]⟩

/-- Settles O4: the opcode byte picks the row of the length table. -/
theorem commandLengths : Obligations.CommandLengths := by
  unfold Obligations.CommandLengths
  intro c h ops
  refine ⟨fun ho k npfb l rest hops => ?_, fun ho => ?_, fun ho => ?_, fun ho n rest hops => ?_, fun ho => ?_, fun ho => ?_,
    fun ho => ?_⟩
  · subst hops
    by_cases hl : l.toNat ≤ c.lMax <;>
      simp [commandLength, ofCode_headerOpc h .construct ho, Config.coefCount, Config.coefWords, hl]
  · simp [commandLength, ofCode_headerOpc h .constructDesign ho]
  · simp [commandLength, ofCode_headerOpc h .step ho, Config.sampleWords]
  · simp [commandLength, ofCode_headerOpc h .execute ho, Config.sampleWords, hops]
  · simp only [List.mem_cons, List.not_mem_nil, or_false] at ho
    obtain ho | ho | ho := ho
    · simp [commandLength, ofCode_headerOpc h .setBandwidth ho]
    · simp [commandLength, ofCode_headerOpc h .setOutputRate ho]
    · simp [commandLength, ofCode_headerOpc h .setRate ho]
  · simp only [List.mem_cons, List.not_mem_nil, or_false] at ho
    obtain ho | ho | ho | ho | ho := ho
    · simp [commandLength, ofCode_headerOpc h .lock ho]
    · simp [commandLength, ofCode_headerOpc h .unlock ho]
    · simp [commandLength, ofCode_headerOpc h .getTau ho]
    · simp [commandLength, ofCode_headerOpc h .readReg ho]
    · simp [commandLength, ofCode_headerOpc h .reset ho]
  · simp [commandLength, Opcode.ofCode_eq_none (headerOpc h) (by rwa [headerOpc_toNat])]

/-- Settles O5: each example is the encoding of its command. -/
theorem sampleWordsDecode : Obligations.SampleWordsDecode := by
  unfold Obligations.SampleWordsDecode
  exact ⟨decode_of_encode_eq _ (.step (.complex 0x3F800000 0xBF000000)) _ rfl rfl,
    decode_of_encode_eq _ (.setBandwidth 0x3CA3D70A) _ rfl rfl,
    decode_of_encode_eq _ (.readReg 0x03) _ rfl rfl,
    decode_of_encode_eq _ (.constructDesign 1 2 3 0x3EB33333 0x20) _ rfl rfl⟩

end Sys2Proof
end

section
/-! PROOFS. Illegal encodings: consumed at their length, rejected with no other change (30_encoding.md R85,
60_exceptions.md R220). -/

namespace Sys2Proof.Machine

/-- An illegal encoding is consumed at its length and rejected (30_encoding.md R85). -/
theorem step_of_illegal (s : State) (why : Illegal) (opc : Byte) (n : Nat) (hl : s.cfg.legal = true)
    (h : decode s.cfg s.input = .illegal why opc n) : step s = .next ((s.consume n).reject opc .illegalCommand) := by
  simp [step, hl, h]

theorem toNat_append_eq_add {n m : Nat} (x : BitVec n) (y : BitVec m) : (x ++ y).toNat = x.toNat * 2 ^ m + y.toNat := by
  rw [BitVec.toNat_append, ← Nat.shiftLeft_add_eq_or_of_lt y.isLt, Nat.shiftLeft_eq]

theorem headerOpc_append (h : Word) : headerOpc h ++ h.setWidth 24 = h := by
  apply BitVec.eq_of_toNat_eq
  rw [toNat_append_eq_add, headerOpc_toNat, BitVec.toNat_setWidth]
  omega

/-- The header of the rejection is the received OPC over status 0x02 (30_encoding.md R95, 60_exceptions.md R215). -/
theorem responseHeader_illegal (h : Word) :
    responseHeader (headerOpc h) .illegalCommand 0 = (h &&& 0xFF000000#32) ||| 0x00020000#32 := by
  have hmask : (h &&& 0xFF000000#32) ||| 0x00020000#32 = headerOpc h ++ 0x020000#24 := by
    conv_lhs => rw [← headerOpc_append h]
    rw [show 0xFF000000#32 = BitVec.allOnes 8 ++ 0#24 from rfl, show 0x00020000#32 = 0#8 ++ 0x020000#24 from rfl,
      BitVec.and_append, BitVec.or_append, BitVec.and_allOnes, BitVec.or_zero, BitVec.and_zero, BitVec.zero_or]
  apply BitVec.eq_of_toNat_eq
  rw [hmask, responseHeader_toNat, toNat_append_eq_add]
  simp [statusCode]

theorem rejectPayload_code (opc : Opcode) :
    rejectPayload opc.code = if opc = .step ∨ opc = .execute then [0] else [] := by
  simp only [rejectPayload, Opcode.code_inj]

/-- An opcode byte that names no command is rejected without payload (30_encoding.md R95). -/
theorem rejectPayload_unknown (b : Byte) (h : Opcode.ofCode b = none) : rejectPayload b = [] := by
  refine if_neg ?_
  rintro (rfl | rfl) <;> simp at h

/-- An index past the register map is reserved (43_configuration.md R210). -/
theorem regWord_reserved (s : State) (idx : Byte) (h : 0x14 ≤ idx.toNat) : regWord s idx = none := by
  unfold regWord
  split
  case h_21 => rfl
  all_goals omega

/-- READ_REG of a reserved index is rejected (43_configuration.md R207). -/
theorem exec_readReg_reserved (s : State) (idx : Byte) (h : 0x14 ≤ idx.toNat) :
    exec (.readReg idx) s = .next (s.reject Opcode.readReg.code .illegalCommand) := by
  simp only [exec, execReadReg, regWord_reserved s idx h]

/-- Settles O3, by the header: an unknown opcode, reserved bits under a listed one, or a command. -/
theorem illegalEncodingsRejected : Obligations.IllegalEncodingsRejected := by
  unfold Obligations.IllegalEncodingsRejected
  intro s h ops hlegal hin
  refine ⟨fun hu => ?unknown, fun opc n hopc hl hn => ?listed⟩
  case unknown =>
    have ho := Opcode.ofCode_eq_none (headerOpc h) (by rwa [headerOpc_toNat])
    rw [step_of_illegal s _ _ _ hlegal (hin ▸ decode_of_unknown_opcode s.cfg h ops ho), State.reject_eq,
      responseHeader_illegal, rejectPayload_unknown _ ho, State.consume, hin]
    rfl
  case listed =>
    have ho := ofCode_headerOpc h opc hopc.symm
    split
    next hr =>
      obtain ⟨why, hw⟩ := decodeFrame_of_reservedBitsSet s.cfg h ops n opc ho ((reservedBitsSet_iff h opc).mpr hr)
      have hd : decode s.cfg s.input = .illegal why (headerOpc h) n := by
        rw [hin, decode_of_whole_frame s.cfg h ops n hl hn, hw]
      rw [step_of_illegal s _ _ _ hlegal hd, State.reject_eq, responseHeader_illegal, headerOpc_eq_code h opc hopc.symm,
        rejectPayload_code]
      rfl
    next hr =>
      obtain ⟨i, hd, hi⟩ := decode_of_legal_frame s.cfg h ops opc n ho hl hn (mt (reservedBitsSet_iff h opc).mp hr)
      rw [← hin] at hd
      refine ⟨⟨i, hd, (decodeOperands_eq_some s.cfg opc _ ops i hi).1⟩, ?_⟩
      rintro rfl hidx
      cases hi
      obtain rfl : 1 = n := by simpa [commandLength, ho] using hl
      rw [step_of_command s _ _ hlegal hd, exec_readReg_reserved _ _ (by rwa [headerSub_toNat]), State.consume, hin]
      rfl

end Sys2Proof.Machine
end

section
/-! PROOFS. The two constructions: which operands they accept, what an accepted one writes and which check a rejected one
reports (40_construction.md R110 to R121, 60_exceptions.md R221). -/

namespace Sys2Proof.Machine

/-! ## The operand checks -/

theorem kInRange_iff (c : Config) (k : Word) : kInRange c k = true ↔ 2 ≤ k.toNat ∧ k.toNat ≤ c.kMax := by
  simp [kInRange]

theorem kInRange_eq_false_iff (c : Config) (k : Word) : kInRange c k = false ↔ k.toNat < 2 ∨ c.kMax < k.toNat := by
  rw [← Bool.not_eq_true, kInRange_iff]
  omega

theorem npfbInRange_iff (c : Config) (npfb : Word) :
    npfbInRange c npfb = true ↔ 1 ≤ npfb.toNat ∧ npfb.toNat ≤ c.npfbMax := by simp [npfbInRange]

theorem npfbInRange_eq_false_iff (c : Config) (npfb : Word) :
    npfbInRange c npfb = false ↔ npfb.toNat = 0 ∨ c.npfbMax < npfb.toNat := by
  rw [← Bool.not_eq_true, npfbInRange_iff]
  omega

/-- The interval check compares values and fails on NaN (60_exceptions.md R216). -/
theorem inUnitInterval_iff (v : Word) :
    inUnitInterval v = true ↔ isnan v = false ∧ 0 ≤ fscaled v ∧ fscaled v ≤ 2 ^ 149 := by
  have hzero : isnan posZero = false ∧ fscaled posZero = 0 := by decide
  have hone : isnan fone = false ∧ fscaled fone = 2 ^ 149 := by decide
  rw [inUnitInterval, Bool.and_eq_true, fle_iff, fle_iff, hzero.1, hzero.2, hone.1, hone.2]
  tauto

theorem inUnitInterval_eq_false_iff (v : Word) :
    inUnitInterval v = false ↔ isnan v = true ∨ fscaled v < 0 ∨ 2 ^ 149 < fscaled v := by
  rw [← Bool.not_eq_true, inUnitInterval_iff, ← Bool.not_eq_true]
  simp only [not_and_or, not_not, not_le]

theorem word_eq_zero_iff (w : Word) : w = 0 ↔ w.toNat = 0 := by simp [← BitVec.toNat_inj]

theorem all_numFinite_eq_false_iff (coefs : List Num) :
    coefs.all numFinite = false ↔ ∃ c ∈ coefs, numFinite c = false := by
  simp [List.all_eq_false]

/-! ## CONSTRUCT -/

/-- CONSTRUCT, each check as a condition on the operand's value (40_construction.md R110). -/
theorem exec_construct_eq (k npfb l : Word) (coefs : List Num) (s : State) :
    exec (.construct k npfb l coefs) s =
      .next (if s.cfg.lMax < l.toNat then s.configError .construct .lRange
        else if k.toNat < 2 ∨ s.cfg.kMax < k.toNat then s.configError .construct .kRange
        else if l.toNat = 0 then s.configError .construct .lRange
        else if npfb.toNat = 0 ∨ s.cfg.npfbMax < npfb.toNat then s.configError .construct .npfbRange
        else if ∃ c ∈ coefs, numFinite c = false then s.configError .construct .coefNonfinite
        else (s.install k npfb l coefs).respond Opcode.construct.code .ok []) := by
  simp only [exec, execConstruct, kInRange_eq_false_iff, word_eq_zero_iff, npfbInRange_eq_false_iff,
    all_numFinite_eq_false_iff]

/-- CONSTRUCT accepts operands that pass its checks, in every state (40_construction.md R110). -/
theorem exec_construct_accepted (k npfb l : Word) (coefs : List Num) (s : State)
    (hk : 2 ≤ k.toNat ∧ k.toNat ≤ s.cfg.kMax) (hn : 1 ≤ npfb.toNat ∧ npfb.toNat ≤ s.cfg.npfbMax)
    (hl : 1 ≤ l.toNat ∧ l.toNat ≤ s.cfg.lMax) (hfin : ∀ c ∈ coefs, numFinite c = true) :
    exec (.construct k npfb l coefs) s =
      .next ((s.install k npfb l coefs).respond Opcode.construct.code .ok []) := by
  have hbad : ¬ ∃ c ∈ coefs, numFinite c = false := by simpa using hfin
  rw [exec_construct_eq, if_neg (by omega), if_neg (by omega), if_neg (by omega), if_neg (by omega), if_neg hbad]

/-- The branch length of R117 fits its register. -/
theorem branchLength_toNat (l npfb : Word) : (branchLength l npfb).toNat = (l.toNat - 1) / npfb.toNat :=
  Nat.mod_eq_of_lt (((Nat.div_le_self _ _).trans (Nat.sub_le _ _)).trans_lt l.isLt)

/-- A legal K is at most 2^24 (00_scope.md R6). -/
theorem kMax_le_of_legal (c : Config) (h : c.legal = true) : c.kMax ≤ 2 ^ 24 := by
  simp only [Config.legal, Bool.and_eq_true, decide_eq_true_eq] at h
  omega

/-- A legal prototype length is below 2^31 (00_scope.md R6). -/
theorem lMax_lt_of_legal (c : Config) (h : c.legal = true) : c.lMax < 2 ^ 31 := by
  simp only [Config.legal, Bool.and_eq_true, decide_eq_true_eq] at h
  omega

/-- Settles O18: the step of an installation at K_OUT = 1 is f32(k) exactly, and BT's constants are evaluated. -/
theorem constructInstalls : Obligations.ConstructInstalls := by
  unfold Obligations.ConstructInstalls
  intro k npfb l coefs s hlegal hk1 hk2 hn1 hn2 hl1 hl2 hfin
  rw [exec_construct_accepted k npfb l coefs s ⟨hk1, hk2⟩ ⟨hn1, hn2⟩ ⟨hl1, hl2⟩ hfin]
  have hone : f32 1 = fone := by decide
  have hstep : fdiv (f32 k.toNat) (f32 1) = f32 k.toNat := by
    rw [hone, fdiv_fone _ (f32_exact _ (hk2.trans (kMax_le_of_legal _ hlegal))).1]
  have halpha : fsub fone f001 = 0x3F7D70A4 := by decide
  have hbeta : fmul c022 f001 = 0x3B102DE0 := by decide
  have hheader : responseHeader Opcode.construct.code .ok 0 = 0x01000000 := by decide
  simp [State.respond, State.send, ↓hheader, hone, ↓hstep, ↓halpha, ↓hbeta, ↓branchLength_toNat, branchLength, fone, f001,
    posZero]

/-- Settles O19, check by check in the order of R110. -/
theorem constructRejectsInOrder : Obligations.ConstructRejectsInOrder := by
  unfold Obligations.ConstructRejectsInOrder
  intro k npfb l coefs s h
  rw [exec_construct_eq]
  split_ifs with hlmax hk hl hn hfin
  case neg =>
    simp only [not_or] at hk hn
    simp only [hlmax, hk, hl, hn, hfin, or_self] at h
  all_goals rfl

/-! ## CONSTRUCT_DESIGN -/

/-- What CONSTRUCT_DESIGN does with DESIGN's answer once its operands have passed their checks (40_construction.md
R120). -/
def State.installDesigned (s : State) (k npfb : Word) (n : Nat) : Option (List Num) → State
  | none => s.configError .constructDesign .designFailed
  | some c =>
    if c.length ≠ n then s.configError .constructDesign .designFailed
    else if ∃ x ∈ c, numFinite x = false then s.configError .constructDesign .coefNonfinite
    else (s.install k npfb (BitVec.ofNat 32 n) c).respond Opcode.constructDesign.code .ok []

/-- CONSTRUCT_DESIGN, each check as a condition on the operand's value (40_construction.md R120). -/
theorem exec_constructDesign_eq (ftype k m ebw npfb : Word) (s : State) :
    exec (.constructDesign ftype k m ebw npfb) s =
      .next (if k.toNat < 2 ∨ s.cfg.kMax < k.toNat then s.configError .constructDesign .kRange
        else if m.toNat = 0 then s.configError .constructDesign .mRange
        else if isnan ebw = true ∨ fscaled ebw < 0 ∨ 2 ^ 149 < fscaled ebw then s.configError .constructDesign .ebwRange
        else if npfb.toNat = 0 ∨ s.cfg.npfbMax < npfb.toNat then s.configError .constructDesign .npfbRange
        else if ftypeAccepted s.cfg ftype = false then s.configError .constructDesign .ftypeUnknown
        else if s.cfg.lMax < designLength k m npfb then s.configError .constructDesign .lRange
        else s.installDesigned k npfb (designLength k m npfb)
          (designCoefs s.cfg ftype (k.toNat * npfb.toNat) m.toNat ebw)) := by
  simp only [exec, execConstructDesign, kInRange_eq_false_iff, word_eq_zero_iff, inUnitInterval_eq_false_iff,
    npfbInRange_eq_false_iff, all_numFinite_eq_false_iff]
  cases designCoefs s.cfg ftype (k.toNat * npfb.toNat) m.toNat ebw <;> rfl

/-- A finite answer of the right length is installed. -/
theorem State.installDesigned_of_finite (s : State) (k npfb : Word) (n : Nat) (c : List Num) (hlen : c.length = n)
    (hfin : ∀ x ∈ c, numFinite x = true) :
    s.installDesigned k npfb n (some c) =
      (s.install k npfb (BitVec.ofNat 32 n) c).respond Opcode.constructDesign.code .ok [] := by
  have hbad : ¬ ∃ x ∈ c, numFinite x = false := by simpa using hfin
  rw [State.installDesigned, if_neg (not_not.mpr hlen), if_neg hbad]

/-- An answer that cannot be installed is reported by its length alone: of the right one, it is not finite. -/
theorem State.installDesigned_rejected (s : State) (k npfb : Word) (n : Nat) (answer : Option (List Num))
    (h : answer = none ∨ ∃ c, answer = some c ∧ (c.length ≠ n ∨ ∃ x ∈ c, numFinite x = false)) :
    s.installDesigned k npfb n answer =
      s.configError .constructDesign (if answer.map List.length = some n then .coefNonfinite else .designFailed) := by
  obtain rfl | ⟨c, rfl, h⟩ := h
  · rfl
  by_cases hlen : c.length = n
  · have hlen' := not_not.mpr hlen
    rw [State.installDesigned, if_neg hlen', if_pos (h.resolve_left hlen'), if_pos (by simp [hlen])]
  · rw [State.installDesigned, if_pos hlen, if_neg (by simpa using hlen)]

/-- CONSTRUCT_DESIGN installs a finite design of the right length when its operands pass their checks (40_construction.md
R120). -/
theorem exec_constructDesign_accepted (ftype k m ebw npfb : Word) (coefs : List Num) (s : State)
    (hk : 2 ≤ k.toNat ∧ k.toNat ≤ s.cfg.kMax) (hm : 1 ≤ m.toNat)
    (hebw : isnan ebw = false ∧ 0 ≤ fscaled ebw ∧ fscaled ebw ≤ 2 ^ 149)
    (hn : 1 ≤ npfb.toNat ∧ npfb.toNat ≤ s.cfg.npfbMax) (hft : ftypeAccepted s.cfg ftype = true)
    (hl : designLength k m npfb ≤ s.cfg.lMax)
    (hd : designCoefs s.cfg ftype (k.toNat * npfb.toNat) m.toNat ebw = some coefs)
    (hlen : coefs.length = designLength k m npfb) (hfin : ∀ c ∈ coefs, numFinite c = true) :
    exec (.constructDesign ftype k m ebw npfb) s =
      .next ((s.install k npfb (BitVec.ofNat 32 (designLength k m npfb)) coefs).respond
        Opcode.constructDesign.code .ok []) := by
  have hunit : ¬ (isnan ebw = true ∨ fscaled ebw < 0 ∨ 2 ^ 149 < fscaled ebw) := by
    rw [← inUnitInterval_eq_false_iff, Bool.not_eq_false, inUnitInterval_iff]
    exact hebw
  rw [exec_constructDesign_eq, if_neg (by omega), if_neg (by omega), if_neg hunit, if_neg (by omega),
    if_neg (by simp [hft]), if_neg (by omega), hd, s.installDesigned_of_finite k npfb _ coefs hlen hfin]

/-- A prototype of length 2·npfb·k·m + 1 that fits a word has branches of length 2·k·m (40_construction.md R120). -/
theorem branchLength_design (k m npfb : Word) (hn : 1 ≤ npfb.toNat) (h : designLength k m npfb < 2 ^ 32) :
    (branchLength (BitVec.ofNat 32 (designLength k m npfb)) npfb).toNat = 2 * k.toNat * m.toNat := by
  rw [branchLength_toNat, BitVec.toNat_ofNat, Nat.mod_eq_of_lt h, designLength, Nat.add_sub_cancel,
    show 2 * npfb.toNat * k.toNat * m.toNat = npfb.toNat * (2 * k.toNat * m.toNat) by ring,
    Nat.mul_div_cancel_left _ hn]

/-- Settles O20: both commands end in the same installation. -/
theorem constructDesignDelegates : Obligations.ConstructDesignDelegates := by
  unfold Obligations.ConstructDesignDelegates
  intro ftype k m ebw npfb coefs s hlegal hk1 hk2 hm hnan h0 h1 hn1 hn2 hft hl hd hlen hfin
  change designLength k m npfb ≤ s.cfg.lMax at hl
  have hlMax := lMax_lt_of_legal _ hlegal
  have hword : (BitVec.ofNat 32 (designLength k m npfb)).toNat = designLength k m npfb := Nat.mod_eq_of_lt (by omega)
  have hpos : 1 ≤ designLength k m npfb := Nat.le_add_left 1 _
  refine ⟨_, exec_construct_accepted k npfb (BitVec.ofNat 32 (designLength k m npfb)) coefs s ⟨hk1, hk2⟩ ⟨hn1, hn2⟩
    (by omega) hfin, rfl, branchLength_design k m npfb hn1 (by omega), ?_⟩
  rw [exec_constructDesign_accepted ftype k m ebw npfb coefs s ⟨hk1, hk2⟩ hm ⟨hnan, h0, h1⟩ ⟨hn1, hn2⟩ hft hl hd
    hlen hfin]
  rfl

/-- Settles O21, check by check in the order of R120; DESIGN's answer is looked at last. -/
theorem constructDesignRejectsInOrder : Obligations.ConstructDesignRejectsInOrder := by
  unfold Obligations.ConstructDesignRejectsInOrder
  intro ftype k m ebw npfb s h
  rw [exec_constructDesign_eq]
  generalize hlast : (if (designCoefs s.cfg ftype (k.toNat * npfb.toNat) m.toNat ebw).map List.length =
    some (2 * npfb.toNat * k.toNat * m.toNat + 1) then (0x02011900 : Word) else 0x02011A00) = last
  rw [designLength]
  split_ifs with hk hm hebw hn hft hl
  case neg =>
    simp only [not_or] at hk hebw hn
    simp only [hk, hm, hebw, hn, hft, hl, false_or, reduceCtorEq] at h
    rw [s.installDesigned_rejected _ _ _ _ h, ← hlast]
    split_ifs <;> rfl
  all_goals rfl

/-! ## The derivative coefficients -/

theorem derivatives_length (c : List Num) (l : Nat) (npfb : Word) : (derivatives c l npfb).length = l := by
  simp [derivatives]

theorem derivatives_getElem? (c : List Num) (l : Nat) (npfb : Word) (i : Nat) (h : i < l) :
    (derivatives c l npfb)[i]? = some (deriv c l npfb i) := by
  simp [derivatives, h]

theorem entry_of_getElem? (mem : List Num) (i : Nat) (x : Num) (h : mem[i]? = some x) : entry mem i = x := by
  simp [entry, h]

/-- DERIV from the two neighbours it reads (40_construction.md R116). -/
theorem derivatives_of_neighbours (p : List Num) (npfb : Word) (i : Nat) (x y : Num) (h : i < p.length)
    (hx : p[(i + 1) % p.length]? = some x) (hy : p[(i + p.length - 1) % p.length]? = some y) :
    (derivatives p p.length npfb)[i]? = some (sscale (ssub x y) (derivScale npfb)) := by
  rw [derivatives_getElem? p _ npfb i h, deriv, entry_of_getElem? p _ x hx, entry_of_getElem? p _ y hy]

/-- A finite value minus itself is +0.0 (00_scope.md R10). -/
theorem fsub_self (a : Word) (h : isfinite a = true) : fsub a a = posZero := by
  have hsum : fscaled a + fscaled (fneg a) = 0 := by rw [fscaled_fneg, add_neg_cancel]
  rw [fsub, fadd_of_isfinite a (fneg a) h (by rwa [isfinite_fneg]), if_pos hsum, hsum, fsign_fneg, Bool.and_not_self]
  decide

theorem roundMag_zero (den : Nat) (hd : 0 < den) : roundMag 0 den = 0 := by
  simpa using roundMag_exact 0 0 den hd (by norm_num) (by simp) (by norm_num)

/-- +0.0 times a finite factor of positive sign is +0.0. -/
theorem fmul_posZero (v : Word) (h : isfinite v = true) (hs : fsign v = false) : fmul posZero v = posZero := by
  have hzero : isfinite posZero = true ∧ fsign posZero = false ∧ fmag posZero = 0 := by decide
  obtain ⟨hf, hsign, hmag⟩ := hzero
  rw [fmul_of_isfinite posZero v hf h, hsign, hs, hmag, Nat.zero_mul, roundMag_zero _ (by positivity)]
  decide

/-- The derivative scale of a legal NPFB is finite and of positive sign (40_construction.md R116). -/
theorem derivScale_finite (npfb : Word) (h : npfb.toNat ≤ 2 ^ 24) :
    isfinite (derivScale npfb) = true ∧ fsign (derivScale npfb) = false := by
  obtain ⟨hfin, hsign, hval⟩ := f32_exact npfb.toNat h
  have hmag : fmag (f32 npfb.toNat) = npfb.toNat * 2 ^ 149 := by
    rw [← natAbs_fscaled, hval]
    exact Int.natAbs_natCast _
  have hsixteen : isfinite fsixteen = true ∧ fsign fsixteen = false ∧ fmag fsixteen = 2 ^ 153 := by decide
  obtain ⟨hfin16, hsign16, hmag16⟩ := hsixteen
  have hlt : roundMag (npfb.toNat * 2 ^ 149 * 2 ^ 149) (2 ^ 153) < 0x7F800000 := by
    refine (roundMag_le _ _).lt_of_ne fun he => ?_
    rw [roundMag_overflow_iff _ _ (by positivity)] at he
    omega
  rw [derivScale, fdiv_of_isfinite _ _ hfin hfin16 (by rw [hmag16]; positivity), hsign, hsign16, hmag, hmag16]
  exact ⟨(isfinite_fpack_iff _ _ hlt.le).mpr hlt, fsign_fpack_roundMag ..⟩

/-- Settles O22: DERIV on the two neighbours; where both are one finite tap, a zero difference times a positive scale. -/
theorem derivativeCoefficients : Obligations.DerivativeCoefficients := by
  unfold Obligations.DerivativeCoefficients
  refine ⟨fun p npfb => derivatives_length p _ npfb, fun p npfb i a b => derivatives_of_neighbours p npfb i _ _,
    fun p npfb i a a' b b' => derivatives_of_neighbours p npfb i _ _, fun a npfb ha _ hn => ?_⟩
  obtain ⟨hfin, hsign⟩ := derivScale_finite npfb hn
  calc derivatives [.real a] 1 npfb = [.real (fmul (fsub a a) (derivScale npfb))] := rfl
    _ = [.real 0] := by rw [fsub_self a ha, fmul_posZero _ hfin hsign]; rfl

end Sys2Proof.Machine
end

section
/-! PROOFS. What a STEP answers (41_step.md R130, R139, 60_exceptions.md R226), and the iterations of its output loop
(R131, R141 to R149). -/

namespace Sys2Proof.Machine

/-! ## The answer to a burst -/

/-- The state a burst ends in. -/
def Burst.state : Burst → State
  | .completed s _ => s
  | .raised _ s _ => s

/-- STEP_CORE changes only the histories, by one push, and the loop registers (41_step.md R131). -/
theorem stepCore_loopFrame (room : Nat) (s : State) (x : Num) : (s.push x).loopFrame (stepCore room s x).state := by
  obtain ⟨t, ys, e, ht, -⟩ | ⟨c, t, ys, e, ht, -⟩ := stepCore_frame room s x <;> rwa [e]

/-- What a burst leaves: a raised one takes the fault (60_exceptions.md R226). -/
def Burst.left : Burst → State
  | .completed s _ => s
  | .raised c s _ => s.enterFault c

/-- The status that answers a burst (41_step.md R130, 60_exceptions.md R226). -/
def Burst.status : Burst → Status
  | .completed _ _ => .ok
  | .raised c _ _ => faultStatus c

theorem finishStep_eq (burst : Burst) :
    finishStep burst =
      burst.left.answered (responseHeader Opcode.step.code burst.status 0 :: burstPayload burst.samples) := by
  cases burst <;> rfl

/-- The header of a STEP that faulted carries the fault code as its status (60_exceptions.md R215, R226). -/
theorem responseHeader_faultStatus (c : FaultCause) :
    responseHeader Opcode.step.code (faultStatus c) 0 = (0x10 : Byte) ++ faultCode c ++ (0 : BitVec 16) := by
  cases c <;> decide

/-- STEP is OK where its output loop completes (41_step.md R130). -/
theorem exec_step_completed (s t : State) (x : Num) (ys : List Num) (hc : s.configured = true) (hf : s.faulted = false)
    (hx : numFinite x = true) (h : stepCore s.cfg.maxBurst s x = .completed t ys) :
    exec (.step x) s = .next (t.answered (0x10000000 :: burstPayload ys)) := by
  rw [exec_step_ready s x hc hf hx, h]
  rfl

/-- STEP takes the fault that its output loop raises (60_exceptions.md R226). -/
theorem exec_step_raised (s t : State) (x : Num) (c : FaultCause) (ys : List Num) (hc : s.configured = true)
    (hf : s.faulted = false) (hx : numFinite x = true) (h : stepCore s.cfg.maxBurst s x = .raised c t ys) :
    exec (.step x) s =
      .next ((t.enterFault c).answered (((0x10 : Byte) ++ faultCode c ++ (0 : BitVec 16)) :: burstPayload ys)) := by
  rw [exec_step_ready s x hc hf hx, h, ← responseHeader_faultStatus]
  rfl

/-- The record of a STEP that took a fault, as the statements list it (60_exceptions.md R226). -/
theorem exec_step_faults (s t : State) (x : Num) (c : FaultCause) (ys : List Num) (hc : s.configured = true)
    (hf : s.faulted = false) (hx : numFinite x = true) (h : stepCore s.cfg.maxBurst s x = .raised c t ys) :
    ∃ u, exec (.step x) s = .next u ∧ u.faulted = true ∧ u.faultCause = faultCode c ∧
      u.output = s.output ++ ((0x10 : Byte) ++ faultCode c ++ (0 : BitVec 16)) :: burstPayload ys := by
  refine ⟨_, exec_step_raised s t x c ys hc hf hx h, rfl, rfl, ?_⟩
  have hframe := stepCore_loopFrame s.cfg.maxBurst s x
  rw [h, Burst.state] at hframe
  rw [hframe]
  rfl

/-- Settles O25: the answers are `exec_step_completed` and `exec_step_faults`, and the loop test decides each pass. -/
theorem stepRunsTheLoop : Obligations.StepRunsTheLoop := by
  unfold Obligations.StepRunsTheLoop
  refine ⟨fun s x hc hf hx => ⟨fun t ys h => ?_, fun c t ys h => exec_step_faults s t x c ys hc hf hx h⟩,
    fun room s => ⟨fun h => outputLoop_leave room s (loopTest_leave s h),
      fun h => outputLoop_outOfRange room s (loopTest_outOfRange s h),
      fun h h' => outputLoop_full s (loopTest_body s h h')⟩,
    fun _ _ _ _ => ⟨rfl, rfl⟩, rfl, rfl, rfl⟩
  have hcore : stepCore s.cfg.maxBurst s x = .completed t ys := h
  have hframe := stepCore_loopFrame s.cfg.maxBurst s x
  rw [hcore, Burst.state] at hframe
  rw [exec_step_completed s t x ys hc hf hx h, hframe]
  rfl

/-- Settles O37: the check of R139 stands before the push. -/
theorem nonfiniteSampleRejected : Obligations.NonfiniteSampleRejected := by
  unfold Obligations.NonfiniteSampleRejected
  intro s re im hc hf
  have hreject (x : Num) (hx : numFinite x = false) :
      exec (.step x) s = .next { s with output := s.output ++ [0x10050000, 0] } := by
    rw [exec, execStep, whenReady_ready .step s _ hc hf, if_pos hx]
    rfl
  refine ⟨fun h => hreject _ ?_, fun h => hreject _ ?_⟩
  · simp [numFinite, isfinite, h]
  · obtain h | h := h <;> simp [numFinite, isfinite, h]

/-- Settles O26: the loop test leaves at once, and `toInt_sub_npfb` says that the subtraction is exact. -/
theorem stepWithoutOutput : Obligations.StepWithoutOutput := by
  unfold Obligations.StepWithoutOutput
  intro s x hc hf hx h
  refine ⟨?_, toInt_sub_npfb _ _ h⟩
  rw [exec_step_completed s _ x [] hc hf hx (outputLoop_leave _ (s.push x) (loopTest_leave (s.push x) h))]
  rfl

/-- Settles O31: the loop changes neither history (`stepCore_frame`), nor does fault entry, and equal histories take the
same push. -/
theorem stepPushesSample : Obligations.StepPushesSample := by
  unfold Obligations.StepPushesSample
  intro s x hc hf hx
  have heq : s.wMf = s.wDmf → (fbPush s.cfg s.mf x).hist = (fbPush s.cfg s.dmf x).hist :=
    fbPush_hist_congr s.cfg s.mf s.dmf x rfl
  obtain ⟨t, ys, e, ht, -⟩ | ⟨c, t, ys, e, ht, -⟩ := stepCore_frame s.cfg.maxBurst s x
  · refine ⟨_, exec_step_completed s t x ys hc hf hx e, ?_⟩
    rw [ht]
    exact ⟨rfl, rfl, heq⟩
  · refine ⟨_, exec_step_raised s t x c ys hc hf hx e, ?_⟩
    rw [ht]
    exact ⟨rfl, rfl, heq⟩

/-- A loop that completes emitted nothing exactly when its first test left it (41_step.md R141, R146). -/
theorem outputLoop_completed_nil_iff (room : Nat) (s t : State) (ys : List Num)
    (h : outputLoop room s = .completed t ys) : ys = [] ↔ (s.npfb.toNat : Int) ≤ s.b.toInt := by
  obtain ⟨hl, hb⟩ | ⟨hl, -⟩ | ⟨hl, -, hb⟩ := loopTest_cases s
  · cases (outputLoop_leave room s hl).symm.trans h
    simp [hb]
  · cases (outputLoop_outOfRange room s hl).symm.trans h
  · refine ⟨fun hy => ?_, fun hle => absurd hb (not_lt.mpr hle)⟩
    have hsamples : (outputLoop room s).samples = [] := by rw [h]; exact hy
    cases room with
    | zero => cases (outputLoop_full s hl).symm.trans h
    | succ room =>
      cases hi : iterate s with
      | again s' => simp [outputLoop_again room s s' hl hi] at hsamples
      | raised c s' => cases (outputLoop_raised room s s' c hl hi).symm.trans h

/-- Settles O32: the bound is `stepCore_frame`'s, and a fault's header is not OK's. -/
theorem burstIsBounded : Obligations.BurstIsBounded := by
  unfold Obligations.BurstIsBounded
  intro s x hc hf hx
  obtain ⟨t, ys, e, ht, hy⟩ | ⟨c, t, ys, e, -, hy⟩ := stepCore_frame s.cfg.maxBurst s x
  · refine ⟨_, 0x10000000, ys, exec_step_completed s t x ys hc hf hx e, hy, ?_, fun _ =>
      outputLoop_completed_nil_iff _ (s.push x) t ys e⟩
    rw [ht]
    rfl
  · obtain ⟨u, he, -, -, hout⟩ := exec_step_faults s t x c ys hc hf hx e
    refine ⟨u, _, ys, he, hy, hout, fun hok => absurd hok ?_⟩
    cases c <;> decide

/-! ## Iterations -/

theorem ted_of_detectorOutput (mf dmf : Num) (t : Word) (h : detectorOutput mf dmf t) : ted mf dmf = t := by
  obtain ⟨u, v, rfl, rfl, rfl⟩ | ⟨u, u', v, v', rfl, rfl, rfl⟩ := h <;> rfl

/-- An iteration that goes on with step 2c advances from the state step 2b leaves (41_step.md R131, R143). -/
theorem iterate_of_afterBoundary (s s₁ : State) (h : s.afterBoundary s₁) : iterate s = advance s₁ := by
  obtain ⟨hd, rfl⟩ | ⟨hd, hl, hk, rfl⟩ | ⟨hd, hl, t, qHat, ht, hn, rfl, rfl⟩ := h
  · exact iterate_no_boundary _ hd
  · exact iterate_locked_error_only s hd hl hk
  · have hted : ted s.matched s.derivative = t := ted_of_detectorOutput _ _ t ht
    rw [iterate_update s hd hl (hted ▸ hn), hted]
    rfl

/-- While locked under ERROR_ONLY every iteration advances, from a state that differs in DECIM_COUNTER alone (41_step.md
R149). -/
theorem iterate_locked (s : State) (hl : s.isLocked = true) (hk : s.cfg.lockSkip = .errorOnly) :
    ∃ d, iterate s = advance { s with decim := d } := by
  by_cases hd : s.decim = s.kOut
  · exact ⟨0, iterate_locked_error_only s hd hl hk⟩
  · exact ⟨s.decim, iterate_no_boundary s hd⟩

/-- Step 2b leaves the parameters and the bank as they are (41_step.md R143). -/
theorem State.loopFrame_of_afterBoundary (s s₁ : State) (h : s.afterBoundary s₁) : s.loopFrame s₁ := by
  obtain ⟨-, rfl⟩ | ⟨-, -, -, rfl⟩ | ⟨-, -, t, qHat, -, -, -, rfl⟩ := h <;> rfl

/-- An iteration whose advance fits s32 emits its sample and goes back to the loop test, in one record (41_step.md
R142 to R144). -/
theorem outputLoop_advancing (room : Nat) (s s₁ : State) (tau bf : Word) (hi : iterate s = advance s₁)
    (h0 : 0 ≤ s.b.toInt) (h1 : s.b.toInt < s.npfb.toNat) (ht : tau = fadd s₁.tau s₁.del)
    (hb : bf = fmul tau (f32 s₁.npfb.toNat)) (hf : branchFits bf = true) :
    outputLoop (room + 1) s =
      (outputLoop room
        { s₁ with decim := s₁.decim + 1, tau := tau, bf := bf, b := BitVec.ofInt 32 (roundHA bf) }).emit s.outputSample :=
  outputLoop_again room s _ (loopTest_body s h0 h1) (hi.trans (advance_eq s₁ tau bf ht hb hf))

/-- Settles O28: `iterate_of_afterBoundary` in its third case, once for an iteration and once for the last one. -/
theorem stepErrorUpdate : Obligations.StepErrorUpdate := by
  unfold Obligations.StepErrorUpdate
  constructor
  · intro room s mf dmf t q qHat del tau bf h0 h1 hd hl hmf hdmf ht hn hq hqh hdel htau hbf hf hlo hhi
    subst hmf hdmf hq hdel
    have hi := iterate_of_afterBoundary s _ (.inr (.inr ⟨hd, hl, t, qHat, ht, hn, hqh, rfl⟩))
    exact outputLoop_advancing room s _ tau bf hi h0 h1 htau hbf ((branchFits_iff bf).2 ⟨hf, hlo, hhi⟩)
  · intro s x mf dmf t q qHat del tau bf hc hfl hx hroom h0 h1 hd hl hmf hdmf ht hn hq hqh hdel htau hbf hf hlo hhi
    obtain ⟨room, hr⟩ : ∃ room, s.cfg.maxBurst = room + 1 := ⟨s.cfg.maxBurst - 1, by omega⟩
    rw [hmf, hdmf, ← matched_push, ← derivative_push] at ht
    subst hq hdel
    have hi := iterate_of_afterBoundary (s.push x) _ (.inr (.inr ⟨hd, hl, t, qHat, ht, hn, hqh, rfl⟩))
    rw [exec_step_ready s x hc hfl hx, hr, stepCore,
      outputLoop_last room (s.push x) _ tau bf hi h0 h1 htau hbf hf hlo hhi, finishStep_completed_one,
      outputSample_push, hmf]
    rfl

/-- Settles O30: the boundary's iteration goes back to the loop test as it came, and the second one, which finds the
counter at 0, is the last. -/
theorem lockedBoundaryDuplicates : Obligations.LockedBoundaryDuplicates := by
  unfold Obligations.LockedBoundaryDuplicates
  have hagain (room : Nat) (s : State) (h0 : 0 ≤ s.b.toInt) (h1 : s.b.toInt < s.npfb.toNat) (hd : s.decim = s.kOut)
      (hl : s.isLocked = true) (hk : s.cfg.lockSkip = .restOfIteration) :
      outputLoop (room + 1) s = (outputLoop room s.clearDecim).emit s.outputSample :=
    outputLoop_again room s _ (loopTest_body s h0 h1) (iterate_locked_rest s hd hl hk)
  refine ⟨hagain, ?_⟩
  intro s x mf tau bf hc hfl hx hroom h0 h1 hko hd hl hk hmf htau hbf hf hlo hhi
  obtain ⟨room, hr⟩ : ∃ room, s.cfg.maxBurst = room + 1 + 1 := ⟨s.cfg.maxBurst - 2, by omega⟩
  have hi : iterate (s.push x).clearDecim = advance (s.push x).clearDecim :=
    iterate_no_boundary _ fun (h : 0 = s.kOut) => by simp [← h] at hko
  have hy : (s.push x).clearDecim.outputSample = (s.push x).outputSample := rfl
  rw [exec_step_ready s x hc hfl hx, hr, stepCore, hagain _ (s.push x) h0 h1 hd hl hk,
    outputLoop_last room (s.push x).clearDecim _ tau bf hi h0 h1 htau hbf hf hlo hhi, hy, outputSample_push, ← hmf,
    Burst.emit, finishStep, State.respond_eq, burstPayload, List.flatMap_cons, List.flatMap_singleton]
  rfl

/-- An advance whose branch index is no s32, as one record (41_step.md R144). -/
theorem advance_raised (s : State) (tau bf : Word) (ht : tau = fadd s.tau s.del) (hb : bf = fmul tau (f32 s.npfb.toNat))
    (h : isfinite bf = false ∨ roundHA bf < -2 ^ 31 ∨ 2 ^ 31 - 1 < roundHA bf) :
    advance s = .raised .branchRange { s with decim := s.decim + 1, tau := tau, bf := bf } := by
  subst ht hb
  rw [advance_outOfRange s]
  · rfl
  · rw [← Bool.not_eq_true, branchFits_iff]
    rintro ⟨hf, hlo, hhi⟩
    obtain h | h | h := h
    · rw [h] at hf
      cases hf
    · omega
    · omega

/-- Settles O34: a negative branch raises at the loop test; an advance out of range raises after the iteration's sample,
from whatever step 2b left (`iterate_of_afterBoundary`). -/
theorem branchRangeFaults : Obligations.BranchRangeFaults := by
  unfold Obligations.BranchRangeFaults
  have hneg (room : Nat) (s : State) (h : s.b.toInt < 0) : outputLoop room s = .raised .branchRange s [] :=
    outputLoop_outOfRange room s (loopTest_outOfRange s h)
  have hadv (room : Nat) (s s₁ : State) (tau bf : Word) (h0 : 0 ≤ s.b.toInt) (h1 : s.b.toInt < s.npfb.toNat)
      (hs₁ : s.afterBoundary s₁) (htau : tau = fadd s₁.tau s₁.del) (hbf : bf = fmul tau (f32 s₁.npfb.toNat))
      (h : isfinite bf = false ∨ roundHA bf < -2 ^ 31 ∨ 2 ^ 31 - 1 < roundHA bf) :
      outputLoop (room + 1) s =
        .raised .branchRange { s₁ with decim := s₁.decim + 1, tau := tau, bf := bf } [s.outputSample] :=
    outputLoop_raised room s _ _ (loopTest_body s h0 h1)
      ((iterate_of_afterBoundary s s₁ hs₁).trans (advance_raised s₁ tau bf htau hbf h))
  refine ⟨hneg, hadv, fun s x hc hf hx => ⟨fun hb => ?_, fun s₁ bf h0 h1 hroom hs₁ hbf h => ?_⟩⟩
  · exact exec_step_faults s _ x .branchRange [] hc hf hx (hneg s.cfg.maxBurst (s.push x) hb)
  · obtain ⟨room, hr⟩ : ∃ room, s.cfg.maxBurst = room + 1 := ⟨s.cfg.maxBurst - 1, by omega⟩
    have hnpfb : s₁.npfb = s.npfb := by rw [(s.push x).loopFrame_of_afterBoundary s₁ hs₁]; rfl
    have hcore := hadv room (s.push x) s₁ _ bf h0 h1 hs₁ rfl (hnpfb ▸ hbf) h
    rw [← hr, outputSample_push] at hcore
    obtain ⟨u, he, hflt, hcause, hout⟩ := exec_step_faults s _ x .branchRange _ hc hf hx hcore
    refine ⟨u, he, hflt, hcause, ?_⟩
    rw [hout, burstPayload, List.flatMap_singleton]
    rfl

end Sys2Proof.Machine
end

section
/-! PROOFS. A loop whose phase does not move (41_step.md R141, 70_reset_and_hazards.md R248). -/

namespace Sys2Proof.Machine

/-- A locked loop under ERROR_ONLY whose branch index lies in the bank, agrees with TAU, and is not moved by an
advance. -/
structure State.Stagnant (s : State) : Prop where
  locked : s.isLocked = true
  errorOnly : s.cfg.lockSkip = .errorOnly
  tauStays : fadd s.tau s.del = s.tau
  bfFinite : isfinite (fmul s.tau (f32 s.npfb.toNat)) = true
  branch : s.b.toInt = roundHA (fmul s.tau (f32 s.npfb.toNat))
  nonneg : 0 ≤ s.b.toInt
  inBank : s.b.toInt < s.npfb.toNat

/-- An iteration of a stagnant loop writes B and TAU over with what they hold. -/
theorem State.Stagnant.outputLoop_succ {s : State} (h : s.Stagnant) (room : Nat) :
    ∃ s', outputLoop (room + 1) s = (outputLoop room s').emit s.outputSample ∧ s'.Stagnant ∧
      s'.outputSample = s.outputSample := by
  obtain ⟨d, hi⟩ := iterate_locked s h.locked h.errorOnly
  have hlo := BitVec.le_toInt s.b
  have hhi := BitVec.toInt_lt (x := s.b)
  have hb : BitVec.ofInt 32 (roundHA (fmul s.tau (f32 s.npfb.toNat))) = s.b := by
    rw [← h.branch, BitVec.ofInt_toInt]
  have hfits : branchFits (fmul s.tau (f32 s.npfb.toNat)) = true :=
    (branchFits_iff _).2 ⟨h.bfFinite, by rw [← h.branch]; omega, by rw [← h.branch]; omega⟩
  have hnext := outputLoop_advancing room s _ s.tau _ hi h.nonneg h.inBank h.tauStays.symm rfl hfits
  simp only [hb] at hnext
  exact ⟨_, hnext, ⟨h.locked, h.errorOnly, h.tauStays, h.bfFinite, h.branch, h.nonneg, h.inBank⟩, rfl⟩

/-- A stagnant loop fills its room with one sample and overflows. -/
theorem State.Stagnant.outputLoop_eq {s : State} (h : s.Stagnant) (room : Nat) :
    ∃ t, outputLoop room s = .raised .burstOverflow t (List.replicate room s.outputSample) := by
  induction room generalizing s with
  | zero => exact ⟨s, outputLoop_full s (loopTest_body s h.nonneg h.inBank)⟩
  | succ room ih =>
    obtain ⟨s', e, h', hy⟩ := h.outputLoop_succ room
    obtain ⟨t, e'⟩ := ih h'
    exact ⟨t, by rw [e, e', hy]; rfl⟩

/-- Settles O35: the push leaves a stagnant loop, which fills the room of MAX_BURST samples. -/
theorem stagnationOverflowsBurst : Obligations.StagnationOverflowsBurst := by
  unfold Obligations.StagnationOverflowsBurst
  intro s x _ hc hf hx hl hk htau hfin hb h0 h1
  have hstagnant : (s.push x).Stagnant := ⟨hl, hk, htau, hfin, hb, h0, h1⟩
  obtain ⟨t, hcore⟩ := hstagnant.outputLoop_eq s.cfg.maxBurst
  obtain ⟨u, he, hfaulted, hcause, hout⟩ := exec_step_faults s t x .burstOverflow _ hc hf hx hcore
  refine ⟨u, he, hfaulted, hcause, ?_⟩
  rw [hout, burstPayload, List.length_replicate, outputSample_push]
  rfl

end Sys2Proof.Machine
end

section
/-! PROOFS. The default filter bank (41_step.md R148, 00_scope.md R11). -/

namespace Sys2Proof.Machine

/-- A push into a full default history drops the oldest sample (41_step.md R148). -/
theorem fbPush_polyphase (c : Config) (coef hist : List Num) (npfb m : Nat) (x : Num) (hfb : c.fb = .polyphase)
    (hl : hist.length = m + 1) : (fbPush c ⟨coef, npfb, m + 1, hist⟩ x).hist = x :: hist.dropLast := by
  simp [fbPush, hfb, List.dropLast_eq_take, hl]

/-- A branch output by its taps: none is the zero sample (41_step.md R148). -/
theorem fbExecute_polyphase_zero (c : Config) (coef hist : List Num) (npfb b : Nat) (hfb : c.fb = .polyphase) :
    fbExecute c ⟨coef, npfb, 0, hist⟩ b = zeroNum c.sampleKind := by
  simp [fbExecute, hfb]

/-- A longer branch adds the product of its last tap and the oldest sample it reaches (41_step.md R148). -/
theorem fbExecute_polyphase_succ (c : Config) (coef hist : List Num) (npfb n b : Nat) (hfb : c.fb = .polyphase) :
    fbExecute c ⟨coef, npfb, n + 1, hist⟩ b =
      sadd (fbExecute c ⟨coef, npfb, n, hist⟩ b) (smul (entry coef (n * npfb + b)) (entry hist n)) := by
  simp [fbExecute, hfb, List.range_succ]

/-- Settles O24: the push and the branch output as above, and the operations by their cases. -/
theorem defaultFilterBank : Obligations.DefaultFilterBank := by
  unfold Obligations.DefaultFilterBank
  refine ⟨⟨rfl, rfl⟩, fun _ _ _ _ => ⟨rfl, rfl, rfl, rfl, rfl⟩, fun c coef hist npfb n b x hfb => ?_⟩
  refine ⟨rfl, ?_, ?_, fbExecute_polyphase_zero c coef hist npfb b hfb, fun a y ha hy => ?_⟩
  · rintro m hl rfl
    exact fbPush_polyphase c coef hist npfb m x hfb hl
  · rintro rfl
    simp [fbPush, hfb]
  · rw [fbExecute_polyphase_succ c coef hist npfb n b hfb, entry_of_getElem? coef _ a ha, entry_of_getElem? hist n y hy]

end Sys2Proof.Machine
end

section
/-! PROOFS. EXECUTE against the STEPs of its samples (41_step.md R150, 60_exceptions.md R224). -/

namespace Sys2Proof.Machine

/-! ## The streams are no part of the computation -/

/-- The state with other word streams and another command position (10_state.md R17, 20_memory.md R60). -/
def State.withStreams (s : State) (input : List Word) (pos : Nat) (output : List Word) : State :=
  { s with input := input, pos := pos, output := output }

def Pass.withStreams (input : List Word) (pos : Nat) (output : List Word) : Pass → Pass
  | .again s => .again (s.withStreams input pos output)
  | .raised c s => .raised c (s.withStreams input pos output)

def Burst.withStreams (input : List Word) (pos : Nat) (output : List Word) : Burst → Burst
  | .completed s ys => .completed (s.withStreams input pos output) ys
  | .raised c s ys => .raised c (s.withStreams input pos output) ys

section
variable (input : List Word) (pos : Nat) (output : List Word)

theorem Burst.withStreams_emit (y : Num) (burst : Burst) :
    (burst.emit y).withStreams input pos output = (burst.withStreams input pos output).emit y := by
  cases burst <;> rfl

theorem advance_withStreams (s : State) :
    advance (s.withStreams input pos output) = (advance s).withStreams input pos output := by
  obtain ⟨h, e⟩ | ⟨h, e⟩ := advance_cases s
  · rw [e, advance_fits (s.withStreams input pos output) h]
    rfl
  · rw [e, advance_outOfRange (s.withStreams input pos output) h]
    rfl

theorem iterate_withStreams (s : State) :
    iterate (s.withStreams input pos output) = (iterate s).withStreams input pos output := by
  obtain ⟨e, hd, hl, hk⟩ | ⟨e, hd, hl, hn⟩ | ⟨s₁, e, h⟩ := iterate_cases s
  · rw [e, iterate_locked_rest (s.withStreams input pos output) hd hl hk]
    rfl
  · rw [e, iterate_numeric (s.withStreams input pos output) hd hl hn]
    rfl
  · rw [e, ← advance_withStreams]
    obtain ⟨rfl, hd⟩ | ⟨rfl, hd, hl, hk⟩ | ⟨rfl, hd, hl, hn⟩ := h
    · exact iterate_no_boundary _ hd
    · exact iterate_locked_error_only (s.withStreams input pos output) hd hl hk
    · exact iterate_update (s.withStreams input pos output) hd hl hn

theorem outputLoop_withStreams (room : Nat) (s : State) :
    outputLoop room (s.withStreams input pos output) = (outputLoop room s).withStreams input pos output := by
  have htest (s : State) {answer : LoopTest} (h : loopTest s = answer) :
      loopTest (s.withStreams input pos output) = answer := h
  induction room generalizing s with
  | zero =>
    cases ht : loopTest s with
    | leave => rw [outputLoop_leave 0 s ht, outputLoop_leave 0 _ (htest s ht)]; rfl
    | outOfRange => rw [outputLoop_outOfRange 0 s ht, outputLoop_outOfRange 0 _ (htest s ht)]; rfl
    | body => rw [outputLoop_full s ht, outputLoop_full _ (htest s ht)]; rfl
  | succ room ih =>
    cases ht : loopTest s with
    | leave => rw [outputLoop_leave _ s ht, outputLoop_leave _ _ (htest s ht)]; rfl
    | outOfRange => rw [outputLoop_outOfRange _ s ht, outputLoop_outOfRange _ _ (htest s ht)]; rfl
    | body =>
      have hiter := iterate_withStreams input pos output s
      cases hi : iterate s <;> rw [hi] at hiter
      case again s' =>
        rw [outputLoop_again room s s' ht hi, outputLoop_again room _ _ (htest s ht) hiter, ih, Burst.withStreams_emit]
        rfl
      case raised c s' =>
        rw [outputLoop_raised room s s' c ht hi, outputLoop_raised room _ _ c (htest s ht) hiter]
        rfl

/-- STEP_CORE neither reads nor writes the streams (70_reset_and_hazards.md R258). -/
theorem stepCore_withStreams (room : Nat) (s : State) (x : Num) :
    stepCore room (s.withStreams input pos output) x = (stepCore room s x).withStreams input pos output :=
  outputLoop_withStreams input pos output room (s.push x)

end

/-! ## The answer to a batch -/

/-- What a batch leaves: a raised one takes the fault (60_exceptions.md R226). -/
def Batch.left : Batch → State
  | .completed s _ => s
  | .nonfinite s _ => s
  | .raised c s _ => s.enterFault c

/-- The status that answers a batch (41_step.md R150, 60_exceptions.md R224, R226). -/
def Batch.status : Batch → Status
  | .completed _ _ => .ok
  | .nonfinite _ _ => .inputNonfinite
  | .raised c _ _ => faultStatus c

@[simp] theorem Batch.left_prepend (front : List Num) (batch : Batch) : (batch.prepend front).left = batch.left := by
  cases batch <;> rfl

@[simp] theorem Batch.status_prepend (front : List Num) (batch : Batch) :
    (batch.prepend front).status = batch.status := by
  cases batch <;> rfl

theorem finishBatch_eq (batch : Batch) :
    finishBatch batch =
      batch.left.answered (responseHeader Opcode.execute.code batch.status 0 :: burstPayload batch.samples) := by
  cases batch <;> rfl

/-- The headers of STEP and EXECUTE differ by their OPC (30_encoding.md R84, R95). -/
theorem responseHeader_execute (st : Status) :
    responseHeader Opcode.execute.code st 0 = responseHeader Opcode.step.code st 0 + 0x01000000 := by
  cases st <;> decide

theorem runBatch_nonfinite (x : Num) (xs : List Num) (total : Nat) (s : State) (hx : numFinite x = false) :
    runBatch (x :: xs) total s = .nonfinite s [] := by
  simp [runBatch, hx]

theorem runBatch_completed (x : Num) (xs : List Num) (total : Nat) (s t : State) (ys : List Num)
    (hx : numFinite x = true) (h : stepCore (roomFor s.cfg total) s x = .completed t ys) :
    runBatch (x :: xs) total s = (runBatch xs (total + ys.length) t).prepend ys := by
  simp [runBatch, hx, h]

theorem runBatch_raised (x : Num) (xs : List Num) (total : Nat) (s t : State) (c : FaultCause) (ys : List Num)
    (hx : numFinite x = true) (h : stepCore (roomFor s.cfg total) s x = .raised c t ys) :
    runBatch (x :: xs) total s = .raised c t ys := by
  simp [runBatch, hx, h]

/-- Far from 2^32 samples, each STEP_CORE of an EXECUTE has the room of a STEP (41_step.md R150). -/
theorem roomFor_eq (c : Config) (total : Nat) (h : total + c.maxBurst < 2 ^ 32) : roomFor c total = c.maxBurst := by
  rw [roomFor]
  omega

/-- A batch of finite samples completes or raises (41_step.md R150). -/
theorem runBatch_of_finite (xs : List Num) (total : Nat) (s : State) (hxs : ∀ x ∈ xs, numFinite x = true) :
    (∃ t ys, runBatch xs total s = .completed t ys) ∨ (∃ c t ys, runBatch xs total s = .raised c t ys) := by
  induction xs generalizing total s with
  | nil => exact .inl ⟨s, [], rfl⟩
  | cons x xs ih =>
    obtain ⟨hx, hxs⟩ := List.forall_mem_cons.mp hxs
    obtain ⟨t, ys, e, -⟩ | ⟨c, t, ys, e, -⟩ := stepCore_frame (roomFor s.cfg total) s x
    · rw [runBatch_completed x xs total s t ys hx e]
      obtain ⟨u, zs, e'⟩ | ⟨c, u, zs, e'⟩ := ih (total + ys.length) t hxs <;> rw [e']
      · exact .inl ⟨_, _, rfl⟩
      · exact .inr ⟨_, _, _, rfl⟩
    · exact .inr ⟨c, t, ys, runBatch_raised x xs total s t c ys hx e⟩

/-! ## An EXECUTE with a non-finite sample -/

/-- A batch that meets a non-finite sample after its last one: it stops there unless it has faulted (60_exceptions.md
R224). -/
def Batch.interrupt : Batch → Batch
  | .completed s ys => .nonfinite s ys
  | .nonfinite s ys => .nonfinite s ys
  | .raised c s ys => .raised c s ys

theorem Batch.interrupt_prepend (front : List Num) (batch : Batch) :
    (batch.prepend front).interrupt = batch.interrupt.prepend front := by
  cases batch <;> rfl

theorem runBatch_append_nonfinite (front later : List Num) (x : Num) (total : Nat) (s : State)
    (hfront : ∀ y ∈ front, numFinite y = true) (hx : numFinite x = false) :
    runBatch (front ++ x :: later) total s = (runBatch front total s).interrupt := by
  induction front generalizing total s with
  | nil => exact runBatch_nonfinite x later total s hx
  | cons y front ih =>
    obtain ⟨hy, hfront⟩ := List.forall_mem_cons.mp hfront
    rw [List.cons_append]
    obtain ⟨t, ys, e, -⟩ | ⟨c, t, ys, e, -⟩ := stepCore_frame (roomFor s.cfg total) s y
    · rw [runBatch_completed y _ total s t ys hy e, runBatch_completed y _ total s t ys hy e, ih _ t hfront,
        Batch.interrupt_prepend]
    · rw [runBatch_raised y _ total s t c ys hy e, runBatch_raised y _ total s t c ys hy e]
      rfl

/-- What a batch leaves has answered nothing yet (41_step.md R150). -/
theorem runBatch_left_output (xs : List Num) (total : Nat) (s : State) :
    (runBatch xs total s).left.output = s.output := by
  have hframe := runBatch_frame xs total s
  cases e : runBatch xs total s <;> rw [e, Batch.state] at hframe <;> rw [hframe] <;> rfl

/-- A completed batch leaves the fault record as it was (60_exceptions.md R228). -/
theorem faulted_of_runBatch_completed (xs : List Num) (total : Nat) (s t : State) (ys : List Num)
    (h : runBatch xs total s = .completed t ys) : t.faulted = s.faulted := by
  have hframe := runBatch_frame xs total s
  rw [h, Batch.state] at hframe
  rw [hframe]

/-- Settles O40: the batch is the finite one, interrupted (`runBatch_append_nonfinite`). -/
theorem executeStopsAtNonFinite : Obligations.ExecuteStopsAtNonFinite := by
  unfold Obligations.ExecuteStopsAtNonFinite
  intro s front later x hc hf hfront hx
  have hout := runBatch_left_output front 0 s
  rw [exec_execute_ready s front hc hf, exec_execute_ready s _ hc hf,
    runBatch_append_nonfinite front later x 0 s hfront hx, finishBatch_eq, finishBatch_eq]
  refine ⟨_, responseHeader Opcode.execute.code (runBatch front 0 s).status 0, burstPayload (runBatch front 0 s).samples,
    rfl, by rw [← hout]; rfl, ?_⟩
  obtain ⟨t, ys, e⟩ | ⟨c, t, ys, e⟩ := runBatch_of_finite front 0 s hfront <;> rw [e] at hout ⊢
  · have hready : t.faulted = false := (faulted_of_runBatch_completed front 0 s t ys e).trans hf
    have hheader : responseHeader Opcode.execute.code .inputNonfinite 0 = 0x11050000 := by decide
    refine ⟨fun _ => ?_, fun hfaulted => absurd (hready.symm.trans hfaulted) (by decide)⟩
    rw [← hout, ← hheader]
    rfl
  · exact ⟨fun hfaulted => absurd (show (true : Bool) = false from hfaulted) (by decide), fun _ => rfl⟩

/-! ## An EXECUTE of one sample -/

/-- The batch of one sample is one STEP_CORE with the room of a STEP (41_step.md R150). -/
theorem finishBatch_runBatch_singleton (s : State) (x : Num) (hx : numFinite x = true) (hmax : s.cfg.maxBurst < 2 ^ 32) :
    finishBatch (runBatch [x] 0 s) =
      (stepCore s.cfg.maxBurst s x).left.answered
        (responseHeader Opcode.execute.code (stepCore s.cfg.maxBurst s x).status 0 ::
          burstPayload (stepCore s.cfg.maxBurst s x).samples) := by
  have hroom := roomFor_eq s.cfg 0 (by omega)
  rw [finishBatch_eq]
  cases e : stepCore s.cfg.maxBurst s x with
  | completed t ys =>
    rw [runBatch_completed x [] 0 s t ys hx (hroom ▸ e), Batch.samples_prepend, Batch.status_prepend, Batch.left_prepend,
      runBatch, Batch.samples, List.append_nil]
    rfl
  | raised c t ys =>
    rw [runBatch_raised x [] 0 s t c ys hx (hroom ▸ e)]
    rfl

/-- What a burst leaves has answered nothing yet (41_step.md R131). -/
theorem stepCore_left_output (room : Nat) (s : State) (x : Num) : (stepCore room s x).left.output = s.output := by
  obtain ⟨t, ys, e, ht, -⟩ | ⟨c, t, ys, e, ht, -⟩ := stepCore_frame room s x <;> rw [e, ht] <;> rfl

/-- STEP and EXECUTE of one sample leave the same state and answer the same status and payload. -/
theorem exec_execute_singleton (s : State) (x : Num) (hmax : s.cfg.maxBurst < 2 ^ 32) :
    ∃ (u : State) (st : Status) (payload : List Word), u.output = s.output ∧
      exec (.step x) s = .next (u.answered (responseHeader Opcode.step.code st 0 :: payload)) ∧
      exec (.execute [x]) s = .next (u.answered (responseHeader Opcode.execute.code st 0 :: payload)) := by
  cases hc : s.configured with
  | false =>
    refine ⟨s, .notConfigured, [0], rfl, ?_, ?_⟩
    · rw [exec, execStep, whenReady_unconfigured .step s _ hc]; rfl
    · rw [exec, execExecute, whenReady_unconfigured .execute s _ hc]; rfl
  | true =>
    cases hf : s.faulted with
    | true =>
      refine ⟨s, .faulted, [0], rfl, ?_, ?_⟩
      · rw [exec, execStep, whenReady_faulted .step s _ hc hf]; rfl
      · rw [exec, execExecute, whenReady_faulted .execute s _ hc hf]; rfl
    | false =>
      cases hx : numFinite x with
      | false =>
        refine ⟨s, .inputNonfinite, [0], rfl, ?_, ?_⟩
        · rw [exec, execStep, whenReady_ready .step s _ hc hf, if_pos hx]; rfl
        · rw [exec_execute_ready s [x] hc hf, runBatch_nonfinite x [] 0 s hx]; rfl
      | true =>
        refine ⟨(stepCore s.cfg.maxBurst s x).left, (stepCore s.cfg.maxBurst s x).status,
          burstPayload (stepCore s.cfg.maxBurst s x).samples, stepCore_left_output s.cfg.maxBurst s x, ?_, ?_⟩
        · rw [exec_step_ready s x hc hf hx, finishStep_eq]
        · rw [exec_execute_ready s [x] hc hf, finishBatch_runBatch_singleton s x hx hmax]

/-- Settles O17: the empty batch by its loop, one sample by `exec_execute_singleton`. -/
theorem smallBatches : Obligations.SmallBatches := by
  unfold Obligations.SmallBatches
  refine fun s => ⟨fun hc hf => exec_execute_ready s [] hc hf, fun x hmax => ?_⟩
  obtain ⟨u, st, payload, hout, hstep, hexecute⟩ := exec_execute_singleton s x hmax
  refine ⟨_, responseHeader Opcode.step.code st 0, payload, hstep, by rw [← hout]; rfl, ?_⟩
  rw [hexecute, responseHeader_execute, ← hout]
  rfl

end Sys2Proof.Machine
end

section
/-! PROOFS. An EXECUTE of finite samples has the effect of their STEPs (41_step.md R150, 30_encoding.md R97). -/

namespace Sys2Proof.Machine

/-! ## STEPs one after another -/

theorem State.answered_answered (s : State) (ws ws' : List Word) :
    (s.answered ws).answered ws' = s.answered (ws ++ ws') := by
  simp [State.answered]

theorem State.answered_nil (s : State) : s.answered [] = s := by
  simp [State.answered]

theorem execAll_cons (i : Instr) (is : List Instr) (s t : State) (h : exec i s = .next t) :
    execAll (i :: is) s = execAll is t := by
  rw [execAll, h]

/-- The words of STEP's responses, each a header and its samples (30_encoding.md R95). -/
def burstWords (bursts : List (Word × List Num)) : List Word :=
  bursts.flatMap fun burst => burst.1 :: burstPayload burst.2

theorem burstWords_cons (h : Word) (ys : List Num) (bursts : List (Word × List Num)) :
    burstWords ((h, ys) :: bursts) = (h :: burstPayload ys) ++ burstWords bursts := List.flatMap_cons

/-- EXECUTE's header by those of its STEPs: the first that is not OK, with EXECUTE's OPC (41_step.md R150). -/
def batchHeader (bursts : List (Word × List Num)) : Word :=
  match bursts.find? (fun burst => burst.1 != 0x10000000) with
  | some burst => burst.1 + 0x01000000
  | none => 0x11000000

theorem batchHeader_cons_ok (ys : List Num) (bursts : List (Word × List Num)) :
    batchHeader ((0x10000000, ys) :: bursts) = batchHeader bursts := by
  simp [batchHeader]

theorem batchHeader_cons_failed (h : Word) (ys : List Num) (bursts : List (Word × List Num)) (hh : h ≠ 0x10000000) :
    batchHeader ((h, ys) :: bursts) = h + 0x01000000 := by
  rw [batchHeader, List.find?_cons_of_pos (by simpa using hh)]

/-- STEPs that are each rejected with the same header change nothing but the responses (60_exceptions.md R223). -/
theorem execAll_steps_rejected (h : Word) (s : State) (xs : List Num) (ws : List Word)
    (hstep : ∀ x ws, exec (.step x) (s.answered ws) = .next (s.answered (ws ++ [h, 0]))) :
    execAll (xs.map .step) (s.answered ws) =
      .next (s.answered (ws ++ burstWords (List.replicate xs.length (h, [])))) := by
  induction xs generalizing ws with
  | nil => rw [List.length_nil, List.replicate_zero, burstWords, List.flatMap_nil, List.append_nil]; rfl
  | cons x xs ih =>
    rw [List.map_cons, execAll_cons _ _ _ _ (hstep x ws), ih, List.length_cons, List.replicate_succ, burstWords_cons,
      List.append_assoc]
    rfl

theorem execAll_steps_unconfigured (s : State) (xs : List Num) (ws : List Word) (hc : s.configured = false) :
    execAll (xs.map .step) (s.answered ws) =
      .next (s.answered (ws ++ burstWords (List.replicate xs.length (0x10030000, [])))) := by
  refine execAll_steps_rejected 0x10030000 s xs ws fun x ws => ?_
  rw [exec, execStep, whenReady_unconfigured .step (s.answered ws) _ hc, ← State.answered_answered]
  rfl

theorem execAll_steps_faulted (s : State) (xs : List Num) (ws : List Word) (hc : s.configured = true)
    (hf : s.faulted = true) :
    execAll (xs.map .step) (s.answered ws) =
      .next (s.answered (ws ++ burstWords (List.replicate xs.length (0x10040000, [])))) := by
  refine execAll_steps_rejected 0x10040000 s xs ws fun x ws => ?_
  rw [exec, execStep, whenReady_faulted .step (s.answered ws) _ hc hf, ← State.answered_answered]
  rfl

theorem flatMap_snd_replicate (n : Nat) (h : Word) :
    (List.replicate n ((h, []) : Word × List Num)).flatMap Prod.snd = [] := by
  simp

/-- A STEP_CORE after earlier responses (70_reset_and_hazards.md R258). -/
theorem stepCore_answered (room : Nat) (s : State) (x : Num) (ws : List Word) :
    (∀ t ys, stepCore room s x = .completed t ys → stepCore room (s.answered ws) x = .completed (t.answered ws) ys) ∧
      (∀ c t ys, stepCore room s x = .raised c t ys → stepCore room (s.answered ws) x = .raised c (t.answered ws) ys) := by
  have hcore := stepCore_withStreams s.input s.pos (s.output ++ ws) room s x
  obtain ⟨t, ys, e, ht, -⟩ | ⟨c, t, ys, e, ht, -⟩ := stepCore_frame room s x <;> rw [e] at hcore ⊢
  all_goals
    have hstreams : t.withStreams s.input s.pos (s.output ++ ws) = t.answered ws := by rw [ht]; rfl
    rw [Burst.withStreams, hstreams] at hcore
  · refine ⟨fun _ _ h => ?_, fun _ _ _ h => ?_⟩ <;> cases h
    exact hcore
  · refine ⟨fun _ _ h => ?_, fun _ _ _ h => ?_⟩ <;> cases h
    exact hcore

/-! ## EXECUTE -/

/-- The STEPs of a batch of finite samples leave what the batch leaves, their responses carry its samples, and their
headers show its status (41_step.md R150). -/
theorem execAll_steps_ready (xs : List Num) (total : Nat) (s : State) (ws : List Word) (hc : s.configured = true)
    (hf : s.faulted = false) (hxs : ∀ x ∈ xs, numFinite x = true)
    (hroom : total + xs.length * s.cfg.maxBurst < 2 ^ 32) :
    ∃ bursts : List (Word × List Num),
      execAll (xs.map .step) (s.answered ws) =
          .next ((runBatch xs total s).left.answered (ws ++ burstWords bursts)) ∧
        bursts.length = xs.length ∧ bursts.flatMap Prod.snd = (runBatch xs total s).samples ∧
        batchHeader bursts = responseHeader Opcode.execute.code (runBatch xs total s).status 0 := by
  induction xs generalizing total s ws with
  | nil =>
    have hheader : batchHeader [] = responseHeader Opcode.execute.code .ok 0 := by decide
    exact ⟨[], by rw [burstWords, List.flatMap_nil, List.append_nil]; rfl, rfl, rfl, hheader⟩
  | cons x xs ih =>
    obtain ⟨hx, hxs⟩ := List.forall_mem_cons.mp hxs
    rw [List.length_cons, add_mul, one_mul] at hroom
    have hr : roomFor s.cfg total = s.cfg.maxBurst := roomFor_eq s.cfg total (by omega)
    obtain ⟨hcompleted, hraised⟩ := stepCore_answered s.cfg.maxBurst s x ws
    rw [List.map_cons]
    obtain ⟨t, ys, e, ht, hy⟩ | ⟨c, t, ys, e, ht, hy⟩ := stepCore_frame s.cfg.maxBurst s x
    · have hcfg : t.cfg = s.cfg := by rw [ht]; rfl
      have htc : t.configured = true := by rw [ht]; exact hc
      have htf : t.faulted = false := by rw [ht]; exact hf
      obtain ⟨bursts, he, hlen, hsamples, hheader⟩ :=
        ih (total + ys.length) t (ws ++ 0x10000000 :: burstPayload ys) htc htf hxs (by rw [hcfg]; omega)
      rw [execAll_cons _ _ _ _ (exec_step_completed (s.answered ws) _ x ys hc hf hx (hcompleted t ys e)),
        State.answered_answered, runBatch_completed x xs total s t ys hx (hr.symm ▸ e), Batch.left_prepend,
        Batch.samples_prepend, Batch.status_prepend]
      refine ⟨(0x10000000, ys) :: bursts, ?_, by simp [hlen], by rw [List.flatMap_cons, hsamples],
        by rw [batchHeader_cons_ok, hheader]⟩
      rw [burstWords_cons, ← List.append_assoc]
      exact he
    · have htc : (t.enterFault c).configured = true := by rw [ht]; exact hc
      rw [execAll_cons _ _ _ _ (exec_step_raised (s.answered ws) _ x c ys hc hf hx (hraised c t ys e)),
        runBatch_raised x xs total s t c ys hx (hr.symm ▸ e), ← responseHeader_faultStatus]
      refine ⟨(responseHeader Opcode.step.code (faultStatus c) 0, ys) :: List.replicate xs.length (0x10040000, []), ?_,
        by simp, ?_, ?_⟩
      · rw [burstWords_cons, ← List.append_assoc]
        exact (congrArg _ (State.answered_answered (t.enterFault c) _ _)).trans
          (execAll_steps_faulted (t.enterFault c) xs _ htc rfl)
      · rw [List.flatMap_cons, flatMap_snd_replicate, List.append_nil]
        rfl
      · rw [batchHeader_cons_failed _ _ _ (by cases c <;> decide), ← responseHeader_execute]
        rfl

/-- Settles O39: rejected STEPs and a rejected EXECUTE by their common checks, and `execAll_steps_ready` from a ready
block. -/
theorem executeEqualsSteps : Obligations.ExecuteEqualsSteps := by
  unfold Obligations.ExecuteEqualsSteps
  intro s xs hxs hroom
  cases hc : s.configured with
  | false =>
    have hsteps := execAll_steps_unconfigured s xs [] hc
    rw [State.answered_nil] at hsteps
    refine ⟨_, s.reject Opcode.execute.code .notConfigured, 0x11030000,
      List.replicate xs.length (0x10030000, []), hsteps, ?_, rfl, by simp, rfl, ?_, rfl⟩
    · rw [exec, execExecute, whenReady_unconfigured .execute s _ hc]
    · rw [flatMap_snd_replicate]; rfl
  | true =>
    cases hf : s.faulted with
    | true =>
      have hsteps := execAll_steps_faulted s xs [] hc hf
      rw [State.answered_nil] at hsteps
      refine ⟨_, s.reject Opcode.execute.code .faulted, 0x11040000,
        List.replicate xs.length (0x10040000, []), hsteps, ?_, rfl, by simp, rfl, ?_, rfl⟩
      · rw [exec, execExecute, whenReady_faulted .execute s _ hc hf]
      · rw [flatMap_snd_replicate]; rfl
    | false =>
      obtain ⟨bursts, hsteps, hlen, hsamples, hheader⟩ := execAll_steps_ready xs 0 s [] hc hf hxs (by omega)
      have hout := runBatch_left_output xs 0 s
      rw [State.answered_nil] at hsteps
      refine ⟨_, _, batchHeader bursts, bursts, hsteps, exec_execute_ready s xs hc hf, ?_, hlen, ?_, ?_, ?_⟩
      · rw [finishBatch_eq]
        rfl
      · rw [← hout]
        rfl
      · rw [finishBatch_eq, hheader, hsamples, ← hout]
        rfl
      · rfl

end Sys2Proof.Machine
end

section
/-! PROOFS. The rate law for k = 2 and k_out = 1 (41_step.md R147, R150). -/

namespace Sys2Proof.Machine

/-! ## The phase in binary32 -/

/-- Twice an integer up to 2^24 is exact, and so is taking that integer away again (00_scope.md R10). -/
theorem fmul_two_f32 (n : Nat) (h0 : 1 ≤ n) (h : n ≤ 2 ^ 24) :
    isfinite (fmul 0x40000000 (f32 n)) = true ∧ roundHA (fmul 0x40000000 (f32 n)) = 2 * n ∧
      fsub (fmul 0x40000000 (f32 n)) (f32 n) = f32 n := by
  obtain ⟨hfin, hsign, hval⟩ := f32_exact n h
  have hmag : fmag (f32 n) = n * 2 ^ 149 := by
    rw [← natAbs_fscaled, hval]
    exact Int.natAbs_natCast _
  have htwo : isfinite 0x40000000 = true ∧ fsign 0x40000000 = false ∧ fmag 0x40000000 = 2 ^ 150 := by decide
  obtain ⟨hfin2, hsign2, hmag2⟩ := htwo
  obtain ⟨t, q, e, hlo, hhi, ht⟩ := exists_significand n (by omega) h
  have hbits : fmul 0x40000000 (f32 n) = fpack false ((t + 1) * 2 ^ 23 + q) := by
    rw [fmul_of_isfinite _ _ hfin2 hfin, hsign2, hsign, hmag2, hmag, e,
      show 2 ^ 150 * (q * 2 ^ t) = q * 2 ^ (t + 1) * 2 ^ 149 by ring,
      roundMag_exact (t + 1) q (2 ^ 149) (by positivity) hhi (fun _ => hlo) (by omega)]
    rfl
  have hprod : isfinite (fmul 0x40000000 (f32 n)) = true := by
    rw [hbits]
    exact (isfinite_fpack_iff _ _ (by omega)).mpr (by omega)
  have hpsign : fsign (fmul 0x40000000 (f32 n)) = false := by
    rw [hbits]
    exact fsign_fpack _ _ (by omega)
  have hpmag : fmag (fmul 0x40000000 (f32 n)) = 2 * n * 2 ^ 149 := by
    rw [hbits, fmag_fpack_eq _ _ (by omega), magOfBits_place _ _ hhi.le (fun _ => hlo), pow_succ, mul_comm _ 2,
      mul_left_comm, ← e, mul_assoc]
  have hdiff : fscaled (fmul 0x40000000 (f32 n)) + fscaled (fneg (f32 n)) = (fmag (f32 n) : Int) := by
    rw [fscaled_fneg, fscaled_eq_signedBy, fscaled_eq_signedBy, hpsign, hsign, hpmag, hmag, signedBy_false,
      signedBy_false]
    push_cast
    ring
  have hpos : (0 : Int) < fmag (f32 n) := by
    rw [hmag]
    exact_mod_cast Nat.mul_pos h0 (by positivity)
  refine ⟨hprod, ?_, ?_⟩
  · rw [roundHA_eq_signedBy, hpsign, hpmag, signedBy_false]
    omega
  · have hround := roundMag_fmag (f32 n) 1 one_pos hfin
    rw [mul_one] at hround
    rw [fsub, fadd_of_isfinite _ _ hprod (by rwa [isfinite_fneg]), hdiff, if_neg hpos.ne',
      decide_eq_false hpos.le.not_gt, Int.natAbs_natCast, hround, ← hsign, fpack_fields]

theorem Batch.prepend_nil (batch : Batch) : batch.prepend [] = batch := by
  cases batch <;> rfl

/-! ## Two samples of a locked block at half rate -/

/-- A locked block under ERROR_ONLY with DEL = 2.0 at the phase that construction and RESET leave (41_step.md R147). -/
structure State.HalfRate (s : State) : Prop where
  legal : s.cfg.legal = true
  errorOnly : s.cfg.lockSkip = .errorOnly
  locked : s.isLocked = true
  npfbPos : 1 ≤ s.npfb.toNat
  npfbLe : s.npfb.toNat ≤ s.cfg.npfbMax
  del : s.del = 0x40000000
  tau : s.tau = 0
  bf : s.bf = 0
  b : s.b = 0

theorem npfbMax_le_of_legal (c : Config) (h : c.legal = true) : c.npfbMax ≤ 2 ^ 24 := by
  simp only [Config.legal, Bool.and_eq_true, decide_eq_true_eq] at h
  omega

theorem one_le_maxBurst_of_legal (c : Config) (h : c.legal = true) : 1 ≤ c.maxBurst := by
  simp only [Config.legal, Bool.and_eq_true, decide_eq_true_eq] at h
  omega

theorem State.HalfRate.push {s : State} (h : s.HalfRate) (x : Num) : (s.push x).HalfRate :=
  ⟨h.legal, h.errorOnly, h.locked, h.npfbPos, h.npfbLe, h.del, h.tau, h.bf, h.b⟩

/-- The phase between two samples: TAU at 1.0 and B at NPFB (41_step.md R147). -/
def State.halfWay (s : State) (d : Word) : State :=
  { s with decim := d, tau := fone, bf := f32 s.npfb.toNat, b := s.npfb }

/-- The first of two samples emits one and ends half way (41_step.md R147). -/
theorem State.HalfRate.outputLoop_eq {s : State} (h : s.HalfRate) (room : Nat) :
    ∃ d, outputLoop (room + 1) s = .completed (s.halfWay d) [s.outputSample] := by
  have hle := h.npfbLe.trans (npfbMax_le_of_legal s.cfg h.legal)
  have hpos := h.npfbPos
  obtain ⟨hfin, hround, hsub⟩ := fmul_two_f32 s.npfb.toNat hpos hle
  obtain ⟨d, hi⟩ := iterate_locked s h.locked h.errorOnly
  have hb : s.b.toInt = 0 := by rw [h.b]; rfl
  have htau : (0x40000000 : Word) = fadd s.tau s.del := by
    rw [h.tau, h.del]
    decide
  have hone : fsub 0x40000000 fone = fone := by decide
  have hbranch : BitVec.ofInt 32 (2 * s.npfb.toNat - s.npfb.toNat) = s.npfb := by
    rw [two_mul, add_sub_cancel_right, BitVec.ofInt_natCast, BitVec.ofNat_toNat, BitVec.setWidth_eq]
  have hlo : (s.npfb.toNat : Int) ≤ roundHA (fmul 0x40000000 (f32 s.npfb.toNat)) := by omega
  have hhi : roundHA (fmul 0x40000000 (f32 s.npfb.toNat)) ≤ 2 ^ 31 - 1 := by omega
  have hlast := outputLoop_last room s _ 0x40000000 _ hi hb.ge (by omega) htau rfl hfin hlo hhi
  simp only [hround, hsub, hone, hbranch] at hlast
  exact ⟨_, hlast⟩

/-- The second sample emits none: half way the loop test leaves at once (41_step.md R141). -/
theorem State.HalfRate.loopTest_halfWay {s : State} (h : s.HalfRate) (d : Word) (x : Num) :
    loopTest ((s.halfWay d).push x) = .leave := by
  have hle := h.npfbLe.trans (npfbMax_le_of_legal s.cfg h.legal)
  apply loopTest_leave
  show (s.npfb.toNat : Int) ≤ s.npfb.toInt
  rw [BitVec.toInt_eq_toNat_of_lt (by omega)]

/-- The correction of the second sample is back at the phase of the start (41_step.md R145, R147). -/
theorem State.HalfRate.correct_halfWay {s : State} (h : s.HalfRate) (d : Word) (x : Num) :
    ((s.halfWay d).push x).correct.HalfRate := by
  obtain ⟨hfin, -, -⟩ := f32_exact s.npfb.toNat (h.npfbLe.trans (npfbMax_le_of_legal s.cfg h.legal))
  refine ⟨h.legal, h.errorOnly, h.locked, h.npfbPos, h.npfbLe, h.del, ?_, fsub_self _ hfin, BitVec.sub_self s.npfb⟩
  have hzero : fsub fone fone = 0 := by decide
  rw [State.correct_tau]
  exact hzero

/-- Two samples of a batch emit one and are back at the phase they started from (41_step.md R147). -/
theorem State.HalfRate.runBatch_pair {s : State} (h : s.HalfRate) (x x' : Num) (xs : List Num) (total : Nat)
    (hx : numFinite x = true) (hx' : numFinite x' = true) (htotal : total + 1 < 2 ^ 32) :
    ∃ u y, u.HalfRate ∧ runBatch (x :: x' :: xs) total s = (runBatch xs (total + 1) u).prepend [y] := by
  obtain ⟨room, hroom⟩ : ∃ room, roomFor s.cfg total = room + 1 := by
    have := one_le_maxBurst_of_legal s.cfg h.legal
    exact ⟨roomFor s.cfg total - 1, by rw [roomFor]; omega⟩
  obtain ⟨d, hfirst⟩ := (h.push x).outputLoop_eq room
  rw [← hroom] at hfirst
  refine ⟨_, (s.push x).outputSample, (h.push x).correct_halfWay d x', ?_⟩
  rw [runBatch_completed x _ total s _ _ hx hfirst,
    runBatch_completed x' xs _ _ _ [] hx' (outputLoop_leave _ _ ((h.push x).loopTest_halfWay d x')), Batch.prepend_nil]
  rfl

/-- A batch of 2m samples emits m and is back at the phase it started from (41_step.md R147). -/
theorem State.HalfRate.runBatch_eq {s : State} (h : s.HalfRate) (m : Nat) (xs : List Num) (total : Nat)
    (hxs : ∀ x ∈ xs, numFinite x = true) (hlen : xs.length = 2 * m) (htotal : total + m < 2 ^ 32) :
    ∃ t ys, runBatch xs total s = .completed t ys ∧ ys.length = m ∧ t.HalfRate := by
  induction m generalizing s xs total with
  | zero =>
    obtain rfl := List.eq_nil_of_length_eq_zero hlen
    exact ⟨s, [], rfl, rfl, h⟩
  | succ m ih =>
    obtain ⟨x, x', xs, rfl⟩ : ∃ x x' rest, xs = x :: x' :: rest := by
      match xs, hlen with
      | x :: x' :: rest, _ => exact ⟨x, x', rest, rfl⟩
    obtain ⟨hx, hx', hxs⟩ := by simpa only [List.forall_mem_cons] using hxs
    obtain ⟨u, y, hu, e⟩ := h.runBatch_pair x x' xs total hx hx' (by omega)
    obtain ⟨t, ys, e', hys, ht⟩ := ih hu xs (total + 1) hxs (by simpa [mul_add] using hlen) (by omega)
    exact ⟨t, y :: ys, by rw [e, e']; rfl, by simp [hys], ht⟩

/-- Settles O38: the batch is `State.HalfRate.runBatch_eq`, answered by EXECUTE. -/
theorem lockedHalfRate : Obligations.LockedHalfRate := by
  unfold Obligations.LockedHalfRate
  intro s xs m hlegal hk hc hf hl hpos hle hdel htau hbf hb hxs hlen hmax
  have hrate : s.HalfRate := ⟨hlegal, hk, hl, hpos, hle, hdel, htau, hbf, hb⟩
  obtain ⟨t, ys, e, hys, ht⟩ := hrate.runBatch_eq m xs 0 hxs hlen (by omega)
  have hout := runBatch_left_output xs 0 s
  have hfaulted := faulted_of_runBatch_completed xs 0 s t ys e
  have hheader : responseHeader Opcode.execute.code .ok 0 = 0x11000000 := by decide
  rw [e] at hout
  refine ⟨_, ys, exec_execute_ready s xs hc hf, hys, ?_, ?_⟩
  · rw [e, finishBatch, State.respond_eq, burstPayload, hys, hheader, ← hout]
    rfl
  · rw [e]
    exact ⟨hfaulted.trans hf, ht.tau, ht.bf, ht.b, ht.del.trans hdel.symm⟩

end Sys2Proof.Machine
end

section
/-! PROOFS. The clip of the detector output (42_error_loop.md R163). -/

namespace Sys2Proof.Machine

/-- The two limits of the clip are the values 1 and -1, in units of 2^-149 (42_error_loop.md R163). -/
theorem fscaled_clip_limits :
    isnan fone = false ∧ fscaled fone = 2 ^ 149 ∧ isnan fnegOne = false ∧ fscaled fnegOne = -2 ^ 149 := by decide

/-- The comparisons of the clip are comparisons of values where the detector output is no NaN. -/
theorem clip_eq (t : Word) (h : isnan t = false) :
    clip t = if 2 ^ 149 < fscaled t then fone else if fscaled t < -2 ^ 149 then fnegOne else t := by
  obtain ⟨hnan1, hone, hnan2, hneg⟩ := fscaled_clip_limits
  simp only [clip, flt_iff, h, hnan1, hnan2, hone, hneg, true_and]

/-- The range of Q, as comparisons of values (10_state.md R18). -/
theorem inErrorRange_iff (v : Word) :
    inErrorRange v = true ↔ isnan v = false ∧ -2 ^ 149 ≤ fscaled v ∧ fscaled v ≤ 2 ^ 149 := by
  obtain ⟨hnan1, hone, hnan2, hneg⟩ := fscaled_clip_limits
  rw [inErrorRange, Bool.and_eq_true, fle_iff, fle_iff, hnan1, hone, hnan2, hneg]
  tauto

/-- Settles O47: the three cases are `clip_eq`, and the range is what the invariant keeps of Q
(`inErrorRange_clip`). -/
theorem clipBoundsTheError : Obligations.ClipBoundsTheError := by
  unfold Obligations.ClipBoundsTheError
  exact fun t h => ⟨clip_eq t h, (inErrorRange_iff (clip t)).mp (inErrorRange_clip t h)⟩

end Sys2Proof.Machine
end

section
/-! PROOFS. A detector output that is NaN (42_error_loop.md R160 to R162). -/

namespace Sys2Proof.Machine

/-- An unlocked boundary with a NaN ends the loop with NUMERIC: its sample is emitted, and DECIM_COUNTER alone is
written (42_error_loop.md R162). -/
theorem outputLoop_numeric (room : Nat) (s : State) (t : Word) (h0 : 0 ≤ s.b.toInt) (h1 : s.b.toInt < s.npfb.toNat)
    (hd : s.decim = s.kOut) (hl : s.isLocked = false) (ht : detectorOutput s.matched s.derivative t)
    (hn : isnan t = true) :
    outputLoop (room + 1) s = .raised .numeric s.clearDecim [s.outputSample] := by
  have hted : ted s.matched s.derivative = t := ted_of_detectorOutput _ _ t ht
  exact outputLoop_raised room s _ _ (loopTest_body s h0 h1) (iterate_numeric s hd hl (hted ▸ hn))

/-- Settles O36: `outputLoop_numeric` at any place in a burst, and in the first iteration of a STEP, whose banks have
taken the sample. -/
theorem nanDetectorFaults : Obligations.NanDetectorFaults := by
  unfold Obligations.NanDetectorFaults
  refine ⟨outputLoop_numeric, ?_⟩
  intro s x mf dmf t hc hf hx hroom h0 h1 hd hl hmf hdmf ht hn
  obtain ⟨room, hr⟩ : ∃ room, s.cfg.maxBurst = room + 1 := ⟨s.cfg.maxBurst - 1, by omega⟩
  rw [hmf, hdmf, ← matched_push, ← derivative_push] at ht
  have hcore := outputLoop_numeric room (s.push x) t h0 h1 hd hl ht hn
  rw [← hr, outputSample_push, ← hmf] at hcore
  obtain ⟨u, he, hfaulted, hcause, hout⟩ := exec_step_faults s _ x .numeric _ hc hf hx hcore
  refine ⟨u, he, hfaulted, hcause, ?_⟩
  rw [hout, burstPayload, List.flatMap_singleton]
  rfl

end Sys2Proof.Machine
end

section
/-! PROOFS. The loop filter of a locked block (42_error_loop.md R167, 10_state.md R41). -/

namespace Sys2Proof.Machine

/-- The lock flag and the registers the loop filter writes are the same (42_error_loop.md R160, R167). -/
def State.keepsLoopFilter (s t : State) : Prop :=
  t.isLocked = s.isLocked ∧ t.q = s.q ∧ t.qHat = s.qHat ∧ t.qPrime = s.qPrime ∧ t.del = s.del

theorem State.keepsLoopFilter_refl (s : State) : s.keepsLoopFilter s := ⟨rfl, rfl, rfl, rfl, rfl⟩

theorem State.keepsLoopFilter_trans (s t u : State) (h₁ : s.keepsLoopFilter t) (h₂ : t.keepsLoopFilter u) :
    s.keepsLoopFilter u := by
  obtain ⟨hl, hq, hqh, hqp, hdel⟩ := h₁
  obtain ⟨hl', hq', hqh', hqp', hdel'⟩ := h₂
  exact ⟨hl'.trans hl, hq'.trans hq, hqh'.trans hqh, hqp'.trans hqp, hdel'.trans hdel⟩

/-- Of an iteration's ways back to the loop test only the error update writes these registers, and a locked boundary
does not take it (41_step.md R143, R149). -/
theorem iterate_keepsLoopFilter (s s' : State) (hl : s.isLocked = true) (hi : iterate s = .again s') :
    s.keepsLoopFilter s' := by
  obtain ⟨e, -⟩ | ⟨e, -⟩ | ⟨s₁, e, hs₁⟩ := iterate_cases s
  · cases e.symm.trans hi
    exact s.keepsLoopFilter_refl
  · cases e.symm.trans hi
  · have h₁ : s.keepsLoopFilter s₁ := by
      obtain ⟨rfl, -⟩ | ⟨rfl, -⟩ | ⟨-, -, hu, -⟩ := hs₁
      · exact State.keepsLoopFilter_refl _
      · exact s.keepsLoopFilter_refl
      · cases hl.symm.trans hu
    obtain ⟨-, ea⟩ | ⟨-, ea⟩ := advance_cases s₁
    · cases (e.trans ea).symm.trans hi
      exact h₁
    · cases (e.trans ea).symm.trans hi

/-- A locked STEP_CORE that completes keeps them (41_step.md R131). -/
theorem stepCore_keepsLoopFilter (room : Nat) (s t : State) (x : Num) (ys : List Num) (hl : s.isLocked = true)
    (h : stepCore room s x = .completed t ys) : s.keepsLoopFilter t := by
  have hpass (a b : State) (ha : s.keepsLoopFilter a) (_ : loopTest a = .body) (hi : iterate a = .again b) :
      s.keepsLoopFilter b :=
    s.keepsLoopFilter_trans a b ha (iterate_keepsLoopFilter a b (ha.1.trans hl) hi)
  obtain ⟨u, zs, e, hu, -⟩ | ⟨c, u, zs, e, -⟩ :=
    outputLoop_cases s.keepsLoopFilter hpass room (s.push x) s.keepsLoopFilter_refl
  · cases e.symm.trans h
    exact hu
  · cases e.symm.trans h

/-- A locked STEP that leaves the block not faulted completed (60_exceptions.md R226). -/
theorem finishStep_stepCore_keepsLoopFilter (room : Nat) (s : State) (x : Num) (hl : s.isLocked = true)
    (hf : (finishStep (stepCore room s x)).faulted = false) : s.keepsLoopFilter (finishStep (stepCore room s x)) := by
  cases h : stepCore room s x with
  | completed t ys => exact stepCore_keepsLoopFilter room s t x ys hl h
  | raised c t ys =>
    rw [h] at hf
    cases hf

/-- A locked batch that does not fault keeps them: so does each of its STEP_COREs, which leave the block locked
(41_step.md R150). -/
theorem runBatch_keepsLoopFilter (xs : List Num) (total : Nat) (s : State) (hl : s.isLocked = true)
    (hf : (runBatch xs total s).left.faulted = false) : s.keepsLoopFilter (runBatch xs total s).left := by
  induction xs generalizing total s with
  | nil => exact s.keepsLoopFilter_refl
  | cons x xs ih =>
    cases hx : numFinite x with
    | false =>
      rw [runBatch_nonfinite x xs total s hx]
      exact s.keepsLoopFilter_refl
    | true =>
      cases h : stepCore (roomFor s.cfg total) s x with
      | completed t ys =>
        have hkeep := stepCore_keepsLoopFilter _ s t x ys hl h
        rw [runBatch_completed x xs total s t ys hx h, Batch.left_prepend] at hf ⊢
        exact s.keepsLoopFilter_trans t _ hkeep (ih _ t (hkeep.1.trans hl) hf)
      | raised c t ys =>
        rw [runBatch_raised x xs total s t c ys hx h] at hf
        cases hf

/-- A rejection keeps them too (43_configuration.md R179). -/
theorem whenReady_keepsLoopFilter (opc : Opcode) (s : State) (f : State → State)
    (h : (f s).faulted = false → s.keepsLoopFilter (f s)) (hf : (whenReady opc s f).faulted = false) :
    s.keepsLoopFilter (whenReady opc s f) := by
  obtain ⟨-, e⟩ | ⟨-, -, e⟩ | ⟨-, -, e⟩ := whenReady_cases opc s f <;> rw [e] at hf ⊢
  · exact s.keepsLoopFilter_refl
  · exact s.keepsLoopFilter_refl
  · exact h hf

/-- Settles O29: a locked STEP is its STEP_CORE and a locked EXECUTE its batch, and neither runs the loop filter
(`iterate_keepsLoopFilter`). -/
theorem lockedLoopIsFrozen : Obligations.LockedLoopIsFrozen := by
  unfold Obligations.LockedLoopIsFrozen
  intro s t i hi hl he hf
  suffices hkeep : s.keepsLoopFilter t from hkeep.2
  cases i with
  | step x =>
    cases he
    refine whenReady_keepsLoopFilter _ s _ ?_ hf
    split
    · exact fun _ => s.keepsLoopFilter_refl
    · exact finishStep_stepCore_keepsLoopFilter _ s x hl
  | execute xs =>
    cases he
    refine whenReady_keepsLoopFilter _ s _ (fun hf' => ?_) hf
    rw [finishBatch_eq] at hf' ⊢
    exact runBatch_keepsLoopFilter xs 0 s hl hf'
  | construct | constructDesign | setBandwidth | setOutputRate | setRate | lock | unlock | getTau | readReg | reset =>
    simp [Instr.opcode] at hi

end Sys2Proof.Machine
end

section
/-! PROOFS. What each configuration command, each read and RESET does on a block that accepts it (43_configuration.md
R180 to R212). -/

namespace Sys2Proof.Machine

/-! ## The operand checks -/

theorem kOutInRange_iff (c : Config) (ko : Word) : kOutInRange c ko = true ↔ 1 ≤ ko.toNat ∧ ko.toNat ≤ c.kOutMax := by
  simp [kOutInRange]

/-- The check compares with zero by value; a finite rate is no NaN (43_configuration.md R193). -/
theorem rateInRange_iff (rate : Word) :
    rateInRange rate = true ↔
      isfinite rate = true ∧ 0 < fscaled rate ∧ isfinite (fdiv 0x3F800000 rate) = true := by
  have hzero : isnan posZero = false ∧ fscaled posZero = 0 := by decide
  have hnan := not_isnan_of_isfinite rate
  simp only [rateInRange, Bool.and_eq_true, flt_iff, hzero.1, hzero.2, fone]
  tauto

/-! ## The commands with an operand -/

theorem checkedWrite_accepted (opc : Opcode) (d : Detail) (accepts : Config → Bool) (write : State → State) (s : State)
    (h : accepts s.cfg = true) :
    checkedWrite opc d accepts write s = (write s).answered [responseHeader opc.code .ok 0] :=
  if_neg (by simp [h])

/-- The operand check as a condition on the operand's value. -/
theorem checkedWrite_eq_ite (opc : Opcode) (d : Detail) (accepts : Config → Bool) (write : State → State) (s : State)
    (P : Prop) [Decidable P] (h : accepts s.cfg = true ↔ P) :
    checkedWrite opc d accepts write s =
      if P then (write s).answered [responseHeader opc.code .ok 0]
      else s.answered [responseHeader opc.code .configError (detailCode d)] := by
  split_ifs with hp
  · exact checkedWrite_accepted opc d accepts write s (h.mpr hp)
  · exact if_pos (by simpa using mt h.mp hp)

section
variable (s : State) (hc : s.configured = true) (hf : s.faulted = false)
include hc hf

theorem exec_setBandwidth_ready (bt : Word) :
    exec (.setBandwidth bt) s =
      .next (checkedWrite .setBandwidth .btRange (fun _ => inUnitInterval bt) (·.writeBandwidth bt) s) :=
  congrArg _ (whenReady_ready .setBandwidth s _ hc hf)

theorem exec_setOutputRate_ready (ko : Word) :
    exec (.setOutputRate ko) s =
      .next (checkedWrite .setOutputRate .kOutRange (kOutInRange · ko)
        (fun s => (s.writeOutputRate ko).clampDecim ko) s) :=
  congrArg _ (whenReady_ready .setOutputRate s _ hc hf)

theorem exec_setRate_ready (rate : Word) :
    exec (.setRate rate) s =
      .next (checkedWrite .setRate .rateRange (fun _ => rateInRange rate) (·.writeRate rate) s) :=
  congrArg _ (whenReady_ready .setRate s _ hc hf)

theorem exec_lock_ready :
    exec .lock s = .next ((s.writeLock true).answered [responseHeader Opcode.lock.code .ok 0]) :=
  congrArg _ (whenReady_ready .lock s _ hc hf)

theorem exec_unlock_ready :
    exec .unlock s = .next ((s.writeLock false).answered [responseHeader Opcode.unlock.code .ok 0]) :=
  congrArg _ (whenReady_ready .unlock s _ hc hf)

theorem exec_getTau_ready :
    exec .getTau s = .next (s.answered [responseHeader Opcode.getTau.code .ok 0, s.tau]) :=
  congrArg _ (whenReady_ready .getTau s _ hc hf)

end

/-- Settles O48: the interval check by value is `inUnitInterval_iff`. -/
theorem setBandwidthWrites : Obligations.SetBandwidthWrites := by
  unfold Obligations.SetBandwidthWrites
  intro s bt hc hf
  rw [exec_setBandwidth_ready s hc hf, checkedWrite_eq_ite _ _ _ _ s _ (inUnitInterval_iff bt)]
  rfl

/-- Settles O49: the write is R186's with the clamp of R191. -/
theorem setOutputRateWrites : Obligations.SetOutputRateWrites := by
  unfold Obligations.SetOutputRateWrites
  intro s ko hc hf
  rw [exec_setOutputRate_ready s hc hf, checkedWrite_eq_ite _ _ _ _ s _ (kOutInRange_iff s.cfg ko)]
  rfl

/-- Settles O50: the check by value is `rateInRange_iff`. -/
theorem setRateWrites : Obligations.SetRateWrites := by
  unfold Obligations.SetRateWrites
  intro s rate hc hf
  rw [exec_setRate_ready s hc hf, checkedWrite_eq_ite _ _ _ _ s _ (rateInRange_iff rate)]
  rfl

/-- Settles O51: neither command reads the flag it writes. -/
theorem lockSetsUnlockClears : Obligations.LockSetsUnlockClears := by
  unfold Obligations.LockSetsUnlockClears
  exact fun s hc hf => ⟨exec_lock_ready s hc hf, exec_unlock_ready s hc hf⟩

/-! ## RESET -/

/-- RESET on a configured block, faulted or not (43_configuration.md R212). -/
theorem exec_reset_configured (s : State) (hc : s.configured = true) :
    exec .reset s = .next (s.resetLoop.answered [responseHeader Opcode.reset.code .ok 0]) :=
  congrArg Host.Outcome.next (if_neg (by simp [hc]))

/-- Settles O53: the RST column is `State.resetLoop`. -/
theorem resetClears : Obligations.ResetClears := by
  unfold Obligations.ResetClears
  intro s hc
  rw [exec_reset_configured s hc]
  rfl

/-! ## The reads -/

/-- The register index map as a list (43_configuration.md R210). -/
def registerMap (s : State) : List Word :=
  [s.tau, s.bf, s.b, s.del, s.r, s.q, s.qHat, s.qPrime, s.alpha, s.beta, s.bt, s.decim, s.k, s.kOut, s.npfb, s.hLen, s.l,
    statusWord s, paramsWord s.cfg, s.delNom]

/-- REGWORD reads the map; the indices beyond it are the reserved ones. -/
theorem regWord_eq_getElem? (s : State) (idx : Byte) : regWord s idx = (registerMap s)[idx.toNat]? := by
  unfold regWord
  split
  case h_21 =>
    have hlen : 20 ≤ idx.toNat := by
      simp only [imp_false] at *
      omega
    exact (List.getElem?_eq_none_iff.mpr hlen).symm
  all_goals
    next h => rw [h]; rfl

theorem toNat_append_bits {n m : Nat} (x : BitVec n) (y : BitVec m) : (x ++ y).toNat = x.toNat * 2 ^ m + y.toNat := by
  rw [BitVec.toNat_append, ← Nat.shiftLeft_add_eq_or_of_lt y.isLt, Nat.shiftLeft_eq]

theorem toNat_ofBool_eq_bit (b : Bool) : (BitVec.ofBool b).toNat = bit b := by cases b <;> rfl

/-- The STATUS word of a configured block by its fields (10_state.md R35). -/
theorem statusWord_eq_append (s : State) (hc : s.configured = true) :
    statusWord s =
      (0 : BitVec 16) ++ s.faultCause ++ (0 : BitVec 5) ++ BitVec.ofBool s.faulted ++ BitVec.ofBool s.isLocked ++
        BitVec.ofBool s.configured := by
  apply BitVec.eq_of_toNat_eq
  have hcause := s.faultCause.isLt
  have hbit (b : Bool) : bit b ≤ 1 := by cases b <;> decide
  have hfaulted := hbit s.faulted
  have hlocked := hbit s.isLocked
  have hone : bit true = 1 := rfl
  simp only [statusWord, toNat_append_bits, toNat_ofBool_eq_bit, BitVec.toNat_ofNat, BitVec.ofNat_eq_ofNat, hc,
    Bool.true_and, hone]
  omega

/-- The PARAMS word by its bits (10_state.md R35). -/
theorem paramsWord_eq_append (c : Config) :
    paramsWord c =
      (0 : BitVec 29) ++ BitVec.ofBool (c.lockSkip == .restOfIteration) ++ BitVec.ofBool (c.coefKind == .complex) ++
        BitVec.ofBool (c.sampleKind == .complex) := by
  have hbits (skip coef sample : Bool) :
      BitVec.ofNat 32 (bit skip * 4 + bit coef * 2 + bit sample) =
        (0 : BitVec 29) ++ BitVec.ofBool skip ++ BitVec.ofBool coef ++ BitVec.ofBool sample := by
    revert skip coef sample
    decide
  exact hbits _ _ _

/-- READ_REG on a configured block, faulted or not (43_configuration.md R207). -/
theorem exec_readReg_configured (s : State) (idx : Byte) (hc : s.configured = true) :
    exec (.readReg idx) s =
      .next (match (registerMap s)[idx.toNat]? with
        | none => s.answered [responseHeader Opcode.readReg.code .illegalCommand 0]
        | some w => s.answered [responseHeader Opcode.readReg.code .ok 0, w]) := by
  rw [exec, execReadReg, regWord_eq_getElem?]
  cases (registerMap s)[idx.toNat]? with
  | none => rfl
  | some w => exact congrArg _ (if_neg (by simp [hc]))

/-- Settles O52: READ_REG looks its index up in `registerMap`. -/
theorem readsAnswerRegisters : Obligations.ReadsAnswerRegisters := by
  unfold Obligations.ReadsAnswerRegisters
  intro s hc
  refine ⟨fun hf => exec_getTau_ready s hc hf, fun idx w h => ?_, fun idx h => ?_⟩
  · rw [← statusWord_eq_append s hc, ← paramsWord_eq_append] at h
    rw [exec_readReg_configured s idx hc, registerMap, h]
    rfl
  · rw [exec_readReg_configured s idx hc, List.getElem?_eq_none_iff.mpr (show 20 ≤ idx.toNat from h)]
    rfl

end Sys2Proof.Machine
end

section
/-! PROOFS. RESET against a reconstruction with the same settings (43_configuration.md R213). -/

namespace Sys2Proof.Machine

/-! ## The streams and the counter of free values are no part of the computation -/

/-- The state with everything that `State.registers` leaves out taken from another: the streams, the command position
and the model's own counter (log 6). -/
def State.withUnlisted (s o : State) : State :=
  { s with input := o.input, pos := o.pos, output := o.output, freeIndex := o.freeIndex }

/-- A response is no part of the registers and memories (10_state.md R18). -/
theorem State.registers_answered (s : State) (ws : List Word) : (s.answered ws).registers = s.registers := rfl

/-- Two states with the same registers and memories differ in what is left out alone. -/
theorem State.eq_withUnlisted (s o : State) (h : o.registers = s.registers) : o = s.withUnlisted o :=
  show o.registers.withUnlisted o = s.registers.withUnlisted o by rw [h]

/-- A burst with a change made to the state it ends in. -/
def Burst.mapState (φ : State → State) : Burst → Burst
  | .completed s ys => .completed (φ s) ys
  | .raised c s ys => .raised c (φ s) ys

/-- A pass with a change made to the state it ends in. -/
def Pass.mapState (φ : State → State) : Pass → Pass
  | .again s => .again (φ s)
  | .raised c s => .raised c (φ s)

theorem Burst.mapState_emit (φ : State → State) (y : Num) (burst : Burst) :
    (burst.emit y).mapState φ = (burst.mapState φ).emit y := by
  cases burst <;> rfl

/-- A change of the state that the loop test, the emitted sample and the correction do not see and that one iteration
carries along is carried along by the whole output loop. -/
theorem outputLoop_mapState (φ : State → State) (htest : ∀ s, loopTest (φ s) = loopTest s)
    (hsample : ∀ s, (φ s).outputSample = s.outputSample) (hcorrect : ∀ s, (φ s).correct = φ s.correct)
    (hiterate : ∀ s, iterate (φ s) = (iterate s).mapState φ) (room : Nat) (s : State) :
    outputLoop room (φ s) = (outputLoop room s).mapState φ := by
  induction room generalizing s with
  | zero =>
    simp only [outputLoop, htest, hcorrect]
    cases loopTest s <;> rfl
  | succ room ih =>
    simp only [outputLoop, htest, hcorrect, hsample, hiterate]
    cases loopTest s with
    | leave | outOfRange => rfl
    | body =>
      cases iterate s with
      | again s' => simp only [Pass.mapState, ih, Burst.mapState_emit]
      | raised c s' => rfl

theorem advance_withUnlisted (s o : State) : advance (s.withUnlisted o) = (advance s).mapState (·.withUnlisted o) := by
  simp only [advance, apply_ite (Pass.mapState (·.withUnlisted o))]
  rfl

theorem iterate_withUnlisted (s o : State) : iterate (s.withUnlisted o) = (iterate s).mapState (·.withUnlisted o) := by
  obtain ⟨e, hd, hl, hk⟩ | ⟨e, hd, hl, hn⟩ | ⟨s₁, e, h⟩ := iterate_cases s
  · rw [e, iterate_locked_rest (s.withUnlisted o) hd hl hk]
    rfl
  · rw [e, iterate_numeric (s.withUnlisted o) hd hl hn]
    rfl
  · rw [e, ← advance_withUnlisted]
    obtain ⟨rfl, hd⟩ | ⟨rfl, hd, hl, hk⟩ | ⟨rfl, hd, hl, hn⟩ := h
    · exact iterate_no_boundary _ hd
    · exact iterate_locked_error_only (s.withUnlisted o) hd hl hk
    · exact iterate_update (s.withUnlisted o) hd hl hn

/-- STEP_CORE reads and writes none of it: free values are taken by fault entry alone (60_exceptions.md R226). -/
theorem stepCore_withUnlisted (room : Nat) (s o : State) (x : Num) :
    stepCore room (s.withUnlisted o) x = (stepCore room s x).mapState (·.withUnlisted o) :=
  outputLoop_mapState (·.withUnlisted o) (fun _ => rfl) (fun _ => rfl) (fun _ => rfl) (iterate_withUnlisted · o) room
    (s.push x)

/-- A batch emits the same samples and ends in the same status (70_reset_and_hazards.md R258). -/
theorem runBatch_withUnlisted (xs : List Num) (total : Nat) (s o : State) :
    (runBatch xs total (s.withUnlisted o)).status = (runBatch xs total s).status ∧
      (runBatch xs total (s.withUnlisted o)).samples = (runBatch xs total s).samples := by
  induction xs generalizing total s with
  | nil => exact ⟨rfl, rfl⟩
  | cons x xs ih =>
    have hcore := stepCore_withUnlisted (roomFor s.cfg total) s o x
    cases hx : numFinite x with
    | false =>
      rw [runBatch_nonfinite x xs total s hx, runBatch_nonfinite x xs total _ hx]
      exact ⟨rfl, rfl⟩
    | true =>
      cases e : stepCore (roomFor s.cfg total) s x <;> rw [e] at hcore
      case completed t ys =>
        obtain ⟨hst, hys⟩ := ih (total + ys.length) t
        rw [runBatch_completed x xs total s t ys hx e, runBatch_completed x xs total _ _ ys hx hcore]
        simp only [Batch.status_prepend, Batch.samples_prepend, hst, hys, and_self]
      case raised c t ys =>
        rw [runBatch_raised x xs total s t c ys hx e, runBatch_raised x xs total _ _ c ys hx hcore]
        exact ⟨rfl, rfl⟩

/-- The words that answer an EXECUTE on a ready block (41_step.md R150). -/
theorem exec_execute_output (s : State) (xs : List Num) (hc : s.configured = true) (hf : s.faulted = false) :
    ∃ t, exec (.execute xs) s = .next t ∧
      t.output = s.output ++
        (responseHeader Opcode.execute.code (runBatch xs 0 s).status 0 :: burstPayload (runBatch xs 0 s).samples) := by
  refine ⟨_, exec_execute_ready s xs hc hf, ?_⟩
  rw [finishBatch_eq, State.answered_output, runBatch_left_output]

/-- Two ready blocks with the same registers and memories answer every EXECUTE with the same words (43_configuration.md
R213). -/
theorem exec_execute_words_congr (s o : State) (xs : List Num) (hc : s.configured = true) (hf : s.faulted = false)
    (h : o.registers = s.registers) :
    ∃ (s' o' : State) (ws : List Word), exec (.execute xs) s = .next s' ∧ exec (.execute xs) o = .next o' ∧
      s'.output = s.output ++ ws ∧ o'.output = o.output ++ ws := by
  obtain ⟨hstatus, hsamples⟩ := runBatch_withUnlisted xs 0 s o
  have ho := s.eq_withUnlisted o h
  obtain ⟨s', hs, hsout⟩ := exec_execute_output s xs hc hf
  obtain ⟨o', ho', hoout⟩ := exec_execute_output o xs (by rw [ho]; exact hc) (by rw [ho]; exact hf)
  rw [ho] at hoout
  rw [hstatus, hsamples] at hoout
  exact ⟨s', o', _, hs, ho', hsout, hoout⟩

/-! ## The reconstruction -/

section
variable (s : State) (hc : s.configured = true) (hf : s.faulted = false)
include hc hf

theorem exec_setBandwidth_accepted (bt : Word) (hbt : inUnitInterval bt = true) :
    exec (.setBandwidth bt) s =
      .next ((s.writeBandwidth bt).answered [responseHeader Opcode.setBandwidth.code .ok 0]) := by
  rw [exec_setBandwidth_ready s hc hf, checkedWrite_accepted _ _ _ _ s hbt]

/-- A cleared counter needs no clamp (43_configuration.md R191). -/
theorem exec_setOutputRate_accepted (ko : Word) (hko : kOutInRange s.cfg ko = true) (hd : s.decim = 0) :
    exec (.setOutputRate ko) s =
      .next ((s.writeOutputRate ko).answered [responseHeader Opcode.setOutputRate.code .ok 0]) := by
  have hclamp : (s.writeOutputRate ko).clampDecim ko = s.writeOutputRate ko := by
    rw [State.clampDecim, if_neg (by simp [hd])]
  rw [exec_setOutputRate_ready s hc hf, checkedWrite_accepted _ _ _ _ s hko, hclamp]

theorem exec_setRate_accepted (rate : Word) (hrate : rateInRange rate = true) :
    exec (.setRate rate) s = .next ((s.writeRate rate).answered [responseHeader Opcode.setRate.code .ok 0]) := by
  rw [exec_setRate_ready s hc hf, checkedWrite_accepted _ _ _ _ s hrate]

end

/-- K_OUT, R, DEL_NOM and DEL as another state has them, DEL at its DEL_NOM (10_state.md R20, R24, R25). -/
def State.takeRate (s o : State) : State := { s with kOut := o.kOut, r := o.r, delNom := o.delNom, del := o.delNom }

@[simp] theorem State.takeRate_configured (s o : State) : (s.takeRate o).configured = s.configured := rfl
@[simp] theorem State.takeRate_faulted (s o : State) : (s.takeRate o).faulted = s.faulted := rfl
@[simp] theorem State.takeRate_isLocked (s o : State) : (s.takeRate o).isLocked = s.isLocked := rfl

/-- SET_OUTPUT_RATE, and SET_RATE where the rate was given directly, bring a ready block with the same K and a cleared
counter to a legal rate (43_configuration.md R186, R193). -/
theorem exists_rate_commands (s : State) (hrate : s.rateWf = true) (hko : kOutInRange s.cfg s.kOut = true) :
    ∃ rate : List Instr, (rate = [] ∨ rate = [.setRate s.r]) ∧
      ∀ (u : State) (is : List Instr),
        u.cfg = s.cfg → u.configured = true → u.faulted = false → u.k = s.k → u.decim = 0 →
          ∃ ws, execAll (.setOutputRate s.kOut :: (rate ++ is)) u = execAll is ((u.takeRate s).answered ws) := by
  simp only [State.rateWf, Bool.or_eq_true, Bool.and_eq_true, beq_iff_eq] at hrate
  obtain ⟨hr, hdel⟩ | ⟨hr, hdel⟩ := hrate
  · refine ⟨[], .inl rfl, fun u is hcfg hc hf hk hd => ?_⟩
    have htake : u.takeRate s = u.writeOutputRate s.kOut := by
      rw [State.takeRate, State.writeOutputRate, hk, ← hr, ← hdel]
    rw [htake]
    exact ⟨_, execAll_cons _ _ _ _ (exec_setOutputRate_accepted u hc hf s.kOut (hcfg ▸ hko) hd)⟩
  · refine ⟨[.setRate s.r], .inr rfl, fun u is hcfg hc hf hk hd => ?_⟩
    have hset := exec_setOutputRate_accepted u hc hf s.kOut (hcfg ▸ hko) hd
    have hdirect := exec_setRate_accepted
      ((u.writeOutputRate s.kOut).answered [responseHeader Opcode.setOutputRate.code .ok 0]) hc hf s.r hr
    have htake : u.takeRate s = (u.writeOutputRate s.kOut).writeRate s.r := by
      rw [State.takeRate, hdel]; rfl
    rw [execAll_cons _ _ _ _ hset, List.singleton_append, execAll_cons _ _ _ _ hdirect, htake]
    exact ⟨_, congrArg _ (State.answered_answered ((u.writeOutputRate s.kOut).writeRate s.r) _ _)⟩

/-- SET_BANDWIDTH with an accepted operand, then LOCK where locked, on an unlocked ready block (43_configuration.md
R180, R199). -/
theorem execAll_bandwidth_lock (u : State) (bt : Word) (locked : Bool) (hc : u.configured = true)
    (hf : u.faulted = false) (hl : u.isLocked = false) (hbt : inUnitInterval bt = true) :
    ∃ ws, execAll (.setBandwidth bt :: (if locked then [.lock] else [])) u =
      .next (((u.writeBandwidth bt).writeLock locked).answered ws) := by
  have hset := exec_setBandwidth_accepted u hc hf bt hbt
  rw [execAll_cons _ _ _ _ hset]
  cases locked with
  | false =>
    have hunlocked : (u.writeBandwidth bt).writeLock false = u.writeBandwidth bt := by
      rw [State.writeLock, ← hl]; rfl
    rw [hunlocked]
    exact ⟨_, rfl⟩
  | true =>
    have hlock := exec_lock_ready
      ((u.writeBandwidth bt).answered [responseHeader Opcode.setBandwidth.code .ok 0]) hc hf
    rw [if_pos rfl, execAll_cons _ _ _ _ hlock]
    exact ⟨_, congrArg _ (State.answered_answered ((u.writeBandwidth bt).writeLock true) _ _)⟩

/-- The block that a construction and the configuration commands build from the settings of `s`, in the state `o`. -/
def State.reconstruct (s o : State) : State :=
  (((o.install s.k s.npfb s.l s.h).takeRate s).writeBandwidth s.bt).writeLock s.isLocked

/-- RESET leaves a reconstruction's registers and memories: the invariant makes every kept register that no command
sets directly the one that is computed from those that are set (43_configuration.md R213, 10_state.md R23, R31, R37). -/
theorem State.reconstruct_registers (s o : State) (h : s.installedWf) (hcfg : o.cfg = s.cfg) :
    (s.reconstruct o).registers = s.resetLoop.registers := by
  obtain ⟨-, hc, hp⟩ := h
  obtain ⟨hconfig, -, hbw, -, hco, -⟩ := s.persistentWf_iff.mp hp
  simp only [State.configWf, State.bandwidthWf, State.coefficientsWf, Bool.and_eq_true, beq_iff_eq] at hconfig hbw hco
  obtain ⟨-, hlen⟩ := hconfig
  obtain ⟨⟨-, halpha⟩, hbeta⟩ := hbw
  obtain ⟨-, hdh⟩ := hco
  simp [State.reconstruct, State.takeRate, State.registers, hc, hcfg, ← hlen, ← halpha, ← hbeta, ← hdh]

/-- The commands of R213 build the reconstruction on any block with the same parameters. -/
theorem execAll_reconstruct (s : State) (h : s.installedWf) :
    ∃ rate : List Instr, (rate = [] ∨ rate = [.setRate s.r]) ∧
      ∀ o : State, o.cfg = s.cfg →
        ∃ ws, execAll
            (.construct s.k s.npfb s.l s.h :: .setOutputRate s.kOut ::
              (rate ++ .setBandwidth s.bt :: (if s.isLocked then [.lock] else []))) o =
          .next ((s.reconstruct o).answered ws) := by
  obtain ⟨-, -, hp⟩ := h
  obtain ⟨hconfig, hrate, hbw, -, hco, -⟩ := s.persistentWf_iff.mp hp
  simp only [State.configWf, State.bandwidthWf, State.coefficientsWf, Bool.and_eq_true, decide_eq_true_eq]
    at hconfig hbw hco
  obtain ⟨⟨⟨⟨⟨hk, hn⟩, hko⟩, hl⟩, hlmax⟩, -⟩ := hconfig
  obtain ⟨⟨hbt, -⟩, -⟩ := hbw
  obtain ⟨hfin, -⟩ := hco
  obtain ⟨rate, hform, hexec⟩ := exists_rate_commands s hrate hko
  refine ⟨rate, hform, fun o hcfg => ?_⟩
  have hconstruct := exec_construct_accepted s.k s.npfb s.l s.h o (hcfg ▸ (kInRange_iff _ _).mp hk)
    (hcfg ▸ (npfbInRange_iff _ _).mp hn) (hcfg ▸ ⟨hl, hlmax⟩) (List.all_eq_true.mp hfin)
  rw [State.respond_eq] at hconstruct
  obtain ⟨ws, hrated⟩ := hexec ((o.install s.k s.npfb s.l s.h).answered [responseHeader Opcode.construct.code .ok 0])
    (.setBandwidth s.bt :: (if s.isLocked then [.lock] else [])) (by simp [hcfg]) (by simp) (by simp) (by simp)
    (by simp)
  obtain ⟨ws', hlast⟩ := execAll_bandwidth_lock
    ((((o.install s.k s.npfb s.l s.h).answered [responseHeader Opcode.construct.code .ok 0]).takeRate s).answered ws)
    s.bt s.isLocked (by simp) (by simp) (by simp) hbt
  refine ⟨[responseHeader Opcode.construct.code .ok 0] ++ ws ++ ws', ?_⟩
  rw [execAll_cons _ _ _ _ hconstruct, hrated, hlast, ← State.answered_answered, ← State.answered_answered]
  rfl

/-- Settles O54: RESET and the reconstruction leave the same registers (`State.reconstruct_registers`), and an EXECUTE
answers by those alone (`exec_execute_words_congr`). -/
theorem resetEqualsReconstruction : Obligations.ResetEqualsReconstruction := by
  unfold Obligations.ResetEqualsReconstruction
  intro s hw hc
  have hinst := s.installedWf_of_wf hw hc
  obtain ⟨rate, hform, hexec⟩ := execAll_reconstruct s hinst
  refine ⟨rate, hform, fun o hcfg => ?_⟩
  obtain ⟨ws, hrec⟩ := hexec o hcfg
  have hregisters := s.reconstruct_registers o hinst hcfg
  have hanswered (ws' : List Word) :
      ((s.reconstruct o).answered ws).registers = (s.resetLoop.answered ws').registers := by
    rw [State.registers_answered, State.registers_answered, hregisters]
  exact ⟨_, _, exec_reset_configured s hc, hrec, hanswered _,
    fun xs => exec_execute_words_congr _ _ xs (by simp [hc]) (by simp) (hanswered _)⟩

end Sys2Proof.Machine
end

section
/-! PROOFS. What a command answers, and what it does to the fault record (60_exceptions.md R218 to R228). -/

namespace Sys2Proof.Machine

/-! ## Rejections -/

/-- The statuses with which a command of this opcode is rejected (60_exceptions.md R223); INPUT_NONFINITE rejects a
STEP, while an EXECUTE that answers it has run in part (R224). -/
def Status.rejects (opc : Opcode) : Status → Bool
  | .configError | .illegalCommand | .notConfigured | .faulted => true
  | .inputNonfinite => opc == .step
  | .ok | .burstOverflow | .branchRange | .numeric => false

theorem Status.rejects_faultStatus (opc : Opcode) (c : FaultCause) : (faultStatus c).rejects opc = false := by
  cases c <;> rfl

/-- The rejecting statuses by their codes (60_exceptions.md R215). -/
theorem Status.rejects_of_statusCode (opc : Opcode) (st : Status)
    (h : (statusCode st).toNat ∈ [0x01, 0x02, 0x03, 0x04] ∨ ((statusCode st).toNat = 0x05 ∧ opc.code = 0x10)) :
    st.rejects opc = true := by
  cases st with
  | configError | illegalCommand | notConfigured | faulted => rfl
  | inputNonfinite =>
    have hcode : opc.code = Opcode.step.code := (h.resolve_left (by decide)).2
    rw [(Opcode.code_inj opc .step).mp hcode]
    rfl
  | ok | burstOverflow | branchRange | numeric => exact absurd h (by simp [statusCode])

/-- The header of a response that reports a runtime fault carries the fault code as its status (60_exceptions.md
R225). -/
theorem responseHeader_faultCode (opc : Byte) (c : FaultCause) :
    responseHeader opc (faultStatus c) 0 = opc ++ faultCode c ++ (0 : BitVec 16) := by
  apply BitVec.eq_of_toNat_eq
  simp only [responseHeader_toNat, toNat_append_bits, faultCode, BitVec.ofNat_eq_ofNat, BitVec.toNat_ofNat]
  omega

/-! ## STEP and EXECUTE -/

/-- Everything a STEP or EXECUTE can answer: a rejection; a response with the samples emitted, after changes to the
histories and the loop registers alone; or, from a block that is not faulted, the same with a runtime fault taken
(41_step.md R130, R150, 60_exceptions.md R223 to R226). -/
inductive State.BurstAnswer (s : State) (opc : Opcode) : State → Prop
  | rejected (st : Status) (hst : st.rejects opc = true) : s.BurstAnswer opc (s.reject opc.code st)
  | delivered (u : State) (st : Status) (ys : List Num) (hframe : s.batchFrame u) (hst : st.rejects opc = false) :
    s.BurstAnswer opc (u.respond opc.code st (burstPayload ys))
  | raised (u : State) (c : FaultCause) (ys : List Num) (hframe : s.batchFrame u) (hf : s.faulted = false) :
    s.BurstAnswer opc ((u.enterFault c).respond opc.code (faultStatus c) (burstPayload ys))

/-- The common checks reject, or the block is not faulted (43_configuration.md R179). -/
theorem whenReady_burstAnswer (opc : Opcode) (s : State) (f : State → State)
    (h : s.faulted = false → s.BurstAnswer opc (f s)) : s.BurstAnswer opc (whenReady opc s f) := by
  obtain ⟨-, e⟩ | ⟨-, -, e⟩ | ⟨-, hf, e⟩ := whenReady_cases opc s f <;> rw [e]
  · exact .rejected .notConfigured rfl
  · exact .rejected .faulted rfl
  · exact h hf

theorem finishStep_burstAnswer (room : Nat) (s : State) (x : Num) (hf : s.faulted = false) :
    s.BurstAnswer .step (finishStep (stepCore room s x)) := by
  obtain ⟨t, ys, e, ht, -⟩ | ⟨c, t, ys, e, ht, -⟩ := stepCore_frame room s x <;> rw [e]
  · exact .delivered t .ok ys (s.batchFrame_of_push t x ht) rfl
  · exact .raised t c ys (s.batchFrame_of_push t x ht) hf

theorem finishBatch_burstAnswer (xs : List Num) (total : Nat) (s : State) (hf : s.faulted = false) :
    s.BurstAnswer .execute (finishBatch (runBatch xs total s)) := by
  have hframe := runBatch_frame xs total s
  cases e : runBatch xs total s <;> rw [e] at hframe
  case completed t ys => exact .delivered t .ok ys hframe rfl
  case nonfinite t ys => exact .delivered t .inputNonfinite ys hframe rfl
  case raised c t ys => exact .raised t c ys hframe hf

theorem execStep_burstAnswer (x : Num) (s : State) : ∃ t, execStep x s = .next t ∧ s.BurstAnswer .step t := by
  refine ⟨_, rfl, whenReady_burstAnswer .step s _ fun hf => ?_⟩
  split
  · exact .rejected .inputNonfinite rfl
  · exact finishStep_burstAnswer s.cfg.maxBurst s x hf

theorem execExecute_burstAnswer (xs : List Num) (s : State) :
    ∃ t, execExecute xs s = .next t ∧ s.BurstAnswer .execute t :=
  ⟨_, rfl, whenReady_burstAnswer .execute s _ (finishBatch_burstAnswer xs 0 s)⟩

theorem exec_burstAnswer (i : Instr) (s : State) (h : i.opcode = .step ∨ i.opcode = .execute) :
    ∃ t, exec i s = .next t ∧ s.BurstAnswer i.opcode t := by
  cases i with
  | step x => exact execStep_burstAnswer x s
  | execute xs => exact execExecute_burstAnswer xs s
  | construct | constructDesign | setBandwidth | setOutputRate | setRate | lock | unlock | getTau | readReg | reset =>
    simp [Instr.opcode] at h

/-- Settles O33: the three answers of `State.BurstAnswer`, of which fault entry alone writes the fault record. -/
theorem faultEntryKeepsConfiguration : Obligations.FaultEntryKeepsConfiguration := by
  unfold Obligations.FaultEntryKeepsConfiguration
  intro i s hi
  obtain ⟨t, he, ha⟩ := exec_burstAnswer i s hi
  refine ⟨t, he, ?_⟩
  cases ha with
  | rejected st hst => exact ⟨id, fun _ => rfl, fun hf hf' => absurd (hf.symm.trans hf') (by decide)⟩
  | delivered u st ys hframe hst =>
    rw [hframe]
    exact ⟨id, fun _ => rfl, fun hf hf' => absurd (hf.symm.trans hf') (by decide)⟩
  | raised u c ys hframe hf =>
    refine ⟨fun _ => rfl, fun hf' => absurd (show true = false from hf'.trans hf) (by decide),
      fun _ _ => ⟨?_, ?_, ys, ?_⟩⟩
    · rw [hframe]
      rfl
    · show (faultCode c).toNat ∈ [0x10, 0x11, 0x12]
      cases c <;> decide
    · rw [State.respond_eq, responseHeader_faultCode, hframe]
      rfl

/-! ## Every command -/

/-- Everything a command can answer, by what it does to the fault record: a rejection changes nothing but the response
stream (60_exceptions.md R223); a command that is not rejected keeps the record, or is a STEP or EXECUTE that takes a
fault (R225, R226), or a RESET or construction that leaves the faulted state (R228). -/
inductive State.Answer (s : State) (opc : Opcode) : State → Prop
  | rejected (st : Status) (d : Byte) (hst : st.rejects opc = true) :
    s.Answer opc (s.answered (responseHeader opc.code st d :: rejectPayload opc.code))
  | kept (u : State) (st : Status) (payload : List Word) (hout : u.output = s.output) (hf : u.faulted = s.faulted)
    (hcause : u.faultCause = s.faultCause) (hst : st.rejects opc = false) : s.Answer opc (u.respond opc.code st payload)
  | raised (u : State) (c : FaultCause) (payload : List Word) (hopc : opc = .step ∨ opc = .execute)
    (hf : s.faulted = false) (hout : u.output = s.output) :
    s.Answer opc ((u.enterFault c).respond opc.code (faultStatus c) payload)
  | cleared (u : State) (hopc : opc = .reset ∨ opc = .construct ∨ opc = .constructDesign)
    (hout : u.output = s.output) (hf : u.faulted = false) (hcause : u.faultCause = 0) :
    s.Answer opc (u.respond opc.code .ok [])

theorem State.BurstAnswer.answer {s t : State} {opc : Opcode} (hopc : opc = .step ∨ opc = .execute)
    (h : s.BurstAnswer opc t) : s.Answer opc t := by
  cases h with
  | rejected st hst => exact .rejected st 0 hst
  | delivered u st ys hframe hst =>
    rw [hframe]
    exact .kept _ st _ rfl rfl rfl hst
  | raised u c ys hframe hf => exact .raised u c _ hopc hf (by rw [hframe])

/-- A rejection without the count of STEP and EXECUTE (60_exceptions.md R222, R223). -/
theorem State.answer_configError (s : State) (opc : Opcode) (d : Detail) (hp : rejectPayload opc.code = []) :
    s.Answer opc (s.configError opc d) := by
  rw [State.configError_eq, ← hp]
  exact .rejected .configError (detailCode d) rfl

/-- The common checks reject (43_configuration.md R179). -/
theorem whenReady_answer (opc : Opcode) (s : State) (f : State → State) (h : s.Answer opc (f s)) :
    s.Answer opc (whenReady opc s f) := by
  obtain ⟨-, e⟩ | ⟨-, -, e⟩ | ⟨-, -, e⟩ := whenReady_cases opc s f <;> rw [e]
  · exact .rejected .notConfigured 0 rfl
  · exact .rejected .faulted 0 rfl
  · exact h

theorem exec_answer (i : Instr) (s : State) : ∃ t, exec i s = .next t ∧ s.Answer i.opcode t := by
  cases i with
  | construct k npfb l coefs =>
    obtain ⟨d, e⟩ | e := execConstruct_cases k npfb l coefs s <;> refine ⟨_, e, ?_⟩
    · exact s.answer_configError .construct d rfl
    · exact .cleared _ (.inr (.inl rfl)) rfl rfl rfl
  | constructDesign ftype k m ebw npfb =>
    obtain ⟨d, e⟩ | ⟨l, c, e⟩ := execConstructDesign_cases ftype k m ebw npfb s <;> refine ⟨_, e, ?_⟩
    · exact s.answer_configError .constructDesign d rfl
    · exact .cleared _ (.inr (.inr rfl)) rfl rfl rfl
  | step x =>
    obtain ⟨t, e, h⟩ := execStep_burstAnswer x s
    exact ⟨t, e, h.answer (.inl rfl)⟩
  | execute xs =>
    obtain ⟨t, e, h⟩ := execExecute_burstAnswer xs s
    exact ⟨t, e, h.answer (.inr rfl)⟩
  | setBandwidth _ | setOutputRate _ | setRate _ =>
    refine ⟨_, rfl, whenReady_answer _ s _ ?_⟩
    split
    · exact s.answer_configError _ _ rfl
    · exact .kept _ .ok [] rfl rfl rfl rfl
  | lock | unlock => exact ⟨_, rfl, whenReady_answer _ s _ (.kept _ .ok [] rfl rfl rfl rfl)⟩
  | getTau => exact ⟨_, rfl, whenReady_answer .getTau s _ (.kept s .ok [s.tau] rfl rfl rfl rfl)⟩
  | readReg idx =>
    refine ⟨_, rfl, ?_⟩
    repeat' split
    · exact .rejected .illegalCommand 0 rfl
    · exact .rejected .notConfigured 0 rfl
    · exact .kept s .ok _ rfl rfl rfl rfl
  | reset =>
    refine ⟨_, rfl, ?_⟩
    split
    · exact .rejected .notConfigured 0 rfl
    · exact .cleared _ (.inl rfl) rfl rfl rfl

/-! ## A rejected command -/

/-- A response is read back off the end of the response stream. -/
theorem State.answered_output_inj {s t : State} {w h : Word} {ws payload : List Word} (hts : t.output = s.output)
    (e : (t.answered (w :: ws)).output = s.output ++ h :: payload) : w = h ∧ ws = payload := by
  rw [State.answered_output, hts] at e
  exact List.cons.inj (List.append_cancel_left e)

/-- A command that answered with a rejecting status was rejected: no other answer carries one (60_exceptions.md
R223). -/
theorem State.Answer.eq_answered_of_rejecting {s t : State} {opc : Opcode} {h : Word} {payload : List Word}
    (ha : s.Answer opc t) (ho : t.output = s.output ++ h :: payload)
    (hst : ∀ st, headerSub h = statusCode st → st.rejects opc = true) :
    t = s.answered (h :: payload) ∧ payload = rejectPayload opc.code := by
  cases ha with
  | rejected st d _ =>
    obtain ⟨rfl, rfl⟩ := State.answered_output_inj rfl ho
    exact ⟨rfl, rfl⟩
  | kept u st ws hout _ _ hnot =>
    obtain ⟨rfl, -⟩ := State.answered_output_inj hout ho
    exact absurd (hnot.symm.trans (hst st (headerSub_responseHeader ..))) (by decide)
  | raised u c ws _ _ hout =>
    obtain ⟨rfl, -⟩ := State.answered_output_inj (t := u.enterFault c) hout ho
    exact absurd ((Status.rejects_faultStatus opc c).symm.trans (hst _ (headerSub_responseHeader ..))) (by decide)
  | cleared u _ hout _ _ =>
    obtain ⟨rfl, -⟩ := State.answered_output_inj hout ho
    exact absurd (show false = true from hst .ok (headerSub_responseHeader ..)) (by decide)

/-- Settles O12: an illegal encoding is rejected by the decoder, and of a command's answers only the rejection carries
a rejecting status. -/
theorem rejectionChangesNothing : Obligations.RejectionChangesNothing := by
  unfold Obligations.RejectionChangesNothing
  intro s t opc n h payload hl hd hstep ho hst
  show t = (s.consume n).answered (h :: payload) ∧ payload = rejectPayload opc
  obtain ⟨i, hi, rfl⟩ | ⟨why, hill⟩ := hd
  · obtain ⟨u, he, ha⟩ := exec_answer i (s.consume n)
    cases ((step_of_command s i n hl hi).trans he).symm.trans hstep
    refine ha.eq_answered_of_rejecting ho fun st hcode => Status.rejects_of_statusCode i.opcode st ?_
    rwa [← hcode, headerSub_toNat]
  · cases (step_of_illegal s why opc n hl hill).symm.trans hstep
    obtain ⟨rfl, rfl⟩ := State.answered_output_inj (t := s.consume n) rfl ho
    exact ⟨rfl, rfl⟩

/-! ## The fault record along a step -/

theorem State.Answer.faultRecord {s t : State} {opc : Opcode} (h : s.Answer opc t) :
    (t.faulted = s.faulted ∧ t.faultCause = s.faultCause) ∨
      (s.faulted = false ∧ t.faulted = true ∧ (opc = .step ∨ opc = .execute)) ∨
      (t.faulted = false ∧ t.faultCause = 0 ∧ (opc = .reset ∨ opc = .construct ∨ opc = .constructDesign) ∧
        t.output = s.output ++ [responseHeader opc.code .ok 0]) := by
  cases h with
  | rejected st d _ => exact .inl ⟨rfl, rfl⟩
  | kept u st ws _ hf hcause _ => exact .inl ⟨hf, hcause⟩
  | raised u c ws hopc hf _ => exact .inr (.inl ⟨hf, rfl, hopc⟩)
  | cleared u hopc hout hf hcause => exact .inr (.inr ⟨hf, hcause, hopc, congrArg (· ++ _) hout⟩)

/-- A step keeps the fault record, or ran a command that entered or left the faulted state: a rejected frame and a wait
keep it (60_exceptions.md R225, R228). -/
theorem step_faultRecord (s t : State) (h : step s = .next t) :
    (t.faulted = s.faulted ∧ t.faultCause = s.faultCause) ∨
      ∃ i n, decode s.cfg s.input = .command i n ∧
        ((s.faulted = false ∧ t.faulted = true ∧ (i.opcode = .step ∨ i.opcode = .execute)) ∨
          (t.faulted = false ∧ t.faultCause = 0 ∧
            (i.opcode = .reset ∨ i.opcode = .construct ∨ i.opcode = .constructDesign) ∧
            t.output = s.output ++ [responseHeader i.opcode.code .ok 0])) := by
  obtain ⟨i, n, hd, e⟩ | ⟨opc, n, e⟩ | e := step_cases s (legal_of_step_next s t h)
  · obtain ⟨u, he, ha⟩ := exec_answer i (s.consume n)
    cases (e.trans he).symm.trans h
    exact ha.faultRecord.imp_right fun hmoved => ⟨i, n, hd, hmoved⟩
  · cases e.symm.trans h
    exact .inl ⟨rfl, rfl⟩
  · cases e.symm.trans h
    exact .inl ⟨rfl, rfl⟩

/-- Settles O60: the three ways of `step_faultRecord`, with the OK headers of the commands that clear the record. -/
theorem faultIsLeftOnlyByResetOrConstruction : Obligations.FaultIsLeftOnlyByResetOrConstruction := by
  unfold Obligations.FaultIsLeftOnlyByResetOrConstruction
  intro s t h
  obtain ⟨hf, hcause⟩ | ⟨i, n, hd, ⟨hs, ht, hopc⟩ | ⟨ht, hcause, hopc, hout⟩⟩ := step_faultRecord s t h
  · rw [hf]
    exact ⟨fun _ _ => hcause, fun h h' => absurd (h.symm.trans h') (by decide),
      fun h h' => absurd (h.symm.trans h') (by decide)⟩
  · rw [hs, ht]
    exact ⟨fun h => absurd h (by decide), fun h => absurd h (by decide), fun _ _ => ⟨i, n, hd, hopc⟩⟩
  · rw [ht]
    refine ⟨fun _ h => absurd h (by decide), fun _ _ => ⟨hcause, i, n, hd, ?_⟩, fun _ h => absurd h (by decide)⟩
    rw [hout]
    obtain e | e | e := hopc <;> rw [e]
    · exact .inl ⟨rfl, rfl⟩
    · exact .inr (.inl ⟨rfl, rfl⟩)
    · exact .inr (.inr ⟨rfl, rfl⟩)

end Sys2Proof.Machine
end

section
/-! PROOFS. The commands that an unconfigured and a faulted block reject (60_exceptions.md R218, R219). -/

namespace Sys2Proof.Machine

/-- RESET has the first common check alone (43_configuration.md R212). -/
theorem exec_reset_unconfigured (s : State) (hc : s.configured = false) :
    exec .reset s = .next (s.reject Opcode.reset.code .notConfigured) :=
  congrArg Host.Outcome.next (if_pos hc)

/-- READ_REG of a defined index on an unconfigured block (60_exceptions.md R218). -/
theorem exec_readReg_unconfigured (s : State) (idx : Byte) (w : Word) (hw : regWord s idx = some w)
    (hc : s.configured = false) :
    exec (.readReg idx) s =
      .next (if readableUnconfigured idx = false then s.reject Opcode.readReg.code .notConfigured
        else s.respond Opcode.readReg.code .ok [w]) := by
  simp only [exec, execReadReg, hw, hc, true_and]

/-- Settles O14: the first common check rejects, and RESET and READ_REG have checks of their own. -/
theorem unconfiguredRejects : Obligations.UnconfiguredRejects := by
  unfold Obligations.UnconfiguredRejects
  intro s hc
  refine ⟨fun x => congrArg _ (whenReady_unconfigured .step s _ hc),
    fun xs => congrArg _ (whenReady_unconfigured .execute s _ hc),
    fun bt => congrArg _ (whenReady_unconfigured .setBandwidth s _ hc),
    fun ko => congrArg _ (whenReady_unconfigured .setOutputRate s _ hc),
    fun rate => congrArg _ (whenReady_unconfigured .setRate s _ hc),
    congrArg _ (whenReady_unconfigured .lock s _ hc), congrArg _ (whenReady_unconfigured .unlock s _ hc),
    congrArg _ (whenReady_unconfigured .getTau s _ hc), exec_reset_unconfigured s hc, fun idx hlt h11 h12 => ?_,
    exec_readReg_unconfigured s 0x11 _ rfl hc, exec_readReg_unconfigured s 0x12 _ rfl hc⟩
  have hw : regWord s idx = some (registerMap s)[idx.toNat] := by
    rw [regWord_eq_getElem?, List.getElem?_eq_getElem hlt]
  have hread : readableUnconfigured idx = false := by
    rw [readableUnconfigured, beq_eq_false_iff_ne.mpr h11, beq_eq_false_iff_ne.mpr h12]
    rfl
  rw [exec_readReg_unconfigured s idx _ hw hc, if_pos hread]
  rfl

/-- Settles O15: the second common check rejects, and neither READ_REG nor RESET has it. -/
theorem faultedRejects : Obligations.FaultedRejects := by
  unfold Obligations.FaultedRejects
  intro s hc hf
  refine ⟨fun x => congrArg _ (whenReady_faulted .step s _ hc hf),
    fun xs => congrArg _ (whenReady_faulted .execute s _ hc hf),
    fun bt => congrArg _ (whenReady_faulted .setBandwidth s _ hc hf),
    fun ko => congrArg _ (whenReady_faulted .setOutputRate s _ hc hf),
    fun rate => congrArg _ (whenReady_faulted .setRate s _ hc hf),
    congrArg _ (whenReady_faulted .lock s _ hc hf), congrArg _ (whenReady_faulted .unlock s _ hc hf),
    congrArg _ (whenReady_faulted .getTau s _ hc hf), fun idx w hw => ?_,
    ⟨_, exec_reset_configured s hc, rfl, rfl, rfl⟩⟩
  rw [exec_readReg_configured s idx hc, ← regWord_eq_getElem?, hw]
  rfl

end Sys2Proof.Machine
end

section
/-! PROOFS. No command reads the streams or the command position (70_reset_and_hazards.md R258, 20_memory.md R69). -/

namespace Sys2Proof.Machine

/-! ## Bursts and batches -/

/-- A batch with other word streams and another command position in the state it ends in. -/
def Batch.withStreams (input : List Word) (pos : Nat) (output : List Word) : Batch → Batch
  | .completed s ys => .completed (s.withStreams input pos output) ys
  | .nonfinite s ys => .nonfinite (s.withStreams input pos output) ys
  | .raised c s ys => .raised c (s.withStreams input pos output) ys

/-- A state with the same registers and memories is the same state with other streams (10_state.md R17, R18). -/
theorem State.eq_withStreams (s s' : State) (h : s.arch = s'.arch) : s' = s.withStreams s'.input s'.pos s'.output :=
  show s'.arch.withStreams s'.input s'.pos s'.output = s.arch.withStreams s'.input s'.pos s'.output by rw [h]

section
variable (input : List Word) (pos : Nat) (output : List Word)

theorem Batch.withStreams_prepend (front : List Num) (batch : Batch) :
    (batch.prepend front).withStreams input pos output = (batch.withStreams input pos output).prepend front := by
  cases batch <;> rfl

/-- EXECUTE's sample loop neither reads nor writes the streams (70_reset_and_hazards.md R258). -/
theorem runBatch_withStreams (xs : List Num) (total : Nat) (s : State) :
    runBatch xs total (s.withStreams input pos output) = (runBatch xs total s).withStreams input pos output := by
  induction xs generalizing total s with
  | nil => rfl
  | cons x xs ih =>
    have hcore := stepCore_withStreams input pos output (roomFor s.cfg total) s x
    cases hx : numFinite x with
    | false =>
      rw [runBatch_nonfinite x xs total s hx, runBatch_nonfinite x xs total _ hx]
      rfl
    | true =>
      cases e : stepCore (roomFor s.cfg total) s x <;> rw [e] at hcore
      case completed t ys =>
        rw [runBatch_completed x xs total s t ys hx e, runBatch_completed x xs total _ _ ys hx hcore, ih,
          Batch.withStreams_prepend]
      case raised c t ys =>
        rw [runBatch_raised x xs total s t c ys hx e, runBatch_raised x xs total _ _ c ys hx hcore]
        rfl

end

/-! ## Answers on other streams -/

/-- From `s` and `s'` two results go on, with the same words at the end of each response stream and to states that agree
on everything but the streams. -/
def AnswersAlike (s s' : State) (r r' : Result) : Prop :=
  ∃ (t t' : State) (ws : List Word), r = .next t ∧ r' = .next t' ∧ t.arch = t'.arch ∧ t.output = s.output ++ ws ∧
    t'.output = s'.output ++ ws

/-- States that agree on everything but the streams, each with the same response sent. -/
theorem AnswersAlike.of_answered (s s' u u' : State) (ws : List Word) (harch : u.arch = u'.arch)
    (ho : u.output = s.output) (ho' : u'.output = s'.output) :
    AnswersAlike s s' (.next (u.answered ws)) (.next (u'.answered ws)) :=
  ⟨_, _, ws, rfl, rfl, harch, congrArg (· ++ ws) ho, congrArg (· ++ ws) ho'⟩

section
variable {s : State} {input : List Word} {pos : Nat} {output : List Word}

/-- A response to the state itself, as a rejection is (60_exceptions.md R223). -/
theorem AnswersAlike.answered (ws : List Word) :
    AnswersAlike s (s.withStreams input pos output) (.next (s.answered ws))
      (.next ((s.withStreams input pos output).answered ws)) :=
  .of_answered s _ s _ ws rfl rfl rfl

/-- STEP_CORE and the answer to its burst do not see the streams (41_step.md R130, R131). -/
theorem finishStep_answersAlike (room : Nat) (x : Num) :
    AnswersAlike s (s.withStreams input pos output) (.next (finishStep (stepCore room s x)))
      (.next (finishStep (stepCore room (s.withStreams input pos output) x))) := by
  have ho := stepCore_left_output room s x
  rw [stepCore_withStreams]
  cases e : stepCore room s x <;> rw [e] at ho <;> exact .of_answered _ _ _ _ _ rfl ho rfl

/-- Nor do the sample loop of an EXECUTE and the answer to its batch (41_step.md R150). -/
theorem finishBatch_answersAlike (xs : List Num) :
    AnswersAlike s (s.withStreams input pos output) (.next (finishBatch (runBatch xs 0 s)))
      (.next (finishBatch (runBatch xs 0 (s.withStreams input pos output)))) := by
  have ho := runBatch_left_output xs 0 s
  rw [runBatch_withStreams]
  cases e : runBatch xs 0 s <;> rw [e] at ho <;> exact .of_answered _ _ _ _ _ rfl ho rfl

/-- Nor do the common checks (43_configuration.md R179). -/
theorem whenReady_answersAlike (opc : Opcode) (f : State → State)
    (h : AnswersAlike s (s.withStreams input pos output) (.next (f s)) (.next (f (s.withStreams input pos output)))) :
    AnswersAlike s (s.withStreams input pos output) (.next (whenReady opc s f))
      (.next (whenReady opc (s.withStreams input pos output) f)) := by
  obtain ⟨hc, e⟩ | ⟨hc, hf, e⟩ | ⟨hc, hf, e⟩ := whenReady_cases opc s f <;> rw [e]
  · rw [whenReady_unconfigured opc (s.withStreams input pos output) f hc]
    exact .answered _
  · rw [whenReady_faulted opc (s.withStreams input pos output) f hc hf]
    exact .answered _
  · rwa [whenReady_ready opc (s.withStreams input pos output) f hc hf]

/-- Nor does the operand check of a configuration command (43_configuration.md R180, R186, R193). -/
theorem checkedWrite_answersAlike (opc : Opcode) (d : Detail) (accepts : Config → Bool) (write : State → State)
    (harch : (write s).arch = (write (s.withStreams input pos output)).arch) (ho : (write s).output = s.output)
    (ho' : (write (s.withStreams input pos output)).output = output) :
    AnswersAlike s (s.withStreams input pos output) (.next (checkedWrite opc d accepts write s))
      (.next (checkedWrite opc d accepts write (s.withStreams input pos output))) := by
  have hcfg : (s.withStreams input pos output).cfg = s.cfg := rfl
  rw [checkedWrite, checkedWrite, hcfg]
  split_ifs
  · exact .answered _
  · exact .of_answered _ _ _ _ _ harch ho ho'

end

/-! ## The constructions -/

/-- DESIGN's answer is judged without the state (40_construction.md R120). -/
theorem State.installDesigned_cases (k npfb : Word) (n : Nat) (answer : Option (List Num)) :
    (∃ d, ∀ s : State, s.installDesigned k npfb n answer = s.configError .constructDesign d) ∨
      ∃ l c, ∀ s : State, s.installDesigned k npfb n answer =
        (s.install k npfb l c).respond Opcode.constructDesign.code .ok [] := by
  by_cases h : answer = none ∨ ∃ c, answer = some c ∧ (c.length ≠ n ∨ ∃ x ∈ c, numFinite x = false)
  · exact .inl ⟨_, fun s => s.installDesigned_rejected k npfb n answer h⟩
  · cases answer with
    | none => exact absurd (.inl rfl) h
    | some c =>
      obtain ⟨hlen, hfin⟩ : c.length = n ∧ ∀ x ∈ c, numFinite x = true := by simpa using h
      exact .inr ⟨_, c, fun s => s.installDesigned_of_finite k npfb n c hlen hfin⟩

/-- The two ways of a construction are decided by its operands and the parameters alone (40_construction.md R110,
R120). -/
theorem exec_construction_congr (i : Instr) (s s' : State) (h : i.opcode = .construct ∨ i.opcode = .constructDesign)
    (hcfg : s.cfg = s'.cfg) :
    (∃ d, exec i s = .next (s.configError i.opcode d) ∧ exec i s' = .next (s'.configError i.opcode d)) ∨
      ∃ k npfb l c, exec i s = .next ((s.install k npfb l c).respond i.opcode.code .ok []) ∧
        exec i s' = .next ((s'.install k npfb l c).respond i.opcode.code .ok []) := by
  cases i with
  | construct k npfb l coefs =>
    rw [exec_construct_eq, exec_construct_eq, ← hcfg]
    split_ifs
    case neg => exact .inr ⟨_, _, _, _, rfl, rfl⟩
    all_goals exact .inl ⟨_, rfl, rfl⟩
  | constructDesign ftype k m ebw npfb =>
    rw [exec_constructDesign_eq, exec_constructDesign_eq, ← hcfg]
    split_ifs
    case neg =>
      obtain ⟨d, e⟩ | ⟨l, c, e⟩ := State.installDesigned_cases k npfb (designLength k m npfb)
        (designCoefs s.cfg ftype (k.toNat * npfb.toNat) m.toNat ebw)
      · exact .inl ⟨d, congrArg _ (e s), congrArg _ (e s')⟩
      · exact .inr ⟨k, npfb, l, c, congrArg _ (e s), congrArg _ (e s')⟩
    all_goals exact .inl ⟨_, rfl, rfl⟩
  | step | execute | setBandwidth | setOutputRate | setRate | lock | unlock | getTau | readReg | reset =>
    simp [Instr.opcode] at h

/-! ## Every command -/

section
variable {s : State} {input : List Word} {pos : Nat} {output : List Word}

theorem exec_construction_answersAlike (i : Instr) (h : i.opcode = .construct ∨ i.opcode = .constructDesign) :
    AnswersAlike s (s.withStreams input pos output) (exec i s) (exec i (s.withStreams input pos output)) := by
  obtain ⟨d, e, e'⟩ | ⟨k, npfb, l, c, e, e'⟩ := exec_construction_congr i s (s.withStreams input pos output) h rfl
  all_goals rw [e, e']
  · exact .answered _
  · exact .of_answered _ _ _ _ _ rfl rfl rfl

/-- No command reads the streams or the command position, or writes anything but its response to them
(70_reset_and_hazards.md R258). -/
theorem exec_answersAlike (i : Instr) :
    AnswersAlike s (s.withStreams input pos output) (exec i s) (exec i (s.withStreams input pos output)) := by
  cases i with
  | construct => exact exec_construction_answersAlike _ (.inl rfl)
  | constructDesign => exact exec_construction_answersAlike _ (.inr rfl)
  | step x =>
    refine whenReady_answersAlike .step _ ?_
    cases hx : numFinite x with
    | false => exact .answered _
    | true => exact finishStep_answersAlike _ x
  | execute xs => exact whenReady_answersAlike .execute _ (finishBatch_answersAlike xs)
  | setBandwidth bt =>
    exact whenReady_answersAlike .setBandwidth _
      (checkedWrite_answersAlike .setBandwidth .btRange (fun _ => inUnitInterval bt) (·.writeBandwidth bt) rfl rfl rfl)
  | setOutputRate ko =>
    exact whenReady_answersAlike .setOutputRate _
      (checkedWrite_answersAlike .setOutputRate .kOutRange (kOutInRange · ko)
        (fun s => (s.writeOutputRate ko).clampDecim ko) rfl rfl rfl)
  | setRate rate =>
    exact whenReady_answersAlike .setRate _
      (checkedWrite_answersAlike .setRate .rateRange (fun _ => rateInRange rate) (·.writeRate rate) rfl rfl rfl)
  | lock => exact whenReady_answersAlike .lock _ (.of_answered _ _ _ _ _ rfl rfl rfl)
  | unlock => exact whenReady_answersAlike .unlock _ (.of_answered _ _ _ _ _ rfl rfl rfl)
  | getTau => exact whenReady_answersAlike .getTau _ (.answered _)
  | readReg idx =>
    have hreg : regWord (s.withStreams input pos output) idx = regWord s idx := rfl
    have hc : (s.withStreams input pos output).configured = s.configured := rfl
    rw [exec, exec, execReadReg, execReadReg, hreg, hc]
    cases regWord s idx with
    | none => exact .answered _
    | some w =>
      dsimp only
      split_ifs
      · exact .answered _
      · exact .answered _
  | reset =>
    cases hc : s.configured with
    | false =>
      rw [exec_reset_unconfigured s hc, exec_reset_unconfigured (s.withStreams input pos output) hc]
      exact .answered _
    | true =>
      rw [exec_reset_configured s hc, exec_reset_configured (s.withStreams input pos output) hc]
      exact .of_answered _ _ _ _ _ rfl rfl rfl

end

/-- Settles O56: the second state is the first on other streams (`State.eq_withStreams`). -/
theorem responseDependsOnStateAlone : Obligations.ResponseDependsOnStateAlone := by
  unfold Obligations.ResponseDependsOnStateAlone
  intro i s s' h
  rw [s.eq_withStreams s' h]
  exact exec_answersAlike i

end Sys2Proof.Machine
end

section
/-! PROOFS. Power-on, and what a construction leaves of the past (70_reset_and_hazards.md R240, R241). -/

namespace Sys2Proof.Machine

/-! ## The power-on state -/

/-- Settles O57: the power-on state is one concrete state. -/
theorem invariantHoldsAtReset : Obligations.InvariantHoldsAtReset := by
  unfold Obligations.InvariantHoldsAtReset
  decide

/-- Settles O13: the power-on values are the model's own, and the step is that of the decoded command
(`step_of_command`). -/
theorem powerOnIsUnconfigured : Obligations.PowerOnIsUnconfigured := by
  unfold Obligations.PowerOnIsUnconfigured
  refine ⟨rfl, rfl, rfl, rfl, rfl, fun i rest h => ?_⟩
  have hlegal : State.reset.cfg.legal = true := by decide
  have hpos : State.reset.pos = 0 := rfl
  have hinput : State.reset.input = [] := rfl
  rw [step_of_command (State.reset.deliver (encode i ++ rest)) i _ hlegal h, State.consume, State.deliver_pos,
    State.deliver_input, hpos, hinput, List.nil_append, Nat.zero_add]
  rfl

/-! ## What came before a construction -/

/-- INSTALL writes every register and memory, from the parameters and its operands alone (40_construction.md R115,
70_reset_and_hazards.md R241). -/
theorem State.install_registers_congr (s s' : State) (k npfb l : Word) (c : List Num) (hcfg : s.cfg = s'.cfg) :
    (s.install k npfb l c).registers = (s'.install k npfb l c).registers := by
  simp [State.registers, hcfg]

/-- Settles O23: both states are rejected, with a STATUS that is not OK, or both take the installation. -/
theorem constructForgetsThePast : Obligations.ConstructForgetsThePast := by
  unfold Obligations.ConstructForgetsThePast
  intro i s s' hi hcfg
  obtain ⟨d, e, e'⟩ | ⟨k, npfb, l, c, e, e'⟩ := exec_construction_congr i s s' hi hcfg
  · refine ⟨_, _, responseHeader i.opcode.code .configError (detailCode d), e, e', rfl, rfl, fun hok => ?_⟩
    rw [← headerSub_toNat, headerSub_responseHeader] at hok
    exact absurd hok (by decide)
  · exact ⟨_, _, responseHeader i.opcode.code .ok 0, e, e', rfl, rfl,
      fun _ => ⟨s.install_registers_congr s' k npfb l c hcfg, rfl⟩⟩

/-! ## What an unconfigured block answers -/

/-- STATUS shows only what is specified at power-on: IS_LOCKED is masked (10_state.md R35, 70_reset_and_hazards.md
R240). -/
theorem statusWord_congr_unconfigured (s s' : State) (hc : s.configured = false) (hc' : s'.configured = false)
    (hf : s.faulted = s'.faulted) (hcause : s.faultCause = s'.faultCause) : statusWord s = statusWord s' := by
  simp only [statusWord, hc, hc', hf, hcause, Bool.false_and]

/-- Outside the constructions an unconfigured block only answers, and by the parameters and the fault record alone
(60_exceptions.md R218). -/
theorem exec_unconfigured_congr (i : Instr) (s s' : State)
    (hi : ¬ (i.opcode = .construct ∨ i.opcode = .constructDesign)) (hc : s.configured = false)
    (hc' : s'.configured = false) (hcfg : s.cfg = s'.cfg) (hf : s.faulted = s'.faulted)
    (hcause : s.faultCause = s'.faultCause) :
    ∃ ws, exec i s = .next (s.answered ws) ∧ exec i s' = .next (s'.answered ws) := by
  obtain ⟨hstep, hexecute, hbw, hko, hrate, hlock, hunlock, htau, hreset, hread, hstatus, hparams⟩ :=
    unconfiguredRejects s hc
  obtain ⟨hstep', hexecute', hbw', hko', hrate', hlock', hunlock', htau', hreset', hread', hstatus', hparams'⟩ :=
    unconfiguredRejects s' hc'
  cases i with
  | construct => exact absurd (.inl rfl) hi
  | constructDesign => exact absurd (.inr rfl) hi
  | step x => exact ⟨_, hstep x, hstep' x⟩
  | execute xs => exact ⟨_, hexecute xs, hexecute' xs⟩
  | setBandwidth bt => exact ⟨_, hbw bt, hbw' bt⟩
  | setOutputRate ko => exact ⟨_, hko ko, hko' ko⟩
  | setRate rate => exact ⟨_, hrate rate, hrate' rate⟩
  | lock => exact ⟨_, hlock, hlock'⟩
  | unlock => exact ⟨_, hunlock, hunlock'⟩
  | getTau => exact ⟨_, htau, htau'⟩
  | reset => exact ⟨_, hreset, hreset'⟩
  | readReg idx =>
    by_cases h11 : idx = 0x11
    · subst h11
      rw [← statusWord_congr_unconfigured s s' hc hc' hf hcause] at hstatus'
      exact ⟨_, hstatus, hstatus'⟩
    by_cases h12 : idx = 0x12
    · subst h12
      rw [← congrArg paramsWord hcfg] at hparams'
      exact ⟨_, hparams, hparams'⟩
    by_cases hlt : idx.toNat < 0x14
    · exact ⟨_, hread idx hlt h11 h12, hread' idx hlt h11 h12⟩
    · exact ⟨_, exec_readReg_reserved s idx (not_lt.mp hlt), exec_readReg_reserved s' idx (not_lt.mp hlt)⟩

/-- Settles O16: a construction decides and installs by the parameters alone, and every other command leaves the block
unconfigured (`exec_unconfigured_congr`). -/
theorem powerOnValuesAreNeverRead : Obligations.PowerOnValuesAreNeverRead := by
  unfold Obligations.PowerOnValuesAreNeverRead
  intro i s s' hc hc' hcfg hf hcause
  have unconfigured (ws : List Word) : (s.answered ws).configured = (s'.answered ws).configured ∧
      ((s.answered ws).configured = true → (s.answered ws).registers = (s'.answered ws).registers) :=
    ⟨hc.trans hc'.symm, fun h => absurd (hc.symm.trans h) (by decide)⟩
  by_cases hi : i.opcode = .construct ∨ i.opcode = .constructDesign
  · obtain ⟨d, e, e'⟩ | ⟨k, npfb, l, c, e, e'⟩ := exec_construction_congr i s s' hi hcfg
    · exact ⟨_, _, _, e, e', rfl, rfl, unconfigured _⟩
    · exact ⟨_, _, [responseHeader i.opcode.code .ok 0], e, e', rfl, rfl, rfl,
        fun _ => s.install_registers_congr s' k npfb l c hcfg⟩
  · obtain ⟨ws, e, e'⟩ := exec_unconfigured_congr i s s' hi hc hc' hcfg hf hcause
    exact ⟨_, _, ws, e, e', rfl, rfl, unconfigured ws⟩

end Sys2Proof.Machine
end
